-- ==== Sys2Proof/Word.lean ====
section
/-! DEFINITION. The word types of the block (spec/00_scope.md R8, R11, R12): bit 0 is the least significant bit. -/

namespace Sys2Proof

/-- A register, CSR, pc, address, instruction word or datum: 32 bits, unsigned (R8, R12). -/
abbrev Word := BitVec 32

/-- One cell of the memory image (20_memory.md R50). -/
abbrev Byte := BitVec 8

/-- The index of a general register, x0 to x31 (10_state.md R20). -/
abbrev RegIdx := BitVec 5

/-- The index of a CSR, 0 to 4095 (10_state.md R30). -/
abbrev CsrIdx := BitVec 12

/-- The address of an accelerator register, 0 to 31 (10_state.md R34). -/
abbrev XcelIdx := BitVec 5

/-- The correlation tag of a request, TAG_W = 8 bits (00_scope.md R10). -/
abbrev ReqTag := BitVec 8

end Sys2Proof
end

