-- ==== Sys2Proof/Config.lean ====
section
/-! DEFINITION. The parameters of the block (spec/00_scope.md R8 to R10), the harness's configuration of one run
(70_reset_and_hazards.md R267), and the free values: opaque constants about which nothing can be proved. -/

namespace Sys2Proof

/-- The ten operation tags, in the source's order (40_decode_alu.md R120). -/
inductive Tag where
  | add | and | sll | srl | bne | addi | lw | sw | csrrw | xcel
deriving DecidableEq, Repr, Inhabited

/-- One request an accelerator performs: a read of register `r`, or a write of `v` to it (45_xcel.md R179, R180). -/
inductive XcelOp where
  | read (r : XcelIdx)
  | write (r : XcelIdx) (v : Word)
deriving DecidableEq, Repr

/-- memory_stall_probability (00_scope.md R9) as the fraction `num / den`. What the block may do depends on it only through whether it
is 0, 1 or strictly between (20_memory.md R68), so a fraction loses nothing; the schedule of a seeded run may depend on more of it
(log entry 11). DEDUCED, safe (log entry 12). -/
structure Probability where
  num : Nat
  den : Nat
deriving DecidableEq, Repr

/-- In the domain 0.0 to 1.0 (00_scope.md R9). -/
def Probability.valid (p : Probability) : Bool := decide (0 < p.den) && decide (p.num ≤ p.den)

def Probability.isZero (p : Probability) : Bool := decide (p.num = 0)

def Probability.isOne (p : Probability) : Bool := decide (p.num = p.den)

/-- The configuration of one run: the four values of 00_scope.md R9 and the parameters XCEL_DEPTH, MAX_CYCLES and SEED of
R10. Negative latencies and delays are shut out by the type. -/
structure RunConfig where
  memoryLatency    : Nat
  stallProbability : Probability
  sourceDelay      : Nat
  sinkDelay        : Nat
  xcelDepth        : Nat
  maxCycles        : Nat
  seed             : Nat
deriving DecidableEq, Repr

/-- The valid configurations (70_reset_and_hazards.md R267). -/
def RunConfig.valid (c : RunConfig) : Bool :=
  decide (1 ≤ c.memoryLatency) && c.stallProbability.valid && decide (2 ≤ c.xcelDepth) && decide (1 ≤ c.maxCycles)

/-- MEM_DEPTH: memory requests in flight at once (00_scope.md R10). -/
def Config.memDepth : Nat := 1

/-- MEM_SIZE of the image at `State.reset`: the size the spec's own vectors use. DESIGN CHOICE, unsafe (log entry 4). -/
def Config.resetMemSize : Nat := 0x100000

/-- ENTRY at `State.reset`: the value of the spec's examples (00_scope.md R10). DESIGN CHOICE, unsafe (log entry 5). -/
def Config.resetEntry : Word := 0x00000200#32

/-- HALT_PC at `State.reset`: the first address past the image. DESIGN CHOICE, unsafe (log entry 6). -/
def Config.resetHaltPc : Word := 0x00100000#32

/-- The configuration at `State.reset`: no stall, latency 1, no delay; XCEL_DEPTH = 2 is the spec's default.
DESIGN CHOICE, unsafe (log entry 7). -/
def Config.resetRun : RunConfig where
  memoryLatency    := 1
  stallProbability := { num := 0, den := 1 }
  sourceDelay      := 0
  sinkDelay        := 0
  xcelDepth        := 2
  maxCycles        := 1000000
  seed             := 0

/-- FREE VALUE: what an accelerator other than the default store answers to a read of register `r` after the requests of
`history`, oldest first. 45_xcel.md R178 makes the accelerator a parameter and R182 makes its answers a function of the
requests performed (log entry 10). -/
opaque Config.xcelAnswer (history : List XcelOp) (r : XcelIdx) : Word

/-- FREE VALUE: the stall generator's answer in a run with seed `seed` and probability `p`, when `n` requests have issued before, used
when 0 < p < 1 (20_memory.md R68, R78, R79). DESIGN CHOICE (log entry 11): how p is compared with the generator's output is open, so
the bit may depend on p. -/
opaque Config.stallBit (seed : Nat) (p : Probability) (n : Nat) : Bool

/-- FREE VALUE: one less than the accelerator latency of the request that issues when `n` have issued before (45_xcel.md R187). DESIGN
CHOICE (log entry 11): the spec ties this draw to no seed. -/
opaque Config.xcelDelay (seed n : Nat) : Nat

/-- FREE VALUE: the decoder's `tag` output for an illegal word (40_decode_alu.md R121; log entry 13). -/
opaque Config.freeTag (w : Word) : Tag

end Sys2Proof
end

