-- ==== Sys2Proof/Syntax.lean ====
section
/-! DEFINITION. The twelve instructions of the block, one constructor per row of spec/opcode_table.json
(30_encoding.md R100), with their operands as the fields of the word give them (R91 to R99). -/

namespace Sys2Proof

inductive Instr where
  /-- `add rd, rs1, rs2` (R140). -/
  | add (rd rs1 rs2 : RegIdx)
  /-- `and rd, rs1, rs2` (R141). -/
  | and (rd rs1 rs2 : RegIdx)
  /-- `sll rd, rs1, rs2` (R142). -/
  | sll (rd rs1 rs2 : RegIdx)
  /-- `srl rd, rs1, rs2` (R143). -/
  | srl (rd rs1 rs2 : RegIdx)
  /-- `addi rd, rs1, imm`: `imm` is the 12-bit field inst[31:20] (R144). -/
  | addi (rd rs1 : RegIdx) (imm : BitVec 12)
  /-- `bne rs1, rs2, off`: `off` is the 13-bit byte offset, whose bit 0 is not encoded and is 0 (R98, R150). -/
  | bne (rs1 rs2 : RegIdx) (off : BitVec 13)
  /-- `lw rd, imm(rs1)`: `imm` is the 12-bit field inst[31:20] (R155). -/
  | lw (rd rs1 : RegIdx) (imm : BitVec 12)
  /-- `sw rs2, imm(rs1)`: `imm` is the 12-bit field inst[31:25] ++ inst[11:7] (R156). -/
  | sw (rs2 rs1 : RegIdx) (imm : BitVec 12)
  /-- `csrrw rd, csr, rs1` (R165). -/
  | csrrw (rd : RegIdx) (csr : CsrIdx) (rs1 : RegIdx)
  /-- `csrrwi rd, csr, uimm`: `uimm` is the 5-bit field inst[19:15] (R166). -/
  | csrrwi (rd : RegIdx) (csr : CsrIdx) (uimm : BitVec 5)
  /-- `xcelrd rd, xr` (R175). -/
  | xcelrd (rd : RegIdx) (xr : XcelIdx)
  /-- `xcelwr xr, rs1` (R176). -/
  | xcelwr (xr : XcelIdx) (rs1 : RegIdx)
deriving DecidableEq, Repr

end Sys2Proof
end

