-- ==== Sys2Proof/WellFormed.lean ====
section
/-! DEFINITION. Which instructions have an encoding (spec/30_encoding.md R98, R112). The widths of the operand fields are in
the types; the one operand whose type is wider than its field is the branch offset, whose bit 0 is not encoded. -/

namespace Sys2Proof

/-- The branch offset is even: bit 0 of the 13-bit field is 0 (R98). -/
def evenOffset (off : BitVec 13) : Bool := !off.getLsbD 0

/-- `i` has an encoding: every operand is in the range of R111. -/
def Instr.wellFormed : Instr → Bool
  | .bne _ _ off => evenOffset off
  | .add _ _ _ | .and _ _ _ | .sll _ _ _ | .srl _ _ _ | .addi _ _ _ | .lw _ _ _ | .sw _ _ _
  | .csrrw _ _ _ | .csrrwi _ _ _ | .xcelrd _ _ | .xcelwr _ _ => true

/-- The decidable predicate statements use. -/
abbrev Instr.WellFormed (i : Instr) : Prop := i.wellFormed = true

end Sys2Proof
end

