-- ==== Sys2Proof/Decode.lean ====
section
/-! DEFINITION. Decode and encode (spec/30_encoding.md): the fields of a word (R91 to R99), the twelve rows of the opcode map
(R100), the decoder (R101), the words of an instruction, and the byte layout of an instruction word (R90). -/

namespace Sys2Proof

/-! ### Bit fields and byte order -/

/-- The field `v` at bit position `pos` of an `m`-bit word, all other bits 0. -/
def place {n : Nat} (m pos : Nat) (v : BitVec n) : BitVec m := v.setWidth m <<< pos

/-- Sign extension to 32 bits (00_scope.md R12). -/
def sext32 {n : Nat} (v : BitVec n) : Word := v.signExtend 32

/-- Zero extension to 32 bits (00_scope.md R12). -/
def zext32 {n : Nat} (v : BitVec n) : Word := v.setWidth 32

/-- Byte `k` of a word, byte 0 being bits 7:0 (20_memory.md R52). -/
def wordByte (v : Word) (k : Nat) : Byte := v.extractLsb' (8 * k) 8

/-- The word whose bytes, from the lowest address up, are `b0 b1 b2 b3` (20_memory.md R52). -/
def wordOfBytes (b0 b1 b2 b3 : Byte) : Word :=
  place 32 24 b3 ||| place 32 16 b2 ||| place 32 8 b1 ||| place 32 0 b0

/-! ### The fields of a word (R91, R98, R99) -/

def fieldRd (w : Word) : RegIdx := w.extractLsb' 7 5

def fieldRs1 (w : Word) : RegIdx := w.extractLsb' 15 5

def fieldRs2 (w : Word) : RegIdx := w.extractLsb' 20 5

/-- inst[31:20], the field of I-imm. -/
def fieldImmI (w : Word) : BitVec 12 := w.extractLsb' 20 12

/-- inst[31:25] ++ inst[11:7], the field of S-imm. -/
def fieldImmS (w : Word) : BitVec 12 := place 12 5 (w.extractLsb' 25 7) ||| place 12 0 (w.extractLsb' 7 5)

/-- inst[31] ++ inst[7] ++ inst[30:25] ++ inst[11:8] ++ 0, the field of B-imm. -/
def fieldImmB (w : Word) : BitVec 13 :=
  place 13 12 (w.extractLsb' 31 1) ||| place 13 11 (w.extractLsb' 7 1) |||
    place 13 5 (w.extractLsb' 25 6) ||| place 13 1 (w.extractLsb' 8 4)

def fieldCsr (w : Word) : CsrIdx := w.extractLsb' 20 12

def fieldUimm (w : Word) : BitVec 5 := w.extractLsb' 15 5

def fieldXr (w : Word) : XcelIdx := w.extractLsb' 20 5

/-! ### The opcode map (R100) -/

/-- A row of R100: a word `w` is the row's instruction exactly when `w &&& mask = pattern`. -/
structure Row where
  mask    : Word
  pattern : Word
  build   : Word → Instr

def Row.matches (r : Row) (w : Word) : Bool := decide (w &&& r.mask = r.pattern)

def Row.add : Row where
  mask := 0xFE00707F#32
  pattern := 0x00000033#32
  build w := .add (fieldRd w) (fieldRs1 w) (fieldRs2 w)

def Row.and : Row where
  mask := 0xFE00707F#32
  pattern := 0x00007033#32
  build w := .and (fieldRd w) (fieldRs1 w) (fieldRs2 w)

def Row.sll : Row where
  mask := 0xFE00707F#32
  pattern := 0x00001033#32
  build w := .sll (fieldRd w) (fieldRs1 w) (fieldRs2 w)

def Row.srl : Row where
  mask := 0xFE00707F#32
  pattern := 0x00005033#32
  build w := .srl (fieldRd w) (fieldRs1 w) (fieldRs2 w)

def Row.addi : Row where
  mask := 0x0000707F#32
  pattern := 0x00000013#32
  build w := .addi (fieldRd w) (fieldRs1 w) (fieldImmI w)

def Row.bne : Row where
  mask := 0x0000707F#32
  pattern := 0x00001063#32
  build w := .bne (fieldRs1 w) (fieldRs2 w) (fieldImmB w)

def Row.lw : Row where
  mask := 0x0000707F#32
  pattern := 0x00002003#32
  build w := .lw (fieldRd w) (fieldRs1 w) (fieldImmI w)

def Row.sw : Row where
  mask := 0x0000707F#32
  pattern := 0x00002023#32
  build w := .sw (fieldRs2 w) (fieldRs1 w) (fieldImmS w)

def Row.csrrw : Row where
  mask := 0x0000707F#32
  pattern := 0x00001073#32
  build w := .csrrw (fieldRd w) (fieldCsr w) (fieldRs1 w)

def Row.csrrwi : Row where
  mask := 0x0000707F#32
  pattern := 0x00005073#32
  build w := .csrrwi (fieldRd w) (fieldCsr w) (fieldUimm w)

def Row.xcelrd : Row where
  mask := 0xFE0FF07F#32
  pattern := 0x0000000B#32
  build w := .xcelrd (fieldRd w) (fieldXr w)

def Row.xcelwr : Row where
  mask := 0xFE007FFF#32
  pattern := 0x0000100B#32
  build w := .xcelwr (fieldXr w) (fieldRs1 w)

/-- The twelve rows, in the order of R100. -/
def rows : List Row :=
  [.add, .and, .sll, .srl, .addi, .bne, .lw, .sw, .csrrw, .csrrwi, .xcelrd, .xcelwr]

/-- The row an instruction belongs to. -/
def Instr.row : Instr → Row
  | .add _ _ _ => .add
  | .and _ _ _ => .and
  | .sll _ _ _ => .sll
  | .srl _ _ _ => .srl
  | .addi _ _ _ => .addi
  | .bne _ _ _ => .bne
  | .lw _ _ _ => .lw
  | .sw _ _ _ => .sw
  | .csrrw _ _ _ => .csrrw
  | .csrrwi _ _ _ => .csrrwi
  | .xcelrd _ _ => .xcelrd
  | .xcelwr _ _ => .xcelwr

/-- `Decode(w)` (R101): total, reads nothing but `w`; `none` is *illegal*. -/
def decode (w : Word) : Option Instr := (rows.find? (·.matches w)).map (·.build w)

/-! ### Bytes -/

/-- Why bytes are no instruction. -/
inductive DecodeReject where
  /-- The word matches no row (R104). -/
  | illegalInstruction (w : Word)
  /-- Fewer than the four bytes of an instruction word are there (R90). -/
  | tooFewBytes (n : Nat)
deriving DecidableEq, Repr

/-- Decode the first instruction of a run of bytes, lowest address first, and give back the rest (R90, R106). -/
def decodeBytes : List Byte → Except DecodeReject (Instr × List Byte)
  | b0 :: b1 :: b2 :: b3 :: rest =>
    match decode (wordOfBytes b0 b1 b2 b3) with
    | some i => .ok (i, rest)
    | none => .error (.illegalInstruction (wordOfBytes b0 b1 b2 b3))
  | bs => .error (.tooFewBytes bs.length)

/-- The four bytes of a word as memory holds them, lowest address first (20_memory.md R52, R53). -/
def bytesOfWord (v : Word) : List Byte := [wordByte v 0, wordByte v 1, wordByte v 2, wordByte v 3]

/-- The instruction the decoder reads from the table word `w` of `nbits` bits: every row has 32 bits, laid out little-endian. -/
def decodeTableWord (nbits w : Nat) : Option Instr :=
  match decodeBytes (bytesOfWord (BitVec.ofNat 32 (w % 2 ^ nbits))) with
  | .ok (i, _) => some i
  | .error _ => none

/-! ### The words of an instruction (R92 to R97) -/

/-- Format R (R92). -/
def encodeR (funct3 : BitVec 3) (rd rs1 rs2 : RegIdx) : Word :=
  place 32 25 0x00#7 ||| place 32 20 rs2 ||| place 32 15 rs1 ||| place 32 12 funct3 ||| place 32 7 rd ||| place 32 0 0x33#7

/-- Format I (R93). -/
def encodeI (opcode : BitVec 7) (funct3 : BitVec 3) (rd rs1 : RegIdx) (imm : BitVec 12) : Word :=
  place 32 20 imm ||| place 32 15 rs1 ||| place 32 12 funct3 ||| place 32 7 rd ||| place 32 0 opcode

/-- Format S (R94). -/
def encodeS (rs2 rs1 : RegIdx) (imm : BitVec 12) : Word :=
  place 32 25 (imm.extractLsb' 5 7) ||| place 32 20 rs2 ||| place 32 15 rs1 ||| place 32 12 0b010#3 |||
    place 32 7 (imm.extractLsb' 0 5) ||| place 32 0 0x23#7

/-- Format B (R95): bit 0 of the offset has no place in the word. -/
def encodeB (rs1 rs2 : RegIdx) (off : BitVec 13) : Word :=
  place 32 31 (off.extractLsb' 12 1) ||| place 32 25 (off.extractLsb' 5 6) ||| place 32 20 rs2 ||| place 32 15 rs1 |||
    place 32 12 0b001#3 ||| place 32 8 (off.extractLsb' 1 4) ||| place 32 7 (off.extractLsb' 11 1) ||| place 32 0 0x63#7

/-- Format C (R96): the 5-bit field `src` is rs1 or uimm. -/
def encodeC (funct3 : BitVec 3) (rd : RegIdx) (csr : CsrIdx) (src : BitVec 5) : Word :=
  place 32 20 csr ||| place 32 15 src ||| place 32 12 funct3 ||| place 32 7 rd ||| place 32 0 0x73#7

/-- Format X (R97). -/
def encodeX (funct3 : BitVec 3) (rd rs1 : RegIdx) (xr : XcelIdx) : Word :=
  place 32 25 0x00#7 ||| place 32 20 xr ||| place 32 15 rs1 ||| place 32 12 funct3 ||| place 32 7 rd ||| place 32 0 0x0B#7

/-- The word of an instruction, written from R92 to R97 and the function codes of R100. -/
def encode : Instr → Word
  | .add rd rs1 rs2 => encodeR 0b000#3 rd rs1 rs2
  | .and rd rs1 rs2 => encodeR 0b111#3 rd rs1 rs2
  | .sll rd rs1 rs2 => encodeR 0b001#3 rd rs1 rs2
  | .srl rd rs1 rs2 => encodeR 0b101#3 rd rs1 rs2
  | .addi rd rs1 imm => encodeI 0x13#7 0b000#3 rd rs1 imm
  | .bne rs1 rs2 off => encodeB rs1 rs2 off
  | .lw rd rs1 imm => encodeI 0x03#7 0b010#3 rd rs1 imm
  | .sw rs2 rs1 imm => encodeS rs2 rs1 imm
  | .csrrw rd csr rs1 => encodeC 0b001#3 rd csr rs1
  | .csrrwi rd csr uimm => encodeC 0b101#3 rd csr uimm
  | .xcelrd rd xr => encodeX 0b000#3 rd 0x0#5 xr
  | .xcelwr xr rs1 => encodeX 0b001#3 0x0#5 rs1 xr

end Sys2Proof
end

