-- ==== Sys2Proof/Machine/State.lean ====
section
/-! DEFINITION. The state of the block (spec/10_state.md): architectural state, the parameters one run is loaded with, and
the hidden state of the cycle level; the faults; the state after reset (R43). -/

namespace Sys2Proof.Machine

/-- What an access is for (60_exceptions.md R200). -/
inductive Access where
  | fetch | load | store
deriving DecidableEq, Repr

/-- The three faults, each with the record R200 and R210 give it. All are terminal: the run ends (R14, R210). -/
inductive Fault where
  /-- Code 1. Raised by `step` and by the EXECUTE phase for a fetched word that no row of the opcode map matches (R201). Safe: the
  spec stops there. -/
  | illegalInstruction (pc : Word) (word : Word)
  /-- Code 2. Raised for a fetch, a load or a store at an address that is no multiple of 4 (R202). Safe: the spec stops there. -/
  | alignmentFault (pc : Word) (addr : Word) (access : Access)
  /-- Code 3. Raised for an aligned access past the end of memory (R203). Safe: the spec stops there. -/
  | memoryRangeFault (pc : Word) (addr : Word) (access : Access)
deriving DecidableEq, Repr

/-- Why the model itself gives an instruction no meaning. -/
inductive Refusal where
  /-- Raised by an arm of `exec` whose instruction has no meaning yet: none is left. Safe: nothing is claimed of such an instruction. -/
  | notModelled (mnemonic : String)
deriving DecidableEq, Repr

/-- The accelerator and its state (45_xcel.md R178 to R181). -/
inductive Xcel where
  /-- The default accelerator: 32 plain registers (R181). -/
  | store (xr : Vector Word 32)
  /-- Any other accelerator, as the list of the requests it has performed, oldest first: by R182 its answers are a function of that
  list, and the function is the free value `Config.xcelAnswer` (log entry 10). -/
  | device (history : List XcelOp)
deriving DecidableEq, Repr

/-- Read or write (10_state.md R36). -/
inductive ReqKind where
  | read | write
deriving DecidableEq, Repr

/-- An in-flight request record of the Memory Port (10_state.md R36). -/
structure MemRecord where
  kind       : ReqKind
  addr       : Word
  data       : Word
  issueCycle : Nat
  tag        : ReqTag
  rd         : RegIdx
  readyCycle : Nat
deriving DecidableEq, Repr

/-- An in-flight request record of the Accelerator Port (10_state.md R36). -/
structure XcelRecord where
  kind       : ReqKind
  addr       : XcelIdx
  data       : Word
  issueCycle : Nat
  tag        : ReqTag
  rd         : RegIdx
  readyCycle : Nat
deriving DecidableEq, Repr

/-- The phase of the core (70_reset_and_hazards.md R241). -/
inductive Phase where
  | fetchIssue | fetchWait | execute | memWait | halted | faulted
deriving DecidableEq, Repr

structure State where
  /-- General registers x0 to x31 (R20). Element 0 is never read or written: see `State.reg` and `State.setReg`. -/
  x : Vector Word 32
  /-- The address of the instruction being executed (R25). -/
  pc : Word
  /-- The CSRs that differ from 0, by rising index (R30). -/
  csr : List (Nat × Word)
  /-- The bytes of memory that differ from 0, by rising address (R35). -/
  mem : List Host.Cell
  /-- The accelerator state (R34). -/
  xcel : Xcel
  /-- MEM_SIZE, installed by load (20_memory.md R50; log entry 8). -/
  memSize : Nat
  /-- HALT_PC, installed by load (R41; log entry 8). -/
  haltPc : Word
  /-- The configuration of the run, installed by load (00_scope.md R9, R10; log entry 8). -/
  cfg : RunConfig
  /-- In-flight records of the Memory Port, oldest first (R36). -/
  mq : List MemRecord
  /-- In-flight records of the Accelerator Port, oldest first (R36). -/
  xq : List XcelRecord
  /-- The scoreboard (R37). Element 0 is never read or written. -/
  busy : Vector Bool 32
  /-- The phase of the core (R38). -/
  phase : Phase
  /-- The instruction word latched from the fetch response (R38). -/
  ir : Word
  /-- Cycles of source_delay still to wait (R38). -/
  holdCtr : Nat
  /-- Requests issued on either port since load (R38). -/
  issueCtr : Nat
  /-- Ticks since load (R38). -/
  cyc : Nat
  /-- The fault record, once raised (R38). -/
  fault : Option Fault
  /-- The stall draw for the presented request was made (R38). -/
  stallDrawn : Bool
  /-- One stall cycle is still owed (R38). -/
  stallLeft : Bool
deriving DecidableEq, Repr

/-- The machine right after `load` of an image of `Config.resetMemSize` zero bytes with the default accelerator: every value of
the table of R43, for the ENTRY, HALT_PC, image and configuration the log names (entries 4 to 7); `ir` is entry 9. -/
def State.reset : State where
  x          := Vector.replicate 32 0x00000000#32
  pc         := Config.resetEntry
  csr        := []
  mem        := []
  xcel       := .store (Vector.replicate 32 0x00000000#32)
  memSize    := Config.resetMemSize
  haltPc     := Config.resetHaltPc
  cfg        := Config.resetRun
  mq         := []
  xq         := []
  busy       := Vector.replicate 32 false
  phase      := .fetchIssue
  ir         := 0x00000000#32
  holdCtr    := Config.resetRun.sourceDelay
  issueCtr   := 0
  cyc        := 0
  fault      := none
  stallDrawn := false
  stallLeft  := false

end Sys2Proof.Machine
end

