-- ==== Sys2Proof/Machine/Ops.lean ====
section
/-! DEFINITION. The named operations over registers, CSRs, memory and the accelerator (spec/00_scope.md R13), the access check
(20_memory.md R58 to R61), taking a fault (60_exceptions.md R210) and the commit of an instruction. -/

namespace Sys2Proof.Machine

/-! ### Sparse maps: a list of (key, value) pairs, keys rising, no value equal to the default -/

/-- The value at key `k`; the default where `k` is not listed. -/
def sparseGet {α : Type} (dflt : α) : List (Nat × α) → Nat → α
  | [], _ => dflt
  | (a, v) :: rest, k => if k = a then v else sparseGet dflt rest k

/-- Insert a pair before the first key that is larger. -/
def sparseInsert {α : Type} (k : Nat) (v : α) : List (Nat × α) → List (Nat × α)
  | [] => [(k, v)]
  | (a, w) :: rest => if k < a then (k, v) :: (a, w) :: rest else (a, w) :: sparseInsert k v rest

/-- Remove every pair of key `k`. -/
def sparseErase {α : Type} (k : Nat) (l : List (Nat × α)) : List (Nat × α) := l.filter fun p => p.1 != k

/-- The map with `v` at `k`; writing the default removes the entry. -/
def sparseSet {α : Type} [DecidableEq α] (dflt : α) (l : List (Nat × α)) (k : Nat) (v : α) : List (Nat × α) :=
  if v = dflt then sparseErase k l else sparseInsert k v (sparseErase k l)

/-- Keys strictly rising. -/
def sparseRising {α : Type} : List (Nat × α) → Bool
  | [] => true
  | (a, _) :: rest => rest.all (fun p => decide (a < p.1)) && sparseRising rest

/-- The canonical form: keys strictly rising and below `bound`, no value equal to the default. -/
def sparseWf {α : Type} [DecidableEq α] (dflt : α) (bound : Nat) (l : List (Nat × α)) : Bool :=
  sparseRising l && l.all (fun p => decide (p.1 < bound) && decide (p.2 ≠ dflt))

/-! ### General registers (10_state.md R20 to R22) -/

/-- `x[i]`: register 0 reads 0 (R21). -/
def State.reg (s : State) (i : RegIdx) : Word :=
  if i = 0#5 then 0x00000000#32 else s.x[i.toNat]'i.isLt

/-- `x[i] <- v`: a write to register 0 is discarded (R22). -/
def State.setReg (s : State) (i : RegIdx) (v : Word) : State :=
  if i = 0#5 then s else { s with x := s.x.set i.toNat v i.isLt }

/-! ### Program counter (R25, R26) -/

/-- `pc <- t`. -/
def State.setPc (s : State) (t : Word) : State := { s with pc := t }

/-- The address of the next instruction in sequence, modulo 2^32 (R26, R27). -/
def State.pcPlus4 (s : State) : Word := s.pc + 4#32

/-! ### CSRs (R30 to R32) -/

/-- `csr[k]`. -/
def State.csrRead (s : State) (k : CsrIdx) : Word := sparseGet 0x00000000#32 s.csr k.toNat

/-- `csr[k] <- v`: changes `csr[k]` and nothing else (R31). -/
def State.csrWrite (s : State) (k : CsrIdx) (v : Word) : State :=
  { s with csr := sparseSet 0x00000000#32 s.csr k.toNat v }

/-! ### Memory (20_memory.md R50 to R57) -/

/-- What an unlisted address of the image holds. DESIGN CHOICE, unsafe (log entry 4). -/
def unlistedByte : Byte := 0x00#8

/-- `mem[a]`. -/
def State.byte (s : State) (a : Nat) : Byte := sparseGet unlistedByte s.mem a

/-- `mem[a] <- b` on the list of bytes. -/
def memSet (m : List Host.Cell) (a : Nat) (b : Byte) : List Host.Cell := sparseSet unlistedByte m a b

/-- The 32-bit little-endian word at byte addresses `a` to `a + 3` (R52, R56). -/
def State.word (s : State) (a : Nat) : Word :=
  wordOfBytes (s.byte a) (s.byte (a + 1)) (s.byte (a + 2)) (s.byte (a + 3))

/-- The bytes with the word `v` stored little-endian at `a` to `a + 3` (R57). -/
def memSetWord (m : List Host.Cell) (a : Nat) (v : Word) : List Host.Cell :=
  memSet (memSet (memSet (memSet m a (wordByte v 0)) (a + 1) (wordByte v 1)) (a + 2) (wordByte v 2)) (a + 3) (wordByte v 3)

/-- `MemRead(a, 4)` (R56). -/
def State.memRead (s : State) (a : Word) : Word := s.word a.toNat

/-- `MemWrite(a, 4, v)` (R57). -/
def State.memWrite (s : State) (a v : Word) : State := { s with mem := memSetWord s.mem a.toNat v }

/-- The memory image is in its canonical form and lies below MEM_SIZE (R50). -/
def Memory.wf (memSize : Nat) (m : List Host.Cell) : Bool := sparseWf unlistedByte memSize m

/-! ### Alignment and range (20_memory.md R58 to R61, 60_exceptions.md R207) -/

/-- A multiple of 4: address bits 1:0 are 0. -/
def aligned4 (a : Word) : Bool := decide (a.extractLsb' 0 2 = 0#2)

/-- The whole access lies in the image; natural-number arithmetic, no wrap (R61). -/
def State.inRange (s : State) (a : Word) : Bool := decide (a.toNat + 4 ≤ s.memSize)

/-- The fault of an access at `a`, alignment before range (R207), or none. -/
def State.accessFault (s : State) (access : Access) (a : Word) : Option Fault :=
  if !aligned4 a then some (.alignmentFault s.pc a access)
  else if !s.inRange a then some (.memoryRangeFault s.pc a access)
  else none

/-! ### Accelerator (45_xcel.md R178 to R181) -/

/-- `rd(sigma, r)`: the datum a read of register `r` returns and the state after it. -/
def Xcel.read : Xcel → XcelIdx → Word × Xcel
  | .store xr, r => (xr[r.toNat]'r.isLt, .store xr)
  | .device history, r => (Config.xcelAnswer history r, .device (history ++ [.read r]))

/-- `wr(sigma, r, v)`: the state after a write. -/
def Xcel.write : Xcel → XcelIdx → Word → Xcel
  | .store xr, r, v => .store (xr.set r.toNat v r.isLt)
  | .device history, r, v => .device (history ++ [.write r v])

/-- `XcelRead(r)`: the datum and the machine after the read (R179). -/
def State.xcelRead (s : State) (r : XcelIdx) : Word × State :=
  ((s.xcel.read r).1, { s with xcel := (s.xcel.read r).2 })

/-- `XcelWrite(r, v)` (R180). -/
def State.xcelWrite (s : State) (r : XcelIdx) (v : Word) : State := { s with xcel := s.xcel.write r v }

/-! ### Taking a fault (60_exceptions.md R200, R210) -/

/-- The code of a fault (R200). -/
def Fault.code : Fault → Nat
  | .illegalInstruction _ _ => 1
  | .alignmentFault _ _ _ => 2
  | .memoryRangeFault _ _ _ => 3

/-- The pc of the faulting instruction, as recorded. -/
def Fault.pc : Fault → Word
  | .illegalInstruction pc _ => pc
  | .alignmentFault pc _ _ => pc
  | .memoryRangeFault pc _ _ => pc

/-- `raise F(info)`: the run ends in the fault, and the faulting instruction has no effect (R210). There is no handler to enter and
nothing to return to (R211; log entry 3). -/
def raise (f : Fault) : Host.Outcome State Fault Refusal := .fault f

/-- Fault entry at the cycle level: the record is set, the phase is FAULTED, nothing else changes (R210; 70_reset_and_hazards.md
R254). -/
def State.enterFault (s : State) (f : Fault) : State := { s with phase := .faulted, fault := some f }

/-! ### Commit -/

/-- The commit of an instruction that goes on in sequence: `pc <- pc + 4` (R26). -/
def State.commit (s : State) : Host.Outcome State Fault Refusal := .next (s.setPc s.pcPlus4)

/-- The commit of an instruction whose one result is a register: `x[rd] <- v`, `pc <- pc + 4`. -/
def State.commitReg (s : State) (rd : RegIdx) (v : Word) : Host.Outcome State Fault Refusal := (s.setReg rd v).commit

end Sys2Proof.Machine
end

