-- ==== Sys2Proof/Machine/Operands.lean ====
section
/-! DEFINITION. The operand forms of the twelve instructions (spec/30_encoding.md R98, R99): immediates, the effective address,
the branch target, and the registers each instruction reads and writes (40_decode_alu.md R123). -/

namespace Sys2Proof.Machine

/-- I-imm, S-imm: a 12-bit field sign-extended (R98). -/
def immOperand (imm : BitVec 12) : Word := sext32 imm

/-- B-imm: the 13-bit offset sign-extended (R98). -/
def offsetOperand (off : BitVec 13) : Word := sext32 off

/-- uimm: the 5-bit field zero-extended (R99). -/
def uimmOperand (uimm : BitVec 5) : Word := zext32 uimm

/-- The effective address of `lw` and `sw`: base register plus offset, modulo 2^32 (43_load_store.md R155, R156). -/
def State.effectiveAddress (s : State) (rs1 : RegIdx) (imm : BitVec 12) : Word := s.reg rs1 + immOperand imm

/-- The target of a taken `bne`, modulo 2^32 (42_branch.md R150). -/
def State.branchTarget (s : State) (off : BitVec 13) : Word := s.pc + offsetOperand off

end Sys2Proof.Machine

namespace Sys2Proof

/-- The operation tag of an instruction (40_decode_alu.md R120). -/
def Instr.tag : Instr → Tag
  | .add _ _ _ => .add
  | .and _ _ _ => .and
  | .sll _ _ _ => .sll
  | .srl _ _ _ => .srl
  | .bne _ _ _ => .bne
  | .addi _ _ _ => .addi
  | .lw _ _ _ => .lw
  | .sw _ _ _ => .sw
  | .csrrw _ _ _ | .csrrwi _ _ _ => .csrrw
  | .xcelrd _ _ | .xcelwr _ _ => .xcel

/-- The general registers an instruction reads: the `reads` column of R123. -/
def Instr.reads : Instr → List RegIdx
  | .add _ rs1 rs2 | .and _ rs1 rs2 | .sll _ rs1 rs2 | .srl _ rs1 rs2 => [rs1, rs2]
  | .addi _ rs1 _ => [rs1]
  | .bne rs1 rs2 _ => [rs1, rs2]
  | .lw _ rs1 _ => [rs1]
  | .sw rs2 rs1 _ => [rs1, rs2]
  | .csrrw _ _ rs1 => [rs1]
  | .csrrwi _ _ _ => []
  | .xcelrd _ _ => []
  | .xcelwr _ rs1 => [rs1]

/-- The general registers an instruction writes: the `writes` column of R123. -/
def Instr.writes : Instr → List RegIdx
  | .add rd _ _ | .and rd _ _ | .sll rd _ _ | .srl rd _ _ => [rd]
  | .addi rd _ _ => [rd]
  | .bne _ _ _ => []
  | .lw rd _ _ => [rd]
  | .sw _ _ _ => []
  | .csrrw rd _ _ => [rd]
  | .csrrwi rd _ _ => [rd]
  | .xcelrd rd _ => [rd]
  | .xcelwr _ _ => []

end Sys2Proof
end

