-- ==== Sys2Proof/Machine/Flags.lean ====
section
/-! DEFINITION. The block has no flags, condition codes or predicate registers (spec/10_state.md R28). The one condition it
computes is the `ne` output of the ALU, which `bne` consumes at once (40_decode_alu.md R131). -/

namespace Sys2Proof.Machine

/-- The `ne` output: 1 when the operands differ in any of their 32 bits (R131). -/
def aluNe (a b : Word) : Bool := decide (a ≠ b)

end Sys2Proof.Machine
end

