-- ==== Sys2Proof/Machine/Alu.lean ====
section
/-! DEFINITION. The ALU block, a stateless function of its inputs (spec/40_decode_alu.md R126 to R130). -/

namespace Sys2Proof.Machine

/-- The `fn` input (R126). -/
inductive AluFn where
  | add | and | sll | srl
deriving DecidableEq, Repr

/-- The 2-bit code of `fn` (R126). -/
def AluFn.code : AluFn → BitVec 2
  | .add => 0#2
  | .and => 1#2
  | .sll => 2#2
  | .srl => 3#2

/-- The shift amount: the low 5 bits of the shift-amount operand (R129, R130). -/
def shiftAmount (b : Word) : Nat := (b.extractLsb' 0 5).toNat

/-- The `y` output (R127 to R130). -/
def aluY (fn : AluFn) (a b : Word) : Word :=
  match fn with
  | .add => a + b
  | .and => a &&& b
  | .sll => a <<< shiftAmount b
  | .srl => a >>> shiftAmount b

end Sys2Proof.Machine
end

