-- ==== Sys2Proof/Machine/Accel.lean ====
section
/-! DEFINITION. Accelerator instructions (spec/45_xcel.md R175, R176). -/

namespace Sys2Proof.Machine

/-- `xcelrd rd, xr` (R175): the accelerator performs the read even when `rd` is x0. -/
def execXcelrd (rd : RegIdx) (xr : XcelIdx) (s : State) : Host.Outcome State Fault Refusal :=
  (s.xcelRead xr).2.commitReg rd (s.xcelRead xr).1

/-- `xcelwr xr, rs1` (R176). -/
def execXcelwr (xr : XcelIdx) (rs1 : RegIdx) (s : State) : Host.Outcome State Fault Refusal :=
  (s.xcelWrite xr (s.reg rs1)).commit

end Sys2Proof.Machine
end

