-- ==== Sys2Proof/Machine/Arith.lean ====
section
/-! DEFINITION. Arithmetic, logical and shift instructions (spec/41_arith_logic_shift.md R140 to R144): no flag, no fault, no
request; sources are read before the destination is written. -/

namespace Sys2Proof.Machine

/-- `add rd, rs1, rs2` (R140). -/
def execAdd (rd rs1 rs2 : RegIdx) (s : State) : Host.Outcome State Fault Refusal :=
  s.commitReg rd (aluY .add (s.reg rs1) (s.reg rs2))

/-- `and rd, rs1, rs2` (R141). -/
def execAnd (rd rs1 rs2 : RegIdx) (s : State) : Host.Outcome State Fault Refusal :=
  s.commitReg rd (aluY .and (s.reg rs1) (s.reg rs2))

/-- `sll rd, rs1, rs2` (R142): `x[rs1]` is shifted by the low 5 bits of `x[rs2]`. -/
def execSll (rd rs1 rs2 : RegIdx) (s : State) : Host.Outcome State Fault Refusal :=
  s.commitReg rd (aluY .sll (s.reg rs1) (s.reg rs2))

/-- `srl rd, rs1, rs2` (R143). -/
def execSrl (rd rs1 rs2 : RegIdx) (s : State) : Host.Outcome State Fault Refusal :=
  s.commitReg rd (aluY .srl (s.reg rs1) (s.reg rs2))

/-- `addi rd, rs1, imm` (R144). -/
def execAddi (rd rs1 : RegIdx) (imm : BitVec 12) (s : State) : Host.Outcome State Fault Refusal :=
  s.commitReg rd (aluY .add (s.reg rs1) (immOperand imm))

end Sys2Proof.Machine
end

