-- ==== Sys2Proof/Machine/Branch.lean ====
section
/-! DEFINITION. Control transfer (spec/42_branch.md). -/

namespace Sys2Proof.Machine

/-- `bne rs1, rs2, off` (R150): pc on the right-hand side is the address of the `bne` itself. The target is not checked here: a
misaligned or out-of-range target faults at the next fetch (R152). -/
def execBne (rs1 rs2 : RegIdx) (off : BitVec 13) (s : State) : Host.Outcome State Fault Refusal :=
  if aluNe (s.reg rs1) (s.reg rs2) then .next (s.setPc (s.branchTarget off)) else s.commit

end Sys2Proof.Machine
end

