-- ==== Sys2Proof/Machine/Csr.lean ====
section
/-! DEFINITION. CSR access (spec/44_csr.md): the prior value goes to `rd`, the new value, read before `rd` is written, to the CSR. -/

namespace Sys2Proof.Machine

/-- The read and the write of one CSR inside one instruction, in that order (R165, R167). -/
def State.csrSwap (s : State) (rd : RegIdx) (k : CsrIdx) (new : Word) : Host.Outcome State Fault Refusal :=
  (s.csrWrite k new).commitReg rd (s.csrRead k)

/-- `csrrw rd, csr, rs1` (R165). -/
def execCsrrw (rd : RegIdx) (csr : CsrIdx) (rs1 : RegIdx) (s : State) : Host.Outcome State Fault Refusal :=
  s.csrSwap rd csr (s.reg rs1)

/-- `csrrwi rd, csr, uimm` (R166). -/
def execCsrrwi (rd : RegIdx) (csr : CsrIdx) (uimm : BitVec 5) (s : State) : Host.Outcome State Fault Refusal :=
  s.csrSwap rd csr (uimmOperand uimm)

end Sys2Proof.Machine
end

