-- ==== Sys2Proof/Machine/LoadStore.lean ====
section
/-! DEFINITION. Loads and stores (spec/43_load_store.md): effective address, alignment, range, access (R157). -/

namespace Sys2Proof.Machine

/-- `lw rd, imm(rs1)` (R155). -/
def execLw (rd rs1 : RegIdx) (imm : BitVec 12) (s : State) : Host.Outcome State Fault Refusal :=
  match s.accessFault .load (s.effectiveAddress rs1 imm) with
  | some f => raise f
  | none => s.commitReg rd (s.memRead (s.effectiveAddress rs1 imm))

/-- `sw rs2, imm(rs1)` (R156). -/
def execSw (rs2 rs1 : RegIdx) (imm : BitVec 12) (s : State) : Host.Outcome State Fault Refusal :=
  match s.accessFault .store (s.effectiveAddress rs1 imm) with
  | some f => raise f
  | none => (s.memWrite (s.effectiveAddress rs1 imm) (s.reg rs2)).commit

end Sys2Proof.Machine
end

