-- ==== Sys2Proof/Machine/Fetch.lean ====
section
/-! DEFINITION. Fetching and decoding the instruction at pc (spec/10_state.md R40, 20_memory.md R53, R60, R61), the halt test
(R41), and placing an instruction where the next step fetches. -/

namespace Sys2Proof.Machine

/-- The halt test, on all 32 bits (R41). -/
def State.isHalted (s : State) : Bool := decide (s.pc = s.haltPc)

/-- The fetch of R40: alignment, range, then the little-endian word at pc. -/
def State.fetch (s : State) : Except Fault Word :=
  match s.accessFault .fetch s.pc with
  | some f => .error f
  | none => .ok (s.memRead s.pc)

/-- Fetch and Decode of R40: a word that matches no row is IllegalInstruction. -/
def State.fetchDecode (s : State) : Except Fault Instr :=
  match s.fetch with
  | .error f => .error f
  | .ok w =>
    match decode w with
    | some i => .ok i
    | none => .error (.illegalInstruction s.pc w)

/-- The address with bits 1:0 cleared. -/
def alignDown4 (a : Word) : Word := a &&& 0xFFFFFFFC#32

/-- The machine ready to fetch at its pc: pc aligned, the image long enough to hold the word there, pc not the halt point. Where pc
is already aligned, in the image and not HALT_PC, nothing changes (log entry 14). -/
def State.readyToFetch (s : State) : State :=
  { s with
    pc := alignDown4 s.pc
    memSize := max s.memSize ((alignDown4 s.pc).toNat + 4)
    haltPc := if s.haltPc = alignDown4 s.pc then alignDown4 s.pc + 4#32 else s.haltPc }

end Sys2Proof.Machine
end

