-- ==== Sys2Proof/Machine/Step.lean ====
section
/-! DEFINITION. The architectural step (spec/10_state.md R40, R41). -/

namespace Sys2Proof.Machine

/-- One architectural step (R40). A halted state (R41) takes no step: the machine stays as it is (DESIGN CHOICE, safe: log entry 2).
The hidden state of the cycle level is neither read nor changed (R42; log entry 1). -/
def step (s : State) : Host.Outcome State Fault Refusal :=
  if s.isHalted then .next s
  else
    match s.fetchDecode with
    | .error f => raise f
    | .ok i => exec i s

/-- `s` with the instruction whose bits are `w` stored where the next step fetches it (log entry 14). -/
def State.withFetchWord (s : State) (nbits w : Nat) : State :=
  s.readyToFetch.memWrite s.readyToFetch.pc (BitVec.ofNat 32 (w % 2 ^ nbits))

end Sys2Proof.Machine
end

