-- ==== Sys2Proof/Machine/Asm.lean ====
section
/-! DEFINITION. The written form of an instruction and its operand ranges (spec/30_encoding.md R110 to R113). The assembler itself,
its directives and its labels are out of scope (00_scope.md R6). -/

namespace Sys2Proof.Machine

/-- A written 12-bit immediate: a signed integer, or the field itself (R111). -/
inductive AsmImm where
  | signed (v : Int)
  | field (v : Nat)
deriving DecidableEq, Repr

/-- An instruction as written, its operands plain numbers in the order of R111. -/
inductive AsmInstr where
  | add (rd rs1 rs2 : Nat)
  | and (rd rs1 rs2 : Nat)
  | sll (rd rs1 rs2 : Nat)
  | srl (rd rs1 rs2 : Nat)
  | addi (rd rs1 : Nat) (imm : AsmImm)
  | bne (rs1 rs2 : Nat) (off : Int)
  | lw (rd : Nat) (imm : AsmImm) (rs1 : Nat)
  | sw (rs2 : Nat) (imm : AsmImm) (rs1 : Nat)
  | csrrw (rd csr rs1 : Nat)
  | csrrwi (rd csr uimm : Nat)
  | xcelrd (rd xr : Nat)
  | xcelwr (xr rs1 : Nat)
deriving DecidableEq, Repr

/-- A number that fits an unsigned field of `n` bits; any other has no encoding (R112). -/
def unsignedField (n v : Nat) : Option (BitVec n) := if v < 2 ^ n then some (BitVec.ofNat n v) else none

/-- The 12-bit field of a written immediate (R111, R112). -/
def AsmImm.toField : AsmImm → Option (BitVec 12)
  | .signed v => if -2048 ≤ v ∧ v ≤ 2047 then some (BitVec.ofInt 12 v) else none
  | .field v => unsignedField 12 v

/-- The 13-bit offset of a written branch: even, -4096 to 4094 (R111, R112). -/
def branchField (v : Int) : Option (BitVec 13) :=
  if -4096 ≤ v ∧ v ≤ 4094 ∧ v % 2 = 0 then some (BitVec.ofInt 13 v) else none

/-- The instruction a written form stands for; `none` where an operand is out of range (R112). -/
def AsmInstr.assemble : AsmInstr → Option Instr
  | .add rd rs1 rs2 => do return .add (← unsignedField 5 rd) (← unsignedField 5 rs1) (← unsignedField 5 rs2)
  | .and rd rs1 rs2 => do return .and (← unsignedField 5 rd) (← unsignedField 5 rs1) (← unsignedField 5 rs2)
  | .sll rd rs1 rs2 => do return .sll (← unsignedField 5 rd) (← unsignedField 5 rs1) (← unsignedField 5 rs2)
  | .srl rd rs1 rs2 => do return .srl (← unsignedField 5 rd) (← unsignedField 5 rs1) (← unsignedField 5 rs2)
  | .addi rd rs1 imm => do return .addi (← unsignedField 5 rd) (← unsignedField 5 rs1) (← imm.toField)
  | .bne rs1 rs2 off => do return .bne (← unsignedField 5 rs1) (← unsignedField 5 rs2) (← branchField off)
  | .lw rd imm rs1 => do return .lw (← unsignedField 5 rd) (← unsignedField 5 rs1) (← imm.toField)
  | .sw rs2 imm rs1 => do return .sw (← unsignedField 5 rs2) (← unsignedField 5 rs1) (← imm.toField)
  | .csrrw rd csr rs1 => do return .csrrw (← unsignedField 5 rd) (← unsignedField 12 csr) (← unsignedField 5 rs1)
  | .csrrwi rd csr uimm => do return .csrrwi (← unsignedField 5 rd) (← unsignedField 12 csr) (← unsignedField 5 uimm)
  | .xcelrd rd xr => do return .xcelrd (← unsignedField 5 rd) (← unsignedField 5 xr)
  | .xcelwr xr rs1 => do return .xcelwr (← unsignedField 5 xr) (← unsignedField 5 rs1)

/-- The number of a register, CSR or accelerator register, or an unsigned immediate, in decimal. -/
def natText {n : Nat} (v : BitVec n) : String := toString v.toNat

/-- A signed immediate in decimal. -/
def intText {n : Nat} (v : BitVec n) : String := toString v.toInt

/-- `x0` to `x31` (R110; 10_state.md R23). -/
def regText (i : RegIdx) : String := "x" ++ natText i

/-- A memory operand, `offset(base)` (R110). -/
def memText (imm : BitVec 12) (base : RegIdx) : String := intText imm ++ "(" ++ regText base ++ ")"

/-- The written form of an instruction (R110, R111; log entry 18). -/
def asmText : Instr → String
  | .add rd rs1 rs2 => "add " ++ regText rd ++ "," ++ regText rs1 ++ "," ++ regText rs2
  | .and rd rs1 rs2 => "and " ++ regText rd ++ "," ++ regText rs1 ++ "," ++ regText rs2
  | .sll rd rs1 rs2 => "sll " ++ regText rd ++ "," ++ regText rs1 ++ "," ++ regText rs2
  | .srl rd rs1 rs2 => "srl " ++ regText rd ++ "," ++ regText rs1 ++ "," ++ regText rs2
  | .addi rd rs1 imm => "addi " ++ regText rd ++ "," ++ regText rs1 ++ "," ++ intText imm
  | .bne rs1 rs2 off => "bne " ++ regText rs1 ++ "," ++ regText rs2 ++ "," ++ intText off
  | .lw rd rs1 imm => "lw " ++ regText rd ++ "," ++ memText imm rs1
  | .sw rs2 rs1 imm => "sw " ++ regText rs2 ++ "," ++ memText imm rs1
  | .csrrw rd csr rs1 => "csrrw " ++ regText rd ++ "," ++ natText csr ++ "," ++ regText rs1
  | .csrrwi rd csr uimm => "csrrwi " ++ regText rd ++ "," ++ natText csr ++ "," ++ natText uimm
  | .xcelrd rd xr => "xcelrd " ++ regText rd ++ ",xr" ++ natText xr
  | .xcelwr xr rs1 => "xcelwr xr" ++ natText xr ++ "," ++ regText rs1

end Sys2Proof.Machine
end

