-- ==== Sys2Proof/Machine/Control.lean ====
section
/-! DEFINITION. The decoder block and the control table (spec/40_decode_alu.md R120 to R124, R133), and the execution engine driven
by them: a second, block-level description of what `exec` says per instruction. -/

namespace Sys2Proof

/-- The 4-bit code of a tag (R120). -/
def Tag.code : Tag → BitVec 4
  | .add => 0#4
  | .and => 1#4
  | .sll => 2#4
  | .srl => 3#4
  | .bne => 4#4
  | .addi => 5#4
  | .lw => 6#4
  | .sw => 7#4
  | .csrrw => 8#4
  | .xcel => 9#4

end Sys2Proof

namespace Sys2Proof.Machine

/-- The outputs of the decoder block (R121). -/
structure DecoderOut where
  illegal : Bool
  tag     : Tag
  rd      : RegIdx
  rs1     : RegIdx
  rs2     : RegIdx
  imm     : Word
  csr     : CsrIdx
  csrImm  : Bool
  xr      : XcelIdx
  xdir    : Bool
deriving DecidableEq, Repr

/-- The `tag` output (R121); for an illegal word it is a free value (log entry 13). -/
def tagOut (w : Word) : Tag :=
  match decode w with
  | some i => i.tag
  | none => Config.freeTag w

/-- The `csr_imm` output: 1 for csrrwi (R121). -/
def csrImmOut (w : Word) : Bool :=
  match decode w with
  | some (.csrrwi _ _ _) => true
  | _ => false

/-- The `imm` output (R122). -/
def immOut (w : Word) : Word :=
  match tagOut w with
  | .addi | .lw => immOperand (fieldImmI w)
  | .sw => immOperand (fieldImmS w)
  | .bne => offsetOperand (fieldImmB w)
  | .csrrw => if csrImmOut w then uimmOperand (fieldUimm w) else 0x00000000#32
  | .add | .and | .sll | .srl | .xcel => 0x00000000#32

/-- The `xdir` output: inst[12] for tag XCEL, else 0 (R121). -/
def xdirOut (w : Word) : Bool := decide (tagOut w = .xcel) && w.getLsbD 12

/-- The decoder block: purely combinational (R121). -/
def decoderBlock (w : Word) : DecoderOut where
  illegal := (decode w).isNone
  tag     := tagOut w
  rd      := fieldRd w
  rs1     := fieldRs1 w
  rs2     := fieldRs2 w
  imm     := immOut w
  csr     := fieldCsr w
  csrImm  := csrImmOut w
  xr      := fieldXr w
  xdir    := xdirOut w

/-- ALU operand b: a register or the immediate (R123). -/
inductive AluB where
  | rs2 | imm
deriving DecidableEq, Repr

/-- The write-back select of port W0 (R133). -/
inductive WbSel where
  | none | alu | mem | csr
deriving DecidableEq, Repr

/-- The port a request is steered to (45_xcel.md R190). -/
inductive PortSel where
  | none | memory | accelerator
deriving DecidableEq, Repr

/-- A row of the control table (R123), for the operands of one decoded word. -/
structure Control where
  reads    : List RegIdx
  writes   : List RegIdx
  aluB     : AluB
  aluFn    : AluFn
  wbSel    : WbSel
  port     : PortSel
  reqWrite : Bool
  csrWe    : Bool
  branch   : Bool
deriving DecidableEq, Repr

/-- The control table (R123). Where a row leaves an ALU column empty the output is not used; the table then says `add`. -/
def controlOf (d : DecoderOut) : Control :=
  match d.tag with
  | .add =>
    { reads := [d.rs1, d.rs2], writes := [d.rd], aluB := .rs2, aluFn := .add, wbSel := .alu, port := .none,
      reqWrite := false, csrWe := false, branch := false }
  | .and =>
    { reads := [d.rs1, d.rs2], writes := [d.rd], aluB := .rs2, aluFn := .and, wbSel := .alu, port := .none,
      reqWrite := false, csrWe := false, branch := false }
  | .sll =>
    { reads := [d.rs1, d.rs2], writes := [d.rd], aluB := .rs2, aluFn := .sll, wbSel := .alu, port := .none,
      reqWrite := false, csrWe := false, branch := false }
  | .srl =>
    { reads := [d.rs1, d.rs2], writes := [d.rd], aluB := .rs2, aluFn := .srl, wbSel := .alu, port := .none,
      reqWrite := false, csrWe := false, branch := false }
  | .addi =>
    { reads := [d.rs1], writes := [d.rd], aluB := .imm, aluFn := .add, wbSel := .alu, port := .none,
      reqWrite := false, csrWe := false, branch := false }
  | .bne =>
    { reads := [d.rs1, d.rs2], writes := [], aluB := .rs2, aluFn := .add, wbSel := .none, port := .none,
      reqWrite := false, csrWe := false, branch := true }
  | .lw =>
    { reads := [d.rs1], writes := [d.rd], aluB := .imm, aluFn := .add, wbSel := .mem, port := .memory,
      reqWrite := false, csrWe := false, branch := false }
  | .sw =>
    { reads := [d.rs1, d.rs2], writes := [], aluB := .imm, aluFn := .add, wbSel := .none, port := .memory,
      reqWrite := true, csrWe := false, branch := false }
  | .csrrw =>
    { reads := if d.csrImm then [] else [d.rs1], writes := [d.rd], aluB := .rs2, aluFn := .add, wbSel := .csr,
      port := .none, reqWrite := false, csrWe := true, branch := false }
  | .xcel =>
    { reads := if d.xdir then [d.rs1] else [], writes := if d.xdir then [] else [d.rd], aluB := .rs2, aluFn := .add,
      wbSel := .none, port := .accelerator, reqWrite := d.xdir, csrWe := false, branch := false }

/-- The datum of write port W0 (R133), or none when the port is not enabled; `y` is the ALU output, which is the address of a
memory request. -/
def writeBack (c : Control) (d : DecoderOut) (s : State) (y : Word) : Option Word :=
  match c.wbSel with
  | .none => none
  | .alu => some y
  | .mem => some (s.memRead y)
  | .csr => some (s.csrRead d.csr)

/-- The next pc (R123, R132). -/
def nextPc (c : Control) (d : DecoderOut) (s : State) (ne : Bool) : Word :=
  if c.branch && ne then s.pc + d.imm else s.pcPlus4

/-- A register write that may be disabled. -/
def State.setReg? (s : State) (rd : RegIdx) : Option Word → State
  | none => s
  | some v => s.setReg rd v

/-- What a memory request of the engine may fault with: the check precedes the request (20_memory.md R59, R61). -/
def engineFault (c : Control) (s : State) (y : Word) : Option Fault :=
  match c.port with
  | .memory => s.accessFault (if c.reqWrite then .store else .load) y
  | .none | .accelerator => none

/-- The request of the engine, performed at once: a memory write, a CSR write, an accelerator write, or nothing. -/
def engineWrites (c : Control) (d : DecoderOut) (s : State) (a y : Word) : State :=
  match c.port with
  | .memory => if c.reqWrite then s.memWrite y (s.reg d.rs2) else s
  | .accelerator => if c.reqWrite then s.xcelWrite d.xr a else s
  | .none => if c.csrWe then s.csrWrite d.csr (if d.csrImm then d.imm else a) else s

/-- The datum of write port W1: the accelerator's answer, written after the engine's own writes (R133). -/
def engineXcelRead (c : Control) (d : DecoderOut) (s : State) : State :=
  match c.port with
  | .accelerator => if c.reqWrite then s else (s.xcelRead d.xr).2.setReg d.rd (s.xcelRead d.xr).1
  | .none | .memory => s

/-- The execution engine: what the block does with a decoded word, read from the decoder's outputs and the control table alone
(R4, R123, R124). -/
def engine (d : DecoderOut) (w : Word) (s : State) : Host.Outcome State Fault Refusal :=
  if d.illegal then raise (.illegalInstruction s.pc w)
  else
    let c := controlOf d
    let a := s.reg d.rs1
    let b := match c.aluB with
      | .rs2 => s.reg d.rs2
      | .imm => d.imm
    let y := aluY c.aluFn a b
    match engineFault c s y with
    | some f => raise f
    | none =>
      .next ((engineXcelRead c d ((engineWrites c d s a y).setReg? d.rd (writeBack c d s y))).setPc
        (nextPc c d s (aluNe a b)))

end Sys2Proof.Machine
end

