-- ==== Sys2Proof/Machine/Messages.lean ====
section
/-! DEFINITION. The messages of the two ports and their bit layouts (spec/20_memory.md R66, R67; 45_xcel.md R184, R185). -/

namespace Sys2Proof.Machine

/-- 0 read, 1 write. -/
def ReqKind.bit : ReqKind → BitVec 1
  | .read => 0#1
  | .write => 1#1

def ReqKind.ofBit (b : BitVec 1) : ReqKind := if b = 1#1 then .write else .read

/-- `tag = issue_ctr mod 256` (10_state.md R36, D16). -/
def tagOf (issueCtr : Nat) : ReqTag := BitVec.ofNat 8 issueCtr

/-- The byte count of every access, 0b100 (R66). -/
def accessSize : BitVec 3 := 4#3

/-- A request of the Memory Port, 76 bits (R66). -/
structure MemReqMsg where
  kind : ReqKind
  tag  : ReqTag
  addr : Word
  size : BitVec 3
  data : Word
deriving DecidableEq, Repr

def MemReqMsg.pack (m : MemReqMsg) : BitVec 76 :=
  place 76 75 m.kind.bit ||| place 76 67 m.tag ||| place 76 35 m.addr ||| place 76 32 m.size ||| place 76 0 m.data

def MemReqMsg.unpack (b : BitVec 76) : MemReqMsg where
  kind := .ofBit (b.extractLsb' 75 1)
  tag  := b.extractLsb' 67 8
  addr := b.extractLsb' 35 32
  size := b.extractLsb' 32 3
  data := b.extractLsb' 0 32

/-- A response of the Memory Port, 41 bits (R67). -/
structure MemRespMsg where
  kind : ReqKind
  tag  : ReqTag
  data : Word
deriving DecidableEq, Repr

def MemRespMsg.pack (m : MemRespMsg) : BitVec 41 :=
  place 41 40 m.kind.bit ||| place 41 32 m.tag ||| place 41 0 m.data

def MemRespMsg.unpack (b : BitVec 41) : MemRespMsg where
  kind := .ofBit (b.extractLsb' 40 1)
  tag  := b.extractLsb' 32 8
  data := b.extractLsb' 0 32

/-- A request of the Accelerator Port, 46 bits (R184). -/
structure XcelReqMsg where
  dir   : ReqKind
  tag   : ReqTag
  raddr : XcelIdx
  data  : Word
deriving DecidableEq, Repr

def XcelReqMsg.pack (m : XcelReqMsg) : BitVec 46 :=
  place 46 45 m.dir.bit ||| place 46 37 m.tag ||| place 46 32 m.raddr ||| place 46 0 m.data

def XcelReqMsg.unpack (b : BitVec 46) : XcelReqMsg where
  dir   := .ofBit (b.extractLsb' 45 1)
  tag   := b.extractLsb' 37 8
  raddr := b.extractLsb' 32 5
  data  := b.extractLsb' 0 32

/-- A response of the Accelerator Port, 41 bits (R185). -/
structure XcelRespMsg where
  dir  : ReqKind
  tag  : ReqTag
  data : Word
deriving DecidableEq, Repr

def XcelRespMsg.pack (m : XcelRespMsg) : BitVec 41 :=
  place 41 40 m.dir.bit ||| place 41 32 m.tag ||| place 41 0 m.data

def XcelRespMsg.unpack (b : BitVec 41) : XcelRespMsg where
  dir  := .ofBit (b.extractLsb' 40 1)
  tag  := b.extractLsb' 32 8
  data := b.extractLsb' 0 32

end Sys2Proof.Machine
end

