-- ==== Sys2Proof/Machine/Ports.lean ====
section
/-! DEFINITION. The two ports of the cycle level as functions of the state at the start of a cycle: the scoreboard test
(spec/70_reset_and_hazards.md R236), the fault the core raises, the two requesters of the Memory Port and their arbiter
(20_memory.md R75), the accelerator request (45_xcel.md R190), and the handshake signals (20_memory.md R65, 45_xcel.md R183). -/

namespace Sys2Proof.Machine

/-! ### Scoreboard (10_state.md R37) -/

/-- `busy[r]`; `busy[0]` reads 0. -/
def State.isBusy (s : State) (r : RegIdx) : Bool := !decide (r = 0#5) && s.busy[r.toNat]'r.isLt

/-- Set or clear `busy[r]`; there is no `busy[0]`. -/
def State.setBusy (s : State) (r : RegIdx) (b : Bool) : State :=
  if r = 0#5 then s else { s with busy := s.busy.set r.toNat b r.isLt }

/-- The stall rule: some register the instruction reads or writes is busy (R236). -/
def State.stalls (s : State) (i : Instr) : Bool := (i.reads ++ i.writes).any s.isBusy

/-! ### What the core does this cycle -/

/-- HALTED or FAULTED: no tick changes anything (R253, R254). -/
def State.stopped (s : State) : Bool := decide (s.phase = .halted) || decide (s.phase = .faulted)

/-- The fetch unit has a request to make: FETCH_ISSUE, no hold left, pc not HALT_PC (R243 to R245). -/
def State.wantsFetch (s : State) : Bool := decide (s.phase = .fetchIssue) && decide (s.holdCtr = 0) && !s.isHalted

/-- The instruction that acts in this EXECUTE cycle: decoded and not stalled (R247). -/
def State.acting (s : State) : Option Instr :=
  if s.phase = .execute then
    match decode s.ir with
    | some i => if s.stalls i then none else some i
    | none => none
  else none

/-- A request to the Memory Port before the arbiter stamps it; `rd` is the destination register of a load. -/
structure MemRequest where
  kind : ReqKind
  addr : Word
  data : Word
  rd   : RegIdx
deriving DecidableEq, Repr

/-- What the access of a data request is called in a fault record. -/
def MemRequest.access (r : MemRequest) : Access :=
  match r.kind with
  | .read => .load
  | .write => .store

/-- The request of `lw` or `sw` (R250, R190); other instructions have none. -/
def State.dataRequest (s : State) : Instr → Option MemRequest
  | .lw rd rs1 imm => some { kind := .read, addr := s.effectiveAddress rs1 imm, data := 0x00000000#32, rd := rd }
  | .sw rs2 rs1 imm => some { kind := .write, addr := s.effectiveAddress rs1 imm, data := s.reg rs2, rd := 0#5 }
  | .add _ _ _ | .and _ _ _ | .sll _ _ _ | .srl _ _ _ | .addi _ _ _ | .bne _ _ _ | .csrrw _ _ _ | .csrrwi _ _ _
  | .xcelrd _ _ | .xcelwr _ _ => none

/-- The fault the core raises this cycle (R245, R247, R250), if any: the checks are made in the first cycle of a request. -/
def State.coreFault (s : State) : Option Fault :=
  match s.phase with
  | .fetchIssue => if s.wantsFetch && !s.stallDrawn then s.accessFault .fetch s.pc else none
  | .execute =>
    match decode s.ir with
    | none => some (.illegalInstruction s.pc s.ir)
    | some i =>
      if s.stalls i || s.stallDrawn then none
      else
        match s.dataRequest i with
        | some r => s.accessFault r.access r.addr
        | none => none
  | .fetchWait | .memWait | .halted | .faulted => none

/-! ### Memory Port (20_memory.md R64 to R77) -/

/-- The fetch unit's request: a read of 4 bytes at pc (R75). -/
def State.fetchRequest (s : State) : Option MemRequest :=
  if s.wantsFetch && s.coreFault.isNone then some { kind := .read, addr := s.pc, data := 0x00000000#32, rd := 0#5 } else none

/-- The load/store unit's request (R75). -/
def State.loadStoreRequest (s : State) : Option MemRequest :=
  if s.coreFault.isNone then
    match s.acting with
    | some i => s.dataRequest i
    | none => none
  else none

/-- The arbiter (R75): none while a record is in flight, else the load/store unit before the fetch unit. -/
def State.arbiter (s : State) : Option MemRequest :=
  if s.mq.length < Config.memDepth then
    match s.loadStoreRequest with
    | some r => some r
    | none => s.fetchRequest
  else none

def State.memreqVal (s : State) : Bool := s.arbiter.isSome

/-- The message on the request channel; none while `memreq_val` is 0 (DESIGN CHOICE, log entry 19). -/
def State.memreqMsg (s : State) : Option MemReqMsg :=
  s.arbiter.map fun r => { kind := r.kind, tag := tagOf s.issueCtr, addr := r.addr, size := accessSize, data := r.data }

/-- The memory model takes a presented request: not in the one cycle its stall draw costs (R68). DESIGN CHOICE (log entry 22): the
spec gives `memreq_rdy` for a presented request only (R65, R68); in a cycle that presents none it follows the tick's stall bit all
the same, and no transfer happens whatever it is. -/
def State.memreqRdy (s : State) (stall : Bool) : Bool := if s.stallDrawn then !s.stallLeft else !stall

/-- A response is available: the latency of the oldest record has elapsed (R69, R71). -/
def State.memrespVal (s : State) : Bool :=
  match s.mq with
  | r :: _ => decide (r.readyCycle ≤ s.cyc)
  | [] => false

/-- The core waits for a response in FETCH_WAIT and MEM_WAIT (R71). -/
def State.memrespRdy (s : State) : Bool := decide (s.phase = .fetchWait) || decide (s.phase = .memWait)

/-- The datum of the response to a record: the word at its address as the cycle starts, 0 for an acknowledgement (R67, R72). -/
def State.memRespData (s : State) (r : MemRecord) : Word :=
  match r.kind with
  | .read => s.memRead r.addr
  | .write => 0x00000000#32

/-- The message on the response channel (R67); none while `memresp_val` is 0 (DESIGN CHOICE, log entry 19). -/
def State.memrespMsg (s : State) : Option MemRespMsg :=
  match s.mq with
  | r :: _ => if s.memrespVal then some { kind := r.kind, tag := r.tag, data := s.memRespData r } else none
  | [] => none

/-! ### Accelerator Port (45_xcel.md R183 to R190) -/

/-- A request to the Accelerator Port before it is stamped. -/
structure XcelRequest where
  kind : ReqKind
  addr : XcelIdx
  data : Word
  rd   : RegIdx
deriving DecidableEq, Repr

/-- The request of `xcelrd` or `xcelwr` (R190, R249); other instructions have none. -/
def State.accelRequest (s : State) : Instr → Option XcelRequest
  | .xcelrd rd xr => some { kind := .read, addr := xr, data := 0x00000000#32, rd := rd }
  | .xcelwr xr rs1 => some { kind := .write, addr := xr, data := s.reg rs1, rd := 0#5 }
  | .add _ _ _ | .and _ _ _ | .sll _ _ _ | .srl _ _ _ | .addi _ _ _ | .bne _ _ _ | .csrrw _ _ _ | .csrrwi _ _ _
  | .lw _ _ _ | .sw _ _ _ => none

/-- The request that the instruction acting this cycle has to make on the Accelerator Port, be there room for it or not. -/
def State.xcelRequest (s : State) : Option XcelRequest :=
  match s.acting with
  | some i => s.accelRequest i
  | none => none

/-- `xq` holds fewer than XCEL_DEPTH records (R183). -/
def State.xcelreqRdy (s : State) : Bool := decide (s.xq.length < s.cfg.xcelDepth)

/-- The request presented on the Accelerator Port this cycle, which is the cycle it is accepted in: while `xq` is full the instruction
waits in EXECUTE and presents nothing (R186; 70_reset_and_hazards.md R237, R249). -/
def State.xcelPresented (s : State) : Option XcelRequest := if s.xcelreqRdy then s.xcelRequest else none

def State.xcelreqVal (s : State) : Bool := s.xcelPresented.isSome

/-- The message on the request channel (R184); none while `xcelreq_val` is 0 (DESIGN CHOICE, log entry 19). -/
def State.xcelreqMsg (s : State) : Option XcelReqMsg :=
  s.xcelPresented.map fun r => { dir := r.kind, tag := tagOf s.issueCtr, raddr := r.addr, data := r.data }

/-- The accelerator record delivered this cycle: the head of `xq`, once its latency has elapsed (R188). -/
def State.xcelDue (s : State) : Option XcelRecord :=
  match s.xq with
  | r :: _ => if r.readyCycle ≤ s.cyc then some r else none
  | [] => none

def State.xcelrespVal (s : State) : Bool := s.xcelDue.isSome

/-- Always 1 (R183). -/
def State.xcelrespRdy (_ : State) : Bool := true

/-- The datum of the response to a record: the accelerator's answer, 0 for an acknowledgement (R185). -/
def State.xcelRespData (s : State) (r : XcelRecord) : Word :=
  match r.kind with
  | .read => (s.xcelRead r.addr).1
  | .write => 0x00000000#32

/-- The message on the response channel (R185); none while `xcelresp_val` is 0: the spec gives it no value then (DESIGN CHOICE, log
entry 19). -/
def State.xcelrespMsg (s : State) : Option XcelRespMsg :=
  s.xcelDue.map fun r => { dir := r.kind, tag := r.tag, data := s.xcelRespData r }

end Sys2Proof.Machine
end

