-- ==== Sys2Proof/Machine/Tick.lean ====
section
/-! DEFINITION. The cycle-level machine: one tick (spec/70_reset_and_hazards.md R240 to R258). -/

namespace Sys2Proof.Machine

/-! ### The draws of a tick (R240) -/

/-- The two free inputs of a tick: the stall bit, used in a cycle where a memory request is first presented, and the accelerator
latency, used in a cycle where an accelerator request issues. -/
structure Draws where
  stall   : Bool
  latency : Nat
deriving DecidableEq, Repr

/-- The draws the configuration admits (20_memory.md R68, 45_xcel.md R187). -/
def Draws.admitted (d : Draws) (c : RunConfig) : Bool :=
  decide (1 ≤ d.latency) && (!c.stallProbability.isZero || !d.stall) && (!c.stallProbability.isOne || d.stall)

/-- The draws a seeded run makes (20_memory.md R78): free values of Config at the seed, the probability and the issue counter, within
what the configuration admits. DESIGN CHOICE (log entry 11): the spec leaves open what a schedule depends on beside the seed (R79). -/
def State.seededDraws (s : State) : Draws where
  stall :=
    if s.cfg.stallProbability.isZero then false
    else if s.cfg.stallProbability.isOne then true
    else Config.stallBit s.cfg.seed s.cfg.stallProbability s.issueCtr
  latency := Config.xcelDelay s.cfg.seed s.issueCtr + 1

/-! ### Memory model -/

/-- The in-flight record of an accepted memory request (20_memory.md R70): `issue_cycle` is the first cycle of presentation, one
cycle ago when the request was stalled (log entry 17). -/
def State.memRecord (s : State) (r : MemRequest) : MemRecord where
  kind       := r.kind
  addr       := r.addr
  data       := r.data
  issueCycle := if s.stallDrawn then s.cyc - 1 else s.cyc
  tag        := tagOf s.issueCtr
  rd         := r.rd
  readyCycle := s.cyc + s.cfg.memoryLatency

/-- A cycle in which the arbiter may present a request: the memory model stalls it or accepts it, and acceptance moves the core to
`waiting` (R245, R250; 20_memory.md R68). -/
def State.presentMemory (s : State) (d : Draws) (waiting : Phase) : State :=
  match s.arbiter with
  | none => s
  | some r =>
    if s.memreqRdy d.stall then
      { s with
        mq := s.mq ++ [s.memRecord r]
        issueCtr := s.issueCtr + 1
        stallDrawn := false
        stallLeft := false
        phase := waiting }
    else { s with stallDrawn := true, stallLeft := false }

/-! ### The core's action for its phase (R243 to R251) -/

/-- FETCH_ISSUE: hold, halt or request (R243 to R245). -/
def State.fetchIssueAction (s : State) (d : Draws) : State :=
  if 0 < s.holdCtr then { s with holdCtr := s.holdCtr - 1 }
  else if s.isHalted then
    if s.xq.isEmpty then { s with phase := .halted } else s
  else s.presentMemory d .fetchWait

/-- FETCH_WAIT (R246). -/
def State.fetchWaitAction (s : State) : State :=
  match s.mq with
  | r :: rest =>
    if s.memrespVal then { s with ir := s.memRespData r, mq := rest, phase := .execute } else s
  | [] => s

/-- The in-flight record of an accelerator request issued this cycle (R249). -/
def State.xcelRecord (s : State) (d : Draws) (r : XcelRequest) : XcelRecord where
  kind       := r.kind
  addr       := r.addr
  data       := r.data
  issueCycle := s.cyc
  tag        := tagOf s.issueCtr
  rd         := r.rd
  readyCycle := s.cyc + d.latency

/-- EXECUTE, tag XCEL (R249): wait while `xq` is full (R237), else issue and go on. -/
def State.issueXcel (s : State) (d : Draws) : State :=
  match s.xcelPresented with
  | none => s
  | some r =>
    { (s.setBusy r.rd true).setPc s.pcPlus4 with
      xq := s.xq ++ [s.xcelRecord d r]
      issueCtr := s.issueCtr + 1
      phase := .fetchIssue }

/-- EXECUTE, the tags that commit in one cycle (R248). -/
def State.executeAtOnce (s : State) (i : Instr) : State :=
  match exec i s with
  | .next t => { t with phase := .fetchIssue }
  | .fault f => s.enterFault f
  | .refused _ => s

/-- EXECUTE (R247 to R250), once the checks of `coreFault` have passed. -/
def State.executeAction (s : State) (d : Draws) : State :=
  match s.acting with
  | none => s
  | some i =>
    match i.tag with
    | .lw | .sw => s.presentMemory d .memWait
    | .xcel => s.issueXcel d
    | .add | .and | .sll | .srl | .bne | .addi | .csrrw => s.executeAtOnce i

/-- The effect of a delivered memory response on the registers or on memory (R251). -/
def State.memDeliver (s : State) (r : MemRecord) : State :=
  match r.kind with
  | .read => s.setReg r.rd (s.memRespData r)
  | .write => s.memWrite r.addr r.data

/-- MEM_WAIT: the commit of `lw` and `sw` (R251). -/
def State.memWaitAction (s : State) : State :=
  match s.mq with
  | r :: rest =>
    if s.memrespVal then { (s.memDeliver r).setPc s.pcPlus4 with mq := rest, phase := .fetchIssue } else s
  | [] => s

/-- The core's action for its phase (R242 a). -/
def State.coreAction (s : State) (d : Draws) : State :=
  match s.phase with
  | .fetchIssue => s.fetchIssueAction d
  | .fetchWait => s.fetchWaitAction
  | .execute => s.executeAction d
  | .memWait => s.memWaitAction
  | .halted | .faulted => s

/-! ### Accelerator delivery (R252) -/

/-- The accelerator performs a record; a read's datum goes to `x[rd]` through port W1 (45_xcel.md R191). -/
def State.performXcel (s : State) (r : XcelRecord) : State :=
  match r.kind with
  | .read => (s.xcelRead r.addr).2.setReg r.rd (s.xcelRead r.addr).1
  | .write => s.xcelWrite r.addr r.data

/-- The commit of the delivery of `r`, the head of `xq`: it is performed, the busy bit of its destination is cleared, and it leaves
`xq` (10_state.md R37). -/
def State.deliverHead (t : State) (r : XcelRecord) : State :=
  { (t.performXcel r).setBusy r.rd false with xq := t.xq.tail }

/-- The delivery computed from the state `s` at the start of the cycle, committed together with the core's action, whose result is
`t`. The core's action leaves the accelerator and the head of `xq` alone; were both write ports to carry one register, W1 would
be the one that lands (log entry 15). -/
def State.deliverXcel (s t : State) : State :=
  match s.xcelDue with
  | none => t
  | some r => t.deliverHead r

/-! ### One tick -/

/-- One tick (R242): in a cycle that raises a fault only the fault entry is committed (R254; log entry 16). -/
def State.tick (s : State) (d : Draws) : State :=
  if s.stopped then s
  else
    match s.coreFault with
    | some f => s.enterFault f
    | none => { s.deliverXcel (s.coreAction d) with cyc := s.cyc + 1 }

/-- One tick of a seeded run (20_memory.md R78). -/
def State.seededTick (s : State) : State := s.tick s.seededDraws

/-- `n` ticks, the draws of a tick being those of its cycle. -/
def State.ticks (draw : Nat → Draws) : Nat → State → State
  | 0, s => s
  | n + 1, s => State.ticks draw n (s.tick (draw s.cyc))

/-! ### Timing and progress -/

/-- Cycles of an instruction, from its first FETCH_ISSUE cycle to that of the next (R257): `sf`, `sd` the stall draws of fetch and
data request, `h` the cycles under R236, `q` those under R237. -/
def instrCycles (i : Instr) (latency sf sd h q : Nat) : Nat :=
  match i.tag with
  | .add | .and | .sll | .srl | .bne | .addi | .csrrw => (1 + sf + latency) + h + 1
  | .lw | .sw => (1 + sf + latency) + h + (1 + sd) + latency
  | .xcel => (1 + sf + latency) + h + q + 1

/-- The source's progress of an in-flight request (R258). -/
inductive Progress where
  | issued | waiting | responseReceived | committed
deriving DecidableEq, Repr

/-- The stage, in this cycle, of the memory request of the current instruction, be it the fetch or that of `lw` or `sw` (R258): ISSUED
in the cycle that first presents it, then WAITING up to and with the cycle of its delivery, `s + L` cycles. -/
def State.memProgress (s : State) : Option Progress :=
  if s.memreqVal then some (if s.stallDrawn then .waiting else .issued)
  else if s.memrespRdy && !s.mq.isEmpty then some .waiting
  else none

/-- The stages that the tick ending this cycle brings the memory request to: RESPONSE_RECEIVED and COMMITTED are one tick, that of
R246 or R251 (R258). -/
def State.memTickProgress (s : State) : List Progress :=
  if s.memrespVal && s.memrespRdy then [.responseReceived, .committed] else []

/-- The stages, in this cycle, of the requests of the Accelerator Port, oldest first (R258): every record in `xq` is WAITING up to and
with the cycle of its delivery, at least `ℓ` cycles; the request that joins `xq` at this tick is ISSUED (R249). -/
def State.xcelProgress (s : State) : List Progress :=
  (s.xq.map fun _ => .waiting) ++ if s.xcelreqVal then [.issued] else []

/-- The stages that the tick ending this cycle brings the oldest record of `xq` to: RESPONSE_RECEIVED and COMMITTED are one tick, that
of R252 (R258); no record is delivered in a cycle that raises a fault, nor in a stopped core. -/
def State.xcelTickProgress (s : State) : List Progress :=
  if s.xcelrespVal && s.coreFault.isNone && !s.stopped then [.responseReceived, .committed] else []

end Sys2Proof.Machine
end

