-- ==== Sys2Proof/Machine/Harness.lean ====
section
/-! DEFINITION. What the harness does to the block (spec/70_reset_and_hazards.md R230 to R232, R262 to R267; 20_memory.md R83). -/

namespace Sys2Proof.Machine

/-! ### Load (R230, R262) -/

/-- Why `load` refuses. -/
inductive LoadRefusal where
  /-- The image is empty, no multiple of 4 long, or longer than 2^32 bytes (20_memory.md R50, U12). -/
  | imageLength
  /-- ENTRY is no multiple of 4 (00_scope.md R10, U12). -/
  | entryMisaligned
  /-- The configuration is outside its domain (R267, U13). -/
  | configuration
deriving DecidableEq, Repr

/-- The accelerator a run is given (45_xcel.md R178, R181). -/
inductive XcelChoice where
  | defaultStore | device
deriving DecidableEq, Repr

/-- The initial accelerator state (R43). -/
def XcelChoice.initial : XcelChoice → Xcel
  | .defaultStore => .store (Vector.replicate 32 0x00000000#32)
  | .device => .device []

/-- The bytes of an image from address `a` up, as the canonical list. -/
def memOfBytes : Nat → List Byte → List Host.Cell
  | _, [] => []
  | a, b :: bs => if b = unlistedByte then memOfBytes (a + 1) bs else (a, b) :: memOfBytes (a + 1) bs

/-- The length of an image is in the domain of MEM_SIZE (00_scope.md R10). -/
def validMemSize (n : Nat) : Bool :=
  decide (4 ≤ n) && decide (n ≤ 4294967296) && decide (n % 4 = 0)

/-- The state after `load` and before the first tick (R43). -/
def State.loaded (image : List Byte) (entry haltPc : Word) (cfg : RunConfig) (accel : XcelChoice) : State where
  x          := Vector.replicate 32 0x00000000#32
  pc         := entry
  csr        := []
  mem        := memOfBytes 0 image
  xcel       := accel.initial
  memSize    := image.length
  haltPc     := haltPc
  cfg        := cfg
  mq         := []
  xq         := []
  busy       := Vector.replicate 32 false
  phase      := .fetchIssue
  ir         := 0x00000000#32
  holdCtr    := cfg.sourceDelay
  issueCtr   := 0
  cyc        := 0
  fault      := none
  stallDrawn := false
  stallLeft  := false

/-- `load`: the only reset there is; it keeps nothing of an earlier run (R230); the order of its checks is log entry 21. -/
def State.load (image : List Byte) (entry haltPc : Word) (cfg : RunConfig) (accel : XcelChoice) :
    Except LoadRefusal State :=
  if !validMemSize image.length then .error .imageLength
  else if !aligned4 entry then .error .entryMisaligned
  else if !cfg.valid then .error .configuration
  else .ok (State.loaded image entry haltPc cfg accel)

/-- Before the first tick after `load` (20_memory.md R83). DESIGN CHOICE (log entry 23): R83 names the first tick alone, and a run made
of architectural steps has none, so this stays true, and pre-loading open, after any number of steps. -/
def State.beforeFirstTick (s : State) : Bool := decide (s.cyc = 0) && decide (s.phase = .fetchIssue)

/-- Pre-loading one byte, allowed between `load` and the first tick and inside the image (20_memory.md R83; log entry 21); `none` refuses. -/
def State.preload (s : State) (a : Nat) (b : Byte) : Option State :=
  if s.beforeFirstTick && decide (a < s.memSize) then some { s with mem := memSet s.mem a b } else none

/-! ### Running (R263 to R265) -/

/-- `done()` (R255). -/
def State.done (s : State) : Bool := decide (s.phase = .halted)

/-- How a run ends for the harness. -/
inductive RunOutcome where
  /-- `done()` was true; the state read after sink_delay more ticks (R265). -/
  | done (s : State)
  /-- A fault was raised; its record is all the harness reads (60_exceptions.md R210). -/
  | faulted (f : Fault)
  /-- `SimulationTimeout` (R264). -/
  | timeout
deriving DecidableEq, Repr

/-- At most `n` more ticks; the end tests come before the budget test (log entry 20). -/
def State.runFor (draw : Nat → Draws) : Nat → State → RunOutcome
  | n, s =>
    if s.done then .done s
    else
      match s.fault with
      | some f => .faulted f
      | none =>
        match n with
        | 0 => .timeout
        | m + 1 => State.runFor draw m (s.tick (draw s.cyc))

/-- A whole run: at most MAX_CYCLES ticks, then sink_delay more after `done()` (R264, R265). -/
def State.harnessRun (draw : Nat → Draws) (s : State) : RunOutcome :=
  match State.runFor draw s.cfg.maxCycles s with
  | .done t => .done (State.ticks draw t.cfg.sinkDelay t)
  | .faulted f => .faulted f
  | .timeout => .timeout

/-! ### End-state check (R266) -/

/-- What a program generator predicts of an end state: any of what the harness reads there, `x`, `mem`, `csr` and the accelerator
(R266). -/
structure Expected where
  regs      : List (RegIdx × Word)
  bytes     : List Host.Cell
  csrs      : List (CsrIdx × Word)
  xcelRegs  : List (XcelIdx × Word)
  xcelState : Option Xcel
deriving DecidableEq, Repr

/-- `ArchitecturalMismatch`: what disagrees, observed and expected. -/
inductive Mismatch where
  | register (i : RegIdx) (observed expected : Word)
  /-- `observed` is none where `mem` has no byte (log entry 24). -/
  | memory (a : Nat) (observed : Option Byte) (expected : Byte)
  | csr (k : CsrIdx) (observed expected : Word)
  | xcelRegister (r : XcelIdx) (observed expected : Word)
  | xcelState (observed expected : Xcel)
deriving DecidableEq, Repr

/-- `mem[a]` as the harness observes it: `mem` has no byte at or past MEM_SIZE (20_memory.md R50, 10_state.md R35), so none is
observed there. DESIGN CHOICE (log entry 24): the spec says nothing of a prediction for such an address; here it is never met. -/
def State.observedByte (s : State) (a : Nat) : Option Byte := if a < s.memSize then some (s.byte a) else none

/-- The predicted entries whose observed value is not the expected one, each reported with its index and both values. -/
def differing {ι α β : Type} [DecidableEq β] (observe : ι → β) (expect : α → β) (report : ι → β → α → Mismatch)
    (predicted : List (ι × α)) : List Mismatch :=
  predicted.filterMap fun p => if observe p.1 = expect p.2 then none else some (report p.1 (observe p.1) p.2)

/-- Every mismatch of an end state: registers, memory, CSRs, accelerator registers, accelerator state (log entry 20). An accelerator
register is observed as the datum a read of it would return; nothing is read for it. -/
def State.mismatches (s : State) (e : Expected) : List Mismatch :=
  differing s.reg id .register e.regs ++ differing s.observedByte some .memory e.bytes ++
    differing s.csrRead id .csr e.csrs ++ differing (fun r => (s.xcelRead r).1) id .xcelRegister e.xcelRegs ++
    differing (fun _ : Unit => s.xcel) id (fun _ => .xcelState) (e.xcelState.toList.map fun σ => ((), σ))

/-- What the harness reports of a run. -/
inductive Verdict where
  | pass
  /-- `ArchitecturalMismatch`, with every mismatch found. -/
  | architecturalMismatch (first : Mismatch) (rest : List Mismatch)
  | faulted (f : Fault)
  | timeout
deriving DecidableEq, Repr

/-- The end-state check: values are compared only when `done()` came; of a fault the record alone is reported, and a time-out is
distinct from an architectural error (R264, R266). -/
def RunOutcome.verdict (e : Expected) : RunOutcome → Verdict
  | .done s =>
    match s.mismatches e with
    | [] => .pass
    | m :: ms => .architecturalMismatch m ms
  | .faulted f => .faulted f
  | .timeout => .timeout

end Sys2Proof.Machine
end

