-- ==== Sys2Proof/Safety.lean ====
section
/-! DEFINITION. What statements are made of: the invariants of the two levels, the architectural part of a state, and the state
that the cycle level stands for once every posted accelerator request has committed. -/

namespace Sys2Proof.Machine

/-! ### Outcomes -/

/-- `f` applied to the next state of an outcome; faults and refusals stay. -/
def mapNext (f : State → State) : Host.Outcome State Fault Refusal → Host.Outcome State Fault Refusal
  | .next s => .next (f s)
  | .fault r => .fault r
  | .refused r => .refused r

/-! ### Parts of a state -/

/-- The same architectural state (spec/10_state.md R20 to R35): registers, pc, CSRs, memory, accelerator. -/
structure State.SameArch (s t : State) : Prop where
  x    : s.x = t.x
  pc   : s.pc = t.pc
  csr  : s.csr = t.csr
  mem  : s.mem = t.mem
  xcel : s.xcel = t.xcel

/-- The same parameters of the run (00_scope.md R8 to R10). -/
structure State.SameParams (s t : State) : Prop where
  memSize : s.memSize = t.memSize
  haltPc  : s.haltPc = t.haltPc
  cfg     : s.cfg = t.cfg

/-- The same hidden state (10_state.md R36 to R38). -/
structure State.SameHidden (s t : State) : Prop where
  mq         : s.mq = t.mq
  xq         : s.xq = t.xq
  busy       : s.busy = t.busy
  phase      : s.phase = t.phase
  ir         : s.ir = t.ir
  holdCtr    : s.holdCtr = t.holdCtr
  issueCtr   : s.issueCtr = t.issueCtr
  cyc        : s.cyc = t.cyc
  fault      : s.fault = t.fault
  stallDrawn : s.stallDrawn = t.stallDrawn
  stallLeft  : s.stallLeft = t.stallLeft

/-- The architectural state, MEM_SIZE and HALT_PC of `s` with the hidden state and the configuration of `h`. -/
def State.withHiddenOf (s h : State) : State :=
  { h with x := s.x, pc := s.pc, csr := s.csr, mem := s.mem, xcel := s.xcel, memSize := s.memSize, haltPc := s.haltPc }

/-! ### Invariant of the architectural level -/

/-- What every step keeps: memory and the CSRs are in canonical form inside their spaces, MEM_SIZE is legal, pc is even (the offset
of every decoded `bne` is even, 10_state.md R27), and the slot of x0 is 0 (R21). -/
structure State.ArchInv (s : State) : Prop where
  memWf        : Memory.wf s.memSize s.mem = true
  csrWf        : sparseWf 0x00000000#32 4096 s.csr = true
  memSizeValid : validMemSize s.memSize = true
  pcEven       : s.pc.getLsbD 0 = false
  x0           : s.x[0] = 0x00000000#32

/-! ### The architectural state a cycle-level state stands for -/

/-- Every record of `xq` performed, oldest first: the state as if each issued accelerator instruction had committed at its place
in program order (45_xcel.md R192). -/
def State.committed (s : State) : State := s.xq.foldl State.performXcel s

/-! ### Invariant of the cycle level -/

/-- An in-flight accelerator read whose destination is register `r`. -/
def XcelRecord.holds (q : XcelRecord) (r : RegIdx) : Bool := decide (q.kind = .read) && decide (q.rd = r)

/-- The instruction at pc can be fetched and is not the halt point. -/
structure State.AtInstruction (s : State) : Prop where
  notHalt  : s.pc ≠ s.haltPc
  fetchOk  : s.accessFault .fetch s.pc = none
  noHold   : s.holdCtr = 0

/-- The record in flight is the fetch of the instruction at pc. -/
structure State.FetchInFlight (s : State) (q : MemRecord) : Prop where
  kind : q.kind = .read
  addr : q.addr = s.pc
  data : q.data = 0x00000000#32
  rd   : q.rd = 0#5

/-- The record in flight is the data request of the instruction in `ir`, which is not stalled and whose address is legal. -/
structure State.DataInFlight (s : State) (q : MemRecord) : Prop where
  request : ∃ i, decode s.ir = some i ∧ s.stalls i = false ∧
    ∃ r, s.dataRequest i = some r ∧ s.accessFault r.access r.addr = none ∧
      q.kind = r.kind ∧ q.addr = r.addr ∧ q.data = r.data ∧ q.rd = r.rd

/-- A data request of the instruction in `ir` has been presented and stalled, and waits to be accepted. -/
structure State.DataPresented (s : State) : Prop where
  request : ∃ i, decode s.ir = some i ∧ s.stalls i = false ∧
    ∃ r, s.dataRequest i = some r ∧ s.accessFault r.access r.addr = none

/-- What each phase means for the Memory Port and the instruction register (70_reset_and_hazards.md R241 to R254). -/
def State.PhaseInv (s : State) : Prop :=
  match s.phase with
  | .fetchIssue => s.mq = [] ∧ (s.stallDrawn = true → s.AtInstruction)
  | .fetchWait => s.AtInstruction ∧ s.stallDrawn = false ∧ ∃ q, s.mq = [q] ∧ s.FetchInFlight q ∧ s.cyc ≤ q.readyCycle
  | .execute => s.AtInstruction ∧ s.mq = [] ∧ s.ir = s.memRead s.pc ∧ (s.stallDrawn = true → s.DataPresented)
  | .memWait =>
    s.AtInstruction ∧ s.stallDrawn = false ∧ s.ir = s.memRead s.pc ∧
      ∃ q, s.mq = [q] ∧ s.DataInFlight q ∧ s.cyc ≤ q.readyCycle
  | .halted => s.pc = s.haltPc ∧ s.mq = [] ∧ s.xq = [] ∧ s.holdCtr = 0
  | .faulted => s.fault.isSome = true ∧ s.mq = []

/-- What every tick keeps, under admitted draws. -/
structure State.CycleInv (s : State) : Prop where
  arch        : s.ArchInv
  config      : s.cfg.valid = true
  phaseInv    : s.PhaseInv
  noFault     : s.phase ≠ .faulted → s.fault = none
  stallLeft   : s.stallLeft = false
  stalledOnce : s.stallDrawn = true → 0 < s.cyc
  xqDepth     : s.xq.length ≤ s.cfg.xcelDepth
  /-- `busy[r]` is 1 exactly while `xq` holds an `xcelrd` record whose `rd` is `r` (10_state.md R37). -/
  scoreboard  : ∀ r : RegIdx, r ≠ 0#5 → s.isBusy r = s.xq.any (·.holds r)
  /-- No register is the destination of two records in flight (70_reset_and_hazards.md R236). -/
  oneEach     : s.xq.Pairwise fun p q => p.kind = .read → p.rd ≠ 0#5 → q.holds p.rd = false
  /-- Writes have no destination and reads carry no datum (10_state.md R36). -/
  xqShape     : ∀ q ∈ s.xq, (q.kind = .write → q.rd = 0#5) ∧ (q.kind = .read → q.data = 0x00000000#32)
  /-- A record is issued before it is ready (45_xcel.md R187). -/
  xqIssued    : ∀ q ∈ s.xq, q.issueCycle < s.cyc ∧ q.issueCycle < q.readyCycle

end Sys2Proof.Machine
end

