-- ==== Sys2Proof/Certificates/Slice0/Obligations.lean ====
section
/-! DEFINITION. The statements about this model, one definition each. Each docstring names the rule of spec/ it states. -/

open Sys2Proof Sys2Proof.Machine

/-! ### Decode and encode -/

/-- The worked examples of spec/40_decode_alu.md R134, word by word. -/
def Obligations.WorkedDecodeExamples : Prop :=
  decode 0x002081B3#32 = some (.add 3#5 1#5 2#5) ∧
  decode 0x00500093#32 = some (.addi 1#5 0#5 5#12) ∧
  decode 0xFFF00293#32 = some (.addi 5#5 0#5 0xFFF#12) ∧
  decode 0x00302023#32 = some (.sw 3#5 0#5 0#12) ∧
  decode 0x00002203#32 = some (.lw 4#5 0#5 0#12) ∧
  decode 0xFE009CE3#32 = some (.bne 1#5 0#5 0x1FF8#13) ∧
  decode 0x7C009173#32 = some (.csrrw 2#5 0x7C0#12 1#5) ∧
  decode 0x7C04D1F3#32 = some (.csrrwi 3#5 0x7C0#12 9#5) ∧
  decode 0x0010030B#32 = some (.xcelrd 6#5 1#5) ∧
  decode 0x0010900B#32 = some (.xcelwr 1#5 1#5) ∧
  decode 0x40208033#32 = none ∧
  decode 0x0010830B#32 = none ∧
  immOperand 0xFFF#12 = 0xFFFFFFFF#32 ∧ offsetOperand 0x1FF8#13 = 0xFFFFFFF8#32

/-- Decoding the word of a well-formed instruction gives the instruction, for all twelve and every operand value (R92 to R101). -/
def Obligations.DecodeOfEncodeIsIdentity : Prop :=
  ∀ i : Instr, i.WellFormed → decode (encode i) = some i

/-- A legal word is the word of the instruction it decodes to, which is well formed: no bit of it is ignored (R103). -/
def Obligations.LegalWordHasNoIgnoredBits : Prop :=
  ∀ (w : Word) (i : Instr), decode w = some i → i.WellFormed ∧ encode i = w

/-- No word matches two rows, so a word decodes by any row it matches, and is illegal exactly when it matches none (R101, R102). -/
def Obligations.DecodeIsTheUniqueMatchingRow : Prop :=
  (∀ w : Word, ∀ r ∈ rows, ∀ q ∈ rows, r.matches w = true → q.matches w = true →
    r.mask = q.mask ∧ r.pattern = q.pattern) ∧
  (∀ w : Word, ∀ r ∈ rows, r.matches w = true → decode w = some (r.build w)) ∧
  (∀ w : Word, decode w = none ↔ ∀ r ∈ rows, w &&& r.mask ≠ r.pattern)

/-- Row by row (R100), what `Decode` returns for a word that matches the row: the instruction, with each operand read from the bits of
the word that R101, R98 and R99 name. -/
def Obligations.EveryRowDecodesItsOperandFields : Prop :=
  ∀ w : Word,
    (w &&& 0xFE00707F#32 = 0x00000033#32 →
      decode w = some (.add (w.extractLsb' 7 5) (w.extractLsb' 15 5) (w.extractLsb' 20 5))) ∧
    (w &&& 0xFE00707F#32 = 0x00007033#32 →
      decode w = some (.and (w.extractLsb' 7 5) (w.extractLsb' 15 5) (w.extractLsb' 20 5))) ∧
    (w &&& 0xFE00707F#32 = 0x00001033#32 →
      decode w = some (.sll (w.extractLsb' 7 5) (w.extractLsb' 15 5) (w.extractLsb' 20 5))) ∧
    (w &&& 0xFE00707F#32 = 0x00005033#32 →
      decode w = some (.srl (w.extractLsb' 7 5) (w.extractLsb' 15 5) (w.extractLsb' 20 5))) ∧
    (w &&& 0x0000707F#32 = 0x00000013#32 →
      decode w = some (.addi (w.extractLsb' 7 5) (w.extractLsb' 15 5) (w.extractLsb' 20 12))) ∧
    (w &&& 0x0000707F#32 = 0x00001063#32 →
      decode w = some (.bne (w.extractLsb' 15 5) (w.extractLsb' 20 5)
        (w.extractLsb' 31 1 ++ w.extractLsb' 7 1 ++ w.extractLsb' 25 6 ++ w.extractLsb' 8 4 ++ 0#1))) ∧
    (w &&& 0x0000707F#32 = 0x00002003#32 →
      decode w = some (.lw (w.extractLsb' 7 5) (w.extractLsb' 15 5) (w.extractLsb' 20 12))) ∧
    (w &&& 0x0000707F#32 = 0x00002023#32 →
      decode w = some (.sw (w.extractLsb' 20 5) (w.extractLsb' 15 5) (w.extractLsb' 25 7 ++ w.extractLsb' 7 5))) ∧
    (w &&& 0x0000707F#32 = 0x00001073#32 →
      decode w = some (.csrrw (w.extractLsb' 7 5) (w.extractLsb' 20 12) (w.extractLsb' 15 5))) ∧
    (w &&& 0x0000707F#32 = 0x00005073#32 →
      decode w = some (.csrrwi (w.extractLsb' 7 5) (w.extractLsb' 20 12) (w.extractLsb' 15 5))) ∧
    (w &&& 0xFE0FF07F#32 = 0x0000000B#32 →
      decode w = some (.xcelrd (w.extractLsb' 7 5) (w.extractLsb' 20 5))) ∧
    (w &&& 0xFE007FFF#32 = 0x0000100B#32 →
      decode w = some (.xcelwr (w.extractLsb' 20 5) (w.extractLsb' 15 5)))

/-- The encodings that R104 lists as illegal are illegal. -/
def Obligations.ListedReservedEncodingsAreIllegal : Prop :=
  ∀ w : Word,
    (w.extractLsb' 0 2 ≠ 3#2 ∨ w = 0xFFFFFFFF#32 ∨
      (w.extractLsb' 0 7 = 0x33#7 ∧ (w.extractLsb' 12 3 ∈ [2#3, 3#3, 4#3, 6#3] ∨ w.extractLsb' 25 7 ≠ 0#7)) ∨
      (w.extractLsb' 0 7 = 0x13#7 ∧ w.extractLsb' 12 3 ≠ 0#3) ∨
      (w.extractLsb' 0 7 = 0x03#7 ∧ w.extractLsb' 12 3 ≠ 2#3) ∨
      (w.extractLsb' 0 7 = 0x23#7 ∧ w.extractLsb' 12 3 ≠ 2#3) ∨
      (w.extractLsb' 0 7 = 0x63#7 ∧ w.extractLsb' 12 3 ≠ 1#3) ∨
      (w.extractLsb' 0 7 = 0x73#7 ∧ w.extractLsb' 12 3 ∉ [1#3, 5#3]) ∨
      w.extractLsb' 0 7 ∈ [0x37#7, 0x17#7, 0x6F#7, 0x67#7, 0x0F#7] ∨
      (w.extractLsb' 0 7 = 0x0B#7 ∧
        (w.extractLsb' 12 3 ∉ [0#3, 1#3] ∨ w.extractLsb' 25 7 ≠ 0#7 ∨
          (w.extractLsb' 12 3 = 0#3 ∧ w.extractLsb' 15 5 ≠ 0#5) ∨
          (w.extractLsb' 12 3 = 1#3 ∧ w.extractLsb' 7 5 ≠ 0#5)))) →
    decode w = none

/-- The four bytes of a word, lowest address first and little-endian, decode to what the word decodes to; an illegal word and a
run of fewer than four bytes are rejected by name (R90, R104; spec/20_memory.md R53). -/
def Obligations.BytesDecodeLittleEndian : Prop :=
  ∀ (b0 b1 b2 b3 : Byte) (rest : List Byte) (w : Word),
    w.toNat = b0.toNat + 256 * b1.toNat + 65536 * b2.toNat + 16777216 * b3.toNat →
    (∀ i, decode w = some i → decodeBytes (b0 :: b1 :: b2 :: b3 :: rest) = .ok (i, rest)) ∧
    (decode w = none → decodeBytes (b0 :: b1 :: b2 :: b3 :: rest) = .error (.illegalInstruction w)) ∧
    decodeBytes [b0, b1, b2] = .error (.tooFewBytes 3)

/-- Written operands (R111, R112): for every written form, exactly the operands in range have an encoding, and what is accepted
decodes back from its word. -/
def Obligations.WrittenOperandsOutOfRangeAreRefused : Prop :=
  (∀ rd rs1 rs2 : Nat, ∀ a ∈ [AsmInstr.add rd rs1 rs2, .and rd rs1 rs2, .sll rd rs1 rs2, .srl rd rs1 rs2],
    a.assemble.isSome = true ↔ rd ≤ 31 ∧ rs1 ≤ 31 ∧ rs2 ≤ 31) ∧
  (∀ r r' : Nat, ∀ v : Int, ∀ a ∈ [AsmInstr.addi r r' (.signed v), .lw r (.signed v) r', .sw r (.signed v) r'],
    a.assemble.isSome = true ↔ r ≤ 31 ∧ r' ≤ 31 ∧ -2048 ≤ v ∧ v ≤ 2047) ∧
  (∀ r r' v : Nat, ∀ a ∈ [AsmInstr.addi r r' (.field v), .lw r (.field v) r', .sw r (.field v) r'],
    a.assemble.isSome = true ↔ r ≤ 31 ∧ r' ≤ 31 ∧ v ≤ 0xFFF) ∧
  (∀ rs1 rs2 : Nat, ∀ v : Int,
    (AsmInstr.assemble (.bne rs1 rs2 v)).isSome = true ↔ rs1 ≤ 31 ∧ rs2 ≤ 31 ∧ -4096 ≤ v ∧ v ≤ 4094 ∧ v % 2 = 0) ∧
  (∀ rd csr v : Nat, ∀ a ∈ [AsmInstr.csrrw rd csr v, .csrrwi rd csr v],
    a.assemble.isSome = true ↔ rd ≤ 31 ∧ csr ≤ 4095 ∧ v ≤ 31) ∧
  (∀ r r' : Nat, ∀ a ∈ [AsmInstr.xcelrd r r', .xcelwr r r'], a.assemble.isSome = true ↔ r ≤ 31 ∧ r' ≤ 31) ∧
  ∀ (a : AsmInstr) (i : Instr), a.assemble = some i → decode (encode i) = some i

/-! ### The step -/

/-- A step runs the instruction whose bytes stand at pc: nothing is added around `exec` (spec/10_state.md R40). -/
def Obligations.StepRunsTheInstructionAtPc : Prop :=
  ∀ (s : State) (i : Instr), s.pc ≠ s.haltPc → s.pc.toNat % 4 = 0 → s.pc.toNat + 4 ≤ s.memSize →
    decode (wordOfBytes (s.byte s.pc.toNat) (s.byte (s.pc.toNat + 1)) (s.byte (s.pc.toNat + 2)) (s.byte (s.pc.toNat + 3))) =
      some i →
    step s = exec i s

/-- A state whose pc is HALT_PC takes no step: no fetch is made there, whatever the word there is (R41). That the model then answers
the same state is its own choice (log entry 2). -/
def Obligations.HaltedStateStaysAsItIs : Prop :=
  ∀ s : State, s.pc = s.haltPc → step s = .next s ∧ ∀ n, core.run n s = .next s

/-- Which fault a step raises, by the priority of spec/60_exceptions.md R207: the halt test, fetch alignment, fetch range, the
decoder, then for `lw` and `sw` the alignment and the range of the effective address; no other instruction faults. At the cycle
level an instruction with a busy register waits, after the decoder's check and before those of its address. -/
def Obligations.StepFaultsByPriority : Prop :=
  (∀ (s : State) (d : Draws) (i : Instr), s.phase = .execute → decode s.ir = some i → s.stalls i = true →
    (s.tick d).phase = .execute) ∧
  ∀ (s : State) (f : Fault),
    step s = .fault f ↔
      s.pc ≠ s.haltPc ∧
      ((s.pc.toNat % 4 ≠ 0 ∧ f = .alignmentFault s.pc s.pc .fetch) ∨
       (s.pc.toNat % 4 = 0 ∧ s.memSize < s.pc.toNat + 4 ∧ f = .memoryRangeFault s.pc s.pc .fetch) ∨
       (s.pc.toNat % 4 = 0 ∧ s.pc.toNat + 4 ≤ s.memSize ∧
         ((decode (s.memRead s.pc) = none ∧ f = .illegalInstruction s.pc (s.memRead s.pc)) ∨
          (∃ rd rs1 imm, decode (s.memRead s.pc) = some (.lw rd rs1 imm) ∧
            (((s.effectiveAddress rs1 imm).toNat % 4 ≠ 0 ∧
                f = .alignmentFault s.pc (s.effectiveAddress rs1 imm) .load) ∨
             ((s.effectiveAddress rs1 imm).toNat % 4 = 0 ∧ s.memSize < (s.effectiveAddress rs1 imm).toNat + 4 ∧
                f = .memoryRangeFault s.pc (s.effectiveAddress rs1 imm) .load))) ∨
          (∃ rs2 rs1 imm, decode (s.memRead s.pc) = some (.sw rs2 rs1 imm) ∧
            (((s.effectiveAddress rs1 imm).toNat % 4 ≠ 0 ∧
                f = .alignmentFault s.pc (s.effectiveAddress rs1 imm) .store) ∨
             ((s.effectiveAddress rs1 imm).toNat % 4 = 0 ∧ s.memSize < (s.effectiveAddress rs1 imm).toNat + 4 ∧
                f = .memoryRangeFault s.pc (s.effectiveAddress rs1 imm) .store))))))

/-- No instruction and no step is refused: every instruction of the opcode map has its meaning (R100, R101). -/
def Obligations.NothingIsRefused : Prop :=
  (∀ (i : Instr) (s : State) (r : Refusal), exec i s ≠ .refused r) ∧ ∀ (s : State) (r : Refusal), step s ≠ .refused r

/-- The word placed by `withFetchWord` is what the next step runs, from every state (the model's own interface, log entry 14). -/
def Obligations.PlacedWordIsRunByTheNextStep : Prop :=
  ∀ (s : State) (w : Word) (i : Instr), decode w = some i →
    step (s.withFetchWord 32 w.toNat) = exec i (s.withFetchWord 32 w.toNat)

/-! ### Results: every instruction completes, with this next state -/

/-- `add` (spec/41_arith_logic_shift.md R140): the sum modulo 2^32, then `pc + 4`. -/
def Obligations.AddCompletesWithSum : Prop :=
  ∀ (rd rs1 rs2 : RegIdx) (s : State),
    exec (.add rd rs1 rs2) s =
      .next ((s.setReg rd (BitVec.ofNat 32 ((s.reg rs1).toNat + (s.reg rs2).toNat))).setPc
        (BitVec.ofNat 32 (s.pc.toNat + 4)))

/-- `and` (R141): bit by bit, then `pc + 4`. -/
def Obligations.AndCompletesWithBitwiseAnd : Prop :=
  ∀ (rd rs1 rs2 : RegIdx) (s : State), ∃ v : Word,
    exec (.and rd rs1 rs2) s = .next ((s.setReg rd v).setPc (BitVec.ofNat 32 (s.pc.toNat + 4))) ∧
    ∀ k, k < 32 → v.getLsbD k = ((s.reg rs1).getLsbD k && (s.reg rs2).getLsbD k)

/-- `sll` (R142): `x[rs1] * 2^sh` modulo 2^32 for `sh` the low 5 bits of `x[rs2]`, then `pc + 4`. -/
def Obligations.SllCompletesWithLeftShift : Prop :=
  ∀ (rd rs1 rs2 : RegIdx) (s : State),
    exec (.sll rd rs1 rs2) s =
      .next ((s.setReg rd (BitVec.ofNat 32 ((s.reg rs1).toNat * 2 ^ ((s.reg rs2).toNat % 32)))).setPc
        (BitVec.ofNat 32 (s.pc.toNat + 4)))

/-- `srl` (R143): `floor(x[rs1] / 2^sh)` for `sh` the low 5 bits of `x[rs2]`, then `pc + 4`. -/
def Obligations.SrlCompletesWithRightShift : Prop :=
  ∀ (rd rs1 rs2 : RegIdx) (s : State),
    exec (.srl rd rs1 rs2) s =
      .next ((s.setReg rd (BitVec.ofNat 32 ((s.reg rs1).toNat / 2 ^ ((s.reg rs2).toNat % 32)))).setPc
        (BitVec.ofNat 32 (s.pc.toNat + 4)))

/-- `addi` (R144): the sum with the signed value of the 12-bit immediate, modulo 2^32, then `pc + 4`. -/
def Obligations.AddiCompletesWithSignedImmediate : Prop :=
  ∀ (rd rs1 : RegIdx) (imm : BitVec 12) (s : State),
    exec (.addi rd rs1 imm) s =
      .next ((s.setReg rd (BitVec.ofInt 32 ((s.reg rs1).toNat + imm.toInt))).setPc (BitVec.ofNat 32 (s.pc.toNat + 4)))

/-- `bne` (spec/42_branch.md R150): pc alone changes, by the signed offset when the registers differ and by 4 when they do not; with
one register named twice it is never taken. -/
def Obligations.BneCompletesWithRedirectedPc : Prop :=
  ∀ (rs1 rs2 : RegIdx) (off : BitVec 13) (s : State),
    (s.reg rs1 ≠ s.reg rs2 → exec (.bne rs1 rs2 off) s = .next (s.setPc (BitVec.ofInt 32 (s.pc.toNat + off.toInt)))) ∧
    (s.reg rs1 = s.reg rs2 → exec (.bne rs1 rs2 off) s = .next (s.setPc (BitVec.ofNat 32 (s.pc.toNat + 4)))) ∧
    exec (.bne rs1 rs1 off) s = .next (s.setPc (BitVec.ofNat 32 (s.pc.toNat + 4)))

/-- `lw` (spec/43_load_store.md R155): the effective address modulo 2^32; AlignmentFault, then MemoryRangeFault; else the register
takes the little-endian word at that address and pc advances by 4. In EXECUTE, not stalled and with nothing in flight, the read of a
legal address is presented on the Memory Port for any rd, x0 among them; for a misaligned or out-of-range address no request is. -/
def Obligations.LwCompletesWithLoadedWord : Prop :=
  ∀ (rd rs1 : RegIdx) (imm : BitVec 12) (s : State) (ea : Word),
    ea = BitVec.ofInt 32 ((s.reg rs1).toNat + imm.toInt) →
    (ea.toNat % 4 ≠ 0 → exec (.lw rd rs1 imm) s = .fault (.alignmentFault s.pc ea .load)) ∧
    (ea.toNat % 4 = 0 → s.memSize < ea.toNat + 4 → exec (.lw rd rs1 imm) s = .fault (.memoryRangeFault s.pc ea .load)) ∧
    (ea.toNat % 4 = 0 → ea.toNat + 4 ≤ s.memSize →
      exec (.lw rd rs1 imm) s =
        .next ((s.setReg rd (BitVec.ofNat 32
          ((s.byte ea.toNat).toNat + 256 * (s.byte (ea.toNat + 1)).toNat + 65536 * (s.byte (ea.toNat + 2)).toNat +
            16777216 * (s.byte (ea.toNat + 3)).toNat))).setPc (BitVec.ofNat 32 (s.pc.toNat + 4)))) ∧
    (s.phase = .execute → decode s.ir = some (.lw rd rs1 imm) →
      (∀ r, r ∈ (Instr.lw rd rs1 imm).reads ∨ r ∈ (Instr.lw rd rs1 imm).writes → s.isBusy r = false) → s.mq = [] →
      ea.toNat % 4 = 0 → ea.toNat + 4 ≤ s.memSize →
      s.memreqMsg =
        some { kind := .read, tag := BitVec.ofNat 8 s.issueCtr, addr := ea, size := 4#3, data := 0x00000000#32 }) ∧
    (s.phase = .execute → decode s.ir = some (.lw rd rs1 imm) → s.stallDrawn = false →
      ea.toNat % 4 ≠ 0 ∨ s.memSize < ea.toNat + 4 → s.memreqVal = false)

/-- `sw` (R156): the effective address modulo 2^32; AlignmentFault, then MemoryRangeFault; else the four bytes of `x[rs2]`, least
significant first, stand at that address, every other byte reads as before, pc advances by 4 and nothing else changes. -/
def Obligations.SwCompletesWithStoredWord : Prop :=
  ∀ (rs2 rs1 : RegIdx) (imm : BitVec 12) (s : State) (ea : Word),
    ea = BitVec.ofInt 32 ((s.reg rs1).toNat + imm.toInt) →
    (ea.toNat % 4 ≠ 0 → exec (.sw rs2 rs1 imm) s = .fault (.alignmentFault s.pc ea .store)) ∧
    (ea.toNat % 4 = 0 → s.memSize < ea.toNat + 4 → exec (.sw rs2 rs1 imm) s = .fault (.memoryRangeFault s.pc ea .store)) ∧
    (ea.toNat % 4 = 0 → ea.toNat + 4 ≤ s.memSize →
      ∃ m : List Host.Cell, ∃ t : State, t = { s with mem := m, pc := BitVec.ofNat 32 (s.pc.toNat + 4) } ∧
        exec (.sw rs2 rs1 imm) s = .next t ∧
        (∀ k, k < 4 → (t.byte (ea.toNat + k)).toNat = (s.reg rs2).toNat / 256 ^ k % 256) ∧
        ∀ a, a < ea.toNat ∨ ea.toNat + 4 ≤ a → t.byte a = s.byte a)

/-- `csrrw` (spec/44_csr.md R165): the CSR takes the register's old value, the register takes the CSR's old value, every other CSR
stays, pc advances by 4 and nothing else changes. -/
def Obligations.CsrrwCompletesWithSwap : Prop :=
  ∀ (rd : RegIdx) (k : CsrIdx) (rs1 : RegIdx) (s : State), ∃ c : List (Nat × Word), ∃ t : State,
    t = ({ s with csr := c }.setReg rd (s.csrRead k)).setPc (BitVec.ofNat 32 (s.pc.toNat + 4)) ∧
    exec (.csrrw rd k rs1) s = .next t ∧ t.csrRead k = s.reg rs1 ∧ ∀ j, j ≠ k → t.csrRead j = s.csrRead j

/-- `csrrwi` (R166): as `csrrw`, the new value being the 5-bit immediate, 0 to 31. -/
def Obligations.CsrrwiCompletesWithImmediate : Prop :=
  ∀ (rd : RegIdx) (k : CsrIdx) (uimm : BitVec 5) (s : State), ∃ c : List (Nat × Word), ∃ t : State,
    t = ({ s with csr := c }.setReg rd (s.csrRead k)).setPc (BitVec.ofNat 32 (s.pc.toNat + 4)) ∧
    exec (.csrrwi rd k uimm) s = .next t ∧ (t.csrRead k).toNat = uimm.toNat ∧ ∀ j, j ≠ k → t.csrRead j = s.csrRead j

/-- `xcelrd` (spec/45_xcel.md R175, R179), for every accelerator: the register takes the datum, the accelerator the state after the
read, pc advances by 4; with rd = x0 the accelerator still performs the read. -/
def Obligations.XcelrdCompletesWithAcceleratorDatum : Prop :=
  ∀ (rd : RegIdx) (r : XcelIdx) (s : State),
    exec (.xcelrd rd r) s =
      .next (({ s with xcel := (s.xcel.read r).2 }.setReg rd (s.xcel.read r).1).setPc (BitVec.ofNat 32 (s.pc.toNat + 4)))

/-- `xcelwr` (R176, R180), for every accelerator: the accelerator takes the state after the write, pc advances by 4 and nothing else
changes. -/
def Obligations.XcelwrCompletesWithAcceleratorWrite : Prop :=
  ∀ (r : XcelIdx) (rs1 : RegIdx) (s : State),
    exec (.xcelwr r rs1) s = .next { s with xcel := s.xcel.write r (s.reg rs1), pc := BitVec.ofNat 32 (s.pc.toNat + 4) }

/-- The default accelerator (R181) is 32 plain registers, all zero at first: a write sets its register and no other, a read returns
the register and changes nothing. -/
def Obligations.DefaultAcceleratorIsPlainStorage : Prop :=
  XcelChoice.defaultStore.initial = .store (Vector.replicate 32 0x00000000#32) ∧
  ∀ (xr : Vector Word 32) (r : XcelIdx) (v : Word),
    (Xcel.store xr).read r = (xr[r.toNat], .store xr) ∧
    ∃ xr' : Vector Word 32, (Xcel.store xr).write r v = .store xr' ∧ xr'[r.toNat] = v ∧
      ∀ j : XcelIdx, j ≠ r → xr'[j.toNat] = xr[j.toNat]

/-! ### Frames: what an instruction leaves alone -/

/-- The instructions whose one result is a register change that register and pc, and nothing else; `bne` changes pc and nothing
else. That the hidden state and the parameters of the run stay too is the model's choice (log entries 1 and 8). -/
def Obligations.RegisterAndBranchInstructionsFrame : Prop :=
  (∀ (rd rs1 rs2 : RegIdx) (imm : BitVec 12) (i : Instr) (s t : State),
    i ∈ [Instr.add rd rs1 rs2, .and rd rs1 rs2, .sll rd rs1 rs2, .srl rd rs1 rs2, .addi rd rs1 imm, .lw rd rs1 imm] →
    exec i s = .next t →
    (∀ r, r ≠ rd → t.reg r = s.reg r) ∧ (∀ k, t.csrRead k = s.csrRead k) ∧ (∀ a, t.byte a = s.byte a) ∧
      t.xcel = s.xcel ∧ t.SameParams s ∧ t.SameHidden s) ∧
  (∀ (rs1 rs2 : RegIdx) (off : BitVec 13) (s t : State), exec (.bne rs1 rs2 off) s = .next t →
    (∀ r, t.reg r = s.reg r) ∧ (∀ k, t.csrRead k = s.csrRead k) ∧ (∀ a, t.byte a = s.byte a) ∧
      t.xcel = s.xcel ∧ t.SameParams s ∧ t.SameHidden s)

/-- `sw` changes the four bytes at its effective address and pc, and nothing else. That the hidden state and the parameters of the run
stay too is the model's choice (log entries 1 and 8). -/
def Obligations.StoreFrame : Prop :=
  ∀ (rs2 rs1 : RegIdx) (imm : BitVec 12) (s t : State), exec (.sw rs2 rs1 imm) s = .next t →
    (∀ r, t.reg r = s.reg r) ∧ (∀ k, t.csrRead k = s.csrRead k) ∧
      (∀ a, a < (s.effectiveAddress rs1 imm).toNat ∨ (s.effectiveAddress rs1 imm).toNat + 4 ≤ a → t.byte a = s.byte a) ∧
      t.xcel = s.xcel ∧ t.SameParams s ∧ t.SameHidden s

/-- The CSR instructions change `x[rd]`, the CSR of their index and pc, and nothing else. That the hidden state and the parameters of
the run stay too is the model's choice (log entries 1 and 8). -/
def Obligations.CsrInstructionsFrame : Prop :=
  ∀ (rd rs1 : RegIdx) (k : CsrIdx) (uimm : BitVec 5) (i : Instr) (s t : State),
    i ∈ [Instr.csrrw rd k rs1, .csrrwi rd k uimm] → exec i s = .next t →
    (∀ r, r ≠ rd → t.reg r = s.reg r) ∧ (∀ j, j ≠ k → t.csrRead j = s.csrRead j) ∧ (∀ a, t.byte a = s.byte a) ∧
      t.xcel = s.xcel ∧ t.SameParams s ∧ t.SameHidden s

/-- The accelerator instructions change the accelerator, pc and, for `xcelrd`, `x[rd]`, and nothing else. That the hidden state and the
parameters of the run stay too is the model's choice (log entries 1 and 8). -/
def Obligations.AcceleratorInstructionsFrame : Prop :=
  (∀ (rd : RegIdx) (r : XcelIdx) (s t : State), exec (.xcelrd rd r) s = .next t →
    (∀ j, j ≠ rd → t.reg j = s.reg j) ∧ (∀ k, t.csrRead k = s.csrRead k) ∧ (∀ a, t.byte a = s.byte a) ∧
      t.SameParams s ∧ t.SameHidden s) ∧
  (∀ (r : XcelIdx) (rs1 : RegIdx) (s t : State), exec (.xcelwr r rs1) s = .next t →
    (∀ j, t.reg j = s.reg j) ∧ (∀ k, t.csrRead k = s.csrRead k) ∧ (∀ a, t.byte a = s.byte a) ∧
      t.SameParams s ∧ t.SameHidden s)

/-! ### Rules about the whole machine -/

/-- x0 reads 0 after any instruction, and an instruction whose destination is x0 changes no register (R21, R22). -/
def Obligations.RegisterZeroReadsZeroAndDiscardsWrites : Prop :=
  ∀ (i : Instr) (s t : State), exec i s = .next t →
    t.reg 0#5 = 0x00000000#32 ∧ (i.writes = [0#5] → ∀ r, t.reg r = s.reg r)

/-- Only the registers of the `writes` column change, and what an instruction does to pc, the CSRs, memory, the accelerator and those
registers depends on no register outside the `reads` column (spec/40_decode_alu.md R123). -/
def Obligations.ReadsAndWritesColumnsBoundTheEffect : Prop :=
  (∀ (i : Instr) (s t : State), exec i s = .next t → ∀ r, r ∉ i.writes → t.reg r = s.reg r) ∧
  (∀ (i : Instr) (s s' : State), s.pc = s'.pc → s.csr = s'.csr → s.mem = s'.mem → s.xcel = s'.xcel →
    s.memSize = s'.memSize → (∀ r ∈ i.reads, s.reg r = s'.reg r) →
    (∀ f, exec i s = .fault f ↔ exec i s' = .fault f) ∧
    ∀ t t', exec i s = .next t → exec i s' = .next t' →
      t.pc = t'.pc ∧ t.csr = t'.csr ∧ t.mem = t'.mem ∧ t.xcel = t'.xcel ∧ ∀ r ∈ i.writes, t.reg r = t'.reg r)

/-- Every instruction but a taken `bne` ends with `pc + 4`, a taken `bne` with `pc` plus its offset, both modulo 2^32; a fault records
the pc of the faulting instruction (spec/10_state.md R26). -/
def Obligations.OnlyTakenBranchRedirectsPc : Prop :=
  (∀ (i : Instr) (s t : State), exec i s = .next t →
    ((∃ rs1 rs2 off, i = .bne rs1 rs2 off ∧ s.reg rs1 ≠ s.reg rs2 ∧
        t.pc = BitVec.ofInt 32 (s.pc.toNat + off.toInt)) ∨
     ((∀ rs1 rs2 off, i = .bne rs1 rs2 off → s.reg rs1 = s.reg rs2) ∧ t.pc = BitVec.ofNat 32 (s.pc.toNat + 4)))) ∧
  ∀ (s : State) (f : Fault), step s = .fault f → f.pc = s.pc

/-- Memory changes only by `sw`, a CSR only by `csrrw` and `csrrwi`, the accelerator only by `xcelrd` and `xcelwr` (R32, R34, R35). -/
def Obligations.OnlyItsInstructionsChangeEachSpace : Prop :=
  ∀ (i : Instr) (s t : State), exec i s = .next t →
    (t.mem ≠ s.mem → ∃ rs2 rs1 imm, i = .sw rs2 rs1 imm) ∧
    (t.csr ≠ s.csr → (∃ rd k rs1, i = .csrrw rd k rs1) ∨ ∃ rd k uimm, i = .csrrwi rd k uimm) ∧
    (t.xcel ≠ s.xcel → (∃ rd r, i = .xcelrd rd r) ∨ ∃ r rs1, i = .xcelwr r rs1)

/-- A word stored is the word a load of the same address returns, and a load of any other aligned address returns what it would have
returned before the store (spec/20_memory.md R80); a later fetch of the address runs the stored word, with no fence between
(R82). -/
def Obligations.LoadAndFetchSeeTheMostRecentStore : Prop :=
  ∀ (rs2 rs1 : RegIdx) (imm : BitVec 12) (s t : State), exec (.sw rs2 rs1 imm) s = .next t →
    (∀ rd, exec (.lw rd rs1 imm) t = .next ((t.setReg rd (s.reg rs2)).setPc (BitVec.ofNat 32 (t.pc.toNat + 4)))) ∧
    (∀ a : Word, a.toNat % 4 = 0 → a ≠ s.effectiveAddress rs1 imm → t.memRead a = s.memRead a) ∧
    ∀ i, decode (s.reg rs2) = some i → s.effectiveAddress rs1 imm ≠ s.haltPc →
      step (t.setPc (s.effectiveAddress rs1 imm)) = exec i (t.setPc (s.effectiveAddress rs1 imm))

/-- A CSR write followed by a CSR instruction on the same index: the second reads the new value (spec/44_csr.md R167, R33). -/
def Obligations.CsrReadAfterWriteSeesTheNewValue : Prop :=
  ∀ (rd rd' rs1 rs1' : RegIdx) (k : CsrIdx) (uimm uimm' : BitVec 5) (i j : Instr) (s t u : State),
    i ∈ [Instr.csrrw rd k rs1, .csrrwi rd k uimm] → j ∈ [Instr.csrrw rd' k rs1', .csrrwi rd' k uimm'] →
    exec i s = .next t → exec j t = .next u → rd' ≠ 0#5 →
    u.reg rd' = if i = .csrrw rd k rs1 then s.reg rs1 else BitVec.ofNat 32 uimm.toNat

/-- The architectural step reads none of the hidden state, nor the configuration: with another's hidden state in their place it does
the same (R42). That it also leaves them and the parameters of the run alone is the model's choice (log entries 1 and 8). -/
def Obligations.StepNeitherReadsNorChangesHiddenState : Prop :=
  (∀ s h : State, step (s.withHiddenOf h) = mapNext (fun t => t.withHiddenOf h) (step s)) ∧
  ∀ s t : State, step s = .next t → t.SameParams s ∧ t.SameHidden s

/-- Every step keeps the architectural invariant: canonical memory and CSRs, a legal MEM_SIZE, an even pc, the slot of x0 at 0. -/
def Obligations.StepKeepsArchitecturalInvariant : Prop :=
  ∀ s t : State, s.ArchInv → step s = .next t → t.ArchInv

/-! ### Reset -/

/-- What `load` leaves (R43), for every image, ENTRY, HALT_PC, configuration and accelerator it accepts; it installs HALT_PC and the
configuration, the generator's seed in it (R230, R262, R267). -/
def Obligations.LoadLeavesTheResetTable : Prop :=
  ∀ (image : List Byte) (entry haltPc : Word) (cfg : RunConfig) (accel : XcelChoice) (s : State),
    State.load image entry haltPc cfg accel = .ok s →
    (∀ r, s.reg r = 0x00000000#32) ∧ s.pc = entry ∧ (∀ k, s.csrRead k = 0x00000000#32) ∧
      s.memSize = image.length ∧ s.haltPc = haltPc ∧ s.cfg = cfg ∧ (∀ a, (h : a < image.length) → s.byte a = image[a]) ∧
      s.xcel = accel.initial ∧ s.mq = [] ∧ s.xq = [] ∧ (∀ r, s.isBusy r = false) ∧ s.phase = .fetchIssue ∧
      s.holdCtr = cfg.sourceDelay ∧ s.issueCtr = 0 ∧ s.cyc = 0 ∧ s.fault = none ∧
      s.stallDrawn = false ∧ s.stallLeft = false

/-- `load` accepts exactly the images, entry points and configurations of spec/20_memory.md R50, 00_scope.md R10 and
70_reset_and_hazards.md R267. -/
def Obligations.LoadRefusesWhatIsOutsideItsDomain : Prop :=
  ∀ (image : List Byte) (entry haltPc : Word) (cfg : RunConfig) (accel : XcelChoice),
    (∃ s, State.load image entry haltPc cfg accel = .ok s) ↔
      (4 ≤ image.length ∧ image.length ≤ 2 ^ 32 ∧ image.length % 4 = 0) ∧ entry.toNat % 4 = 0 ∧
      1 ≤ cfg.memoryLatency ∧ 0 < cfg.stallProbability.den ∧ cfg.stallProbability.num ≤ cfg.stallProbability.den ∧
      2 ≤ cfg.xcelDepth ∧ 1 ≤ cfg.maxCycles

/-- `State.reset` is the state a load leaves, for the image, ENTRY, HALT_PC and configuration the model chose (log entries 4 to 7). -/
def Obligations.ResetIsALoad : Prop :=
  State.load (List.replicate 0x100000 0x00#8) 0x00000200#32 0x00100000#32 Config.resetRun .defaultStore = .ok State.reset

/-- The state after reset meets both invariants. -/
def Obligations.ResetMeetsTheInvariants : Prop := State.reset.ArchInv ∧ State.reset.CycleInv

/-! ### Blocks -/

/-- The execution engine driven by the decoder block and the control table (R4, R121 to R124, R133) does what `exec` says of the
decoded instruction, and raises IllegalInstruction for a word that decodes to none; the decoder block's tag and the table's `reads`
and `writes` columns are the instruction's own (R120, R123). -/
def Obligations.ControlTableEngineEqualsExec : Prop :=
  ∀ (w : Word) (s : State),
    (∀ i, decode w = some i →
      engine (decoderBlock w) w s = exec i s ∧ (decoderBlock w).illegal = false ∧ (decoderBlock w).tag = i.tag ∧
        (controlOf (decoderBlock w)).reads = i.reads ∧ (controlOf (decoderBlock w)).writes = i.writes) ∧
    (decode w = none → engine (decoderBlock w) w s = .fault (.illegalInstruction s.pc w))

/-- The message layouts (spec/20_memory.md R66, R67; 45_xcel.md R184, R185): every field of a packed message stands at its bits, and
nothing is lost: unpacking what was packed gives the message, packing what was unpacked gives the bits. -/
def Obligations.MessagesRoundTrip : Prop :=
  (∀ m : MemReqMsg, m.pack.extractLsb' 75 1 = (if m.kind = .write then 1#1 else 0#1) ∧ m.pack.extractLsb' 67 8 = m.tag ∧
    m.pack.extractLsb' 35 32 = m.addr ∧ m.pack.extractLsb' 32 3 = m.size ∧ m.pack.extractLsb' 0 32 = m.data) ∧
  (∀ m : MemRespMsg, m.pack.extractLsb' 40 1 = (if m.kind = .write then 1#1 else 0#1) ∧ m.pack.extractLsb' 32 8 = m.tag ∧
    m.pack.extractLsb' 0 32 = m.data) ∧
  (∀ m : XcelReqMsg, m.pack.extractLsb' 45 1 = (if m.dir = .write then 1#1 else 0#1) ∧ m.pack.extractLsb' 37 8 = m.tag ∧
    m.pack.extractLsb' 32 5 = m.raddr ∧ m.pack.extractLsb' 0 32 = m.data) ∧
  (∀ m : XcelRespMsg, m.pack.extractLsb' 40 1 = (if m.dir = .write then 1#1 else 0#1) ∧ m.pack.extractLsb' 32 8 = m.tag ∧
    m.pack.extractLsb' 0 32 = m.data) ∧
  (∀ m : MemReqMsg, MemReqMsg.unpack m.pack = m) ∧ (∀ b, (MemReqMsg.unpack b).pack = b) ∧
  (∀ m : MemRespMsg, MemRespMsg.unpack m.pack = m) ∧ (∀ b, (MemRespMsg.unpack b).pack = b) ∧
  (∀ m : XcelReqMsg, XcelReqMsg.unpack m.pack = m) ∧ (∀ b, (XcelReqMsg.unpack b).pack = b) ∧
  (∀ m : XcelRespMsg, XcelRespMsg.unpack m.pack = m) ∧ (∀ b, (XcelRespMsg.unpack b).pack = b)

/-! ### The cycle level -/

/-- What `load` leaves meets the cycle-level invariant. -/
def Obligations.LoadMeetsCycleInvariant : Prop :=
  ∀ (image : List Byte) (entry haltPc : Word) (cfg : RunConfig) (accel : XcelChoice) (s : State),
    State.load image entry haltPc cfg accel = .ok s → s.CycleInv

/-- Every tick keeps the cycle-level invariant, for every draw the configuration admits. -/
def Obligations.TickKeepsCycleInvariant : Prop :=
  ∀ (s : State) (d : Draws), s.CycleInv → d.admitted s.cfg = true → (s.tick d).CycleInv

/-- One tick against the architectural level (spec/70_reset_and_hazards.md R261), the posted accelerator requests counted as
committed: a tick that raises a fault does so where the step raises the same fault; a tick that brings the core back to FETCH_ISSUE
is one step; any other tick is none. -/
def Obligations.TickRefinesStep : Prop :=
  ∀ (s : State) (d : Draws), s.CycleInv → d.admitted s.cfg = true → s.stopped = false →
    ((s.tick d).phase = .faulted → ∃ f, (s.tick d).fault = some f ∧ step s.committed = .fault f) ∧
    ((s.tick d).phase = .fetchIssue → s.phase ≠ .fetchIssue →
      s.committed.pc ≠ s.committed.haltPc ∧ ∃ u, step s.committed = .next u ∧ (s.tick d).committed.SameArch u) ∧
    ((s.tick d).phase ≠ .faulted → (s.phase = .fetchIssue ∨ (s.tick d).phase ≠ .fetchIssue) →
      (s.tick d).committed.SameArch s.committed)

/-- Timing invariance (R260): from every state a load leaves, under every sequence of admitted draws, the cycle level halts in the
architectural state the steps halt in and stays there under any sink_delay, faults with the fault the steps fault with, and runs
forever when the steps do. -/
def Obligations.TimingInvariance : Prop :=
  ∀ (image : List Byte) (entry haltPc : Word) (cfg : RunConfig) (accel : XcelChoice) (s : State) (draw : Nat → Draws),
    State.load image entry haltPc cfg accel = .ok s → (∀ c, (draw c).admitted cfg = true) →
    (∀ n S, core.run n s = .next S → S.pc = S.haltPc →
      ∃ k, ∀ j, k ≤ j → (State.ticks draw j s).phase = .halted ∧ (State.ticks draw j s).SameArch S) ∧
    (∀ n f, core.run n s = .fault f →
      ∃ k, ∀ j, k ≤ j → (State.ticks draw j s).phase = .faulted ∧ (State.ticks draw j s).fault = some f) ∧
    ((∀ n, ∃ S, core.run n s = .next S ∧ S.pc ≠ S.haltPc) → ∀ k, (State.ticks draw k s).stopped = false)

/-- The core halts exactly in a FETCH_ISSUE cycle that has no hold left, finds pc = HALT_PC and finds `xq` empty (R244). In HALTED
and FAULTED no tick changes anything, and `done()` is true in HALTED alone (R253, R254, R255); halted under the invariant, both
queues are empty and no register is busy. -/
def Obligations.CoreHaltsWhenDrainedAndStaysHalted : Prop :=
  ∀ (s : State) (d : Draws),
    (s.stopped = false →
      ((s.tick d).phase = .halted ↔ s.phase = .fetchIssue ∧ s.holdCtr = 0 ∧ s.pc = s.haltPc ∧ s.xq = [])) ∧
    (s.stopped = true → s.tick d = s) ∧ (s.done = true ↔ s.phase = .halted) ∧
    (s.CycleInv → s.phase = .halted → s.mq = [] ∧ s.xq = [] ∧ ∀ r, s.isBusy r = false)

/-- A tick enters FAULTED by raising a fault and not otherwise, and in that tick the phase and the fault record alone change; afterwards
nothing changes and `done()` stays false (R254). That the cycle count stays in that tick is the model's choice (log entry 16):
R242 c adds one in every tick. -/
def Obligations.FaultTickCommitsOnlyTheFault : Prop :=
  (∀ (s : State) (d : Draws) (f : Fault), s.stopped = false → s.coreFault = some f →
    (s.tick d).phase = .faulted ∧ (s.tick d).fault = some f) ∧
  ∀ (s : State) (d : Draws), s.stopped = false → (s.tick d).phase = .faulted →
    ∃ f, s.tick d = { s with phase := .faulted, fault := some f } ∧ f.pc = s.pc ∧
      (s.tick d).done = false ∧ (∀ d', (s.tick d).tick d' = s.tick d) ∧
      ((s.phase = .execute ∧ decode s.ir = none ∧ f = .illegalInstruction s.pc s.ir) ∨
       (s.phase = .fetchIssue ∧ s.accessFault .fetch s.pc = some f) ∨
       (s.phase = .execute ∧ ∃ i r, decode s.ir = some i ∧ s.stalls i = false ∧ s.dataRequest i = some r ∧
          s.accessFault r.access r.addr = some f))

/-- The Memory Port's handshake (spec/20_memory.md R65): under the invariant a record joins `mq` exactly in a cycle with val and rdy of
the request channel both 1, leaves it exactly in a cycle with val and rdy of the response channel both 1, and a request that was
presented and not taken is presented again, unchanged, in the next cycle. -/
def Obligations.MemoryPortHandshake : Prop :=
  ∀ (s : State) (d : Draws), s.CycleInv → d.admitted s.cfg = true → s.stopped = false →
    ((s.mq = [] ∧ (s.tick d).mq ≠ []) ↔ (s.memreqVal = true ∧ s.memreqRdy d.stall = true)) ∧
    ((s.mq ≠ [] ∧ (s.tick d).mq = []) ↔ (s.memrespVal = true ∧ s.memrespRdy = true)) ∧
    (s.memreqVal = true → s.memreqRdy d.stall = false →
      (s.tick d).memreqVal = true ∧ (s.tick d).memreqMsg = s.memreqMsg)

/-- Stall and latency (R68 to R71): a presented request is accepted in its first cycle or, if the draw stalls it, in the next; it is
then answered in exactly the cycle `memory_latency` after its acceptance. -/
def Obligations.MemoryRequestStallAndLatency : Prop :=
  ∀ (s : State) (d : Draws), s.CycleInv → d.admitted s.cfg = true → s.stopped = false →
    (s.stallDrawn = true → s.memreqRdy d.stall = true) ∧
    (∀ r, s.arbiter = some r → s.memreqRdy d.stall = true →
      ∃ q, (s.tick d).mq = [q] ∧ q.readyCycle = s.cyc + s.cfg.memoryLatency ∧ q.tag = BitVec.ofNat 8 s.issueCtr ∧
        q.issueCycle + (if s.stallDrawn then 1 else 0) = s.cyc ∧ q.addr = r.addr ∧ q.data = r.data ∧ q.kind = r.kind) ∧
    (∀ q, s.mq = [q] → ((s.tick d).mq = [] ↔ q.readyCycle = s.cyc))

/-- What the processor presents on the Memory Port is always well formed: 4 bytes, aligned, in range (R66; U10). -/
def Obligations.PresentedMemoryRequestIsLegal : Prop :=
  ∀ (s : State) (m : MemReqMsg), s.CycleInv → s.memreqMsg = some m →
    m.size = 4#3 ∧ m.addr.toNat % 4 = 0 ∧ m.addr.toNat + 4 ≤ s.memSize ∧ (m.kind = .read → m.data = 0x00000000#32)

/-- The Accelerator Port is a FIFO (spec/45_xcel.md R186, R188): a tick takes at most the head of `xq`, and only once its latency
has elapsed, and adds at most one record, at the tail, exactly when an accelerator instruction acts and fewer than XCEL_DEPTH
records are in flight. -/
def Obligations.AcceleratorPortIsAFifo : Prop :=
  ∀ (s : State) (d : Draws), s.stopped = false → s.coreFault = none →
    ∃ gone added : List XcelRecord, s.xq = gone ++ s.xq.drop gone.length ∧
      (s.tick d).xq = s.xq.drop gone.length ++ added ∧
      ((∃ q rest, s.xq = q :: rest ∧ q.readyCycle ≤ s.cyc ∧ gone = [q]) ∨
        ((∀ q rest, s.xq = q :: rest → s.cyc < q.readyCycle) ∧ gone = [])) ∧
      ((∃ r, s.xcelRequest = some r ∧ s.xq.length < s.cfg.xcelDepth ∧
          ∃ q, added = [q] ∧ q.kind = r.kind ∧ q.addr = r.addr ∧ q.data = r.data ∧ q.rd = r.rd ∧
            q.issueCycle = s.cyc ∧ q.readyCycle = s.cyc + d.latency ∧ q.tag = BitVec.ofNat 8 s.issueCtr) ∨
        ((∀ r, s.xcelRequest = some r → s.cfg.xcelDepth ≤ s.xq.length) ∧ added = []))

/-- The accelerator's state changes only by the delivery of the head of `xq`, whose datum a read's destination register takes and
whose busy bit it clears (R189, R191; spec/70_reset_and_hazards.md R252). -/
def Obligations.DeliveryPerformsTheHead : Prop :=
  ∀ (s : State) (d : Draws), s.CycleInv → s.stopped = false → s.coreFault = none →
    (∀ q rest, s.xq = q :: rest → q.readyCycle ≤ s.cyc →
      (q.kind = .read → (s.tick d).xcel = (s.xcel.read q.addr).2 ∧
        (q.rd ≠ 0#5 → (s.tick d).reg q.rd = (s.xcel.read q.addr).1 ∧ (s.tick d).isBusy q.rd = false)) ∧
      (q.kind = .write → (s.tick d).xcel = s.xcel.write q.addr q.data)) ∧
    ((∀ q rest, s.xq = q :: rest → s.cyc < q.readyCycle) → (s.tick d).xcel = s.xcel)

/-- The two register write ports never carry the same register in one tick (spec/10_state.md R24): the destination of a read delivered
this tick is no destination of the instruction that commits in EXECUTE, nor of the load that commits in MEM_WAIT. -/
def Obligations.WritePortsNeverCollide : Prop :=
  ∀ (s : State) (p : XcelRecord), s.CycleInv → s.xcelDue = some p → p.kind = .read → p.rd ≠ 0#5 →
    (∀ i, s.acting = some i → p.rd ∉ i.writes) ∧
    (∀ q, s.phase = .memWait → s.mq = [q] → p.rd ≠ q.rd)

/-- The stall rule (spec/70_reset_and_hazards.md R236): while a register the instruction in EXECUTE reads or writes is busy it neither
commits nor issues. With no head of `xq` due the tick changes the cycle count and nothing else; with a head due it also performs that
head's delivery: the head leaves `xq`, the accelerator performs it, a read's datum goes to its destination, whose busy bit is
cleared, and no other register and no other busy bit changes. Register 0 is never busy. -/
def Obligations.BusyRegisterStallsTheInstruction : Prop :=
  ∀ (s : State) (d : Draws) (i : Instr), s.phase = .execute → decode s.ir = some i →
    (∃ r, (r ∈ i.reads ∨ r ∈ i.writes) ∧ s.isBusy r = true) →
    s.isBusy 0#5 = false ∧ (s.tick d).pc = s.pc ∧ (s.tick d).phase = .execute ∧ (s.tick d).ir = s.ir ∧ (s.tick d).csr = s.csr ∧
      (s.tick d).mem = s.mem ∧ (s.tick d).mq = s.mq ∧ (s.tick d).issueCtr = s.issueCtr ∧
      (s.tick d).stallDrawn = s.stallDrawn ∧ (s.tick d).stallLeft = s.stallLeft ∧ (s.tick d).holdCtr = s.holdCtr ∧
      (s.tick d).fault = s.fault ∧ (s.tick d).SameParams s ∧ (s.tick d).cyc = s.cyc + 1 ∧
      ((∀ q rest, s.xq = q :: rest → s.cyc < q.readyCycle) →
        (s.tick d).x = s.x ∧ (s.tick d).xcel = s.xcel ∧ (s.tick d).busy = s.busy ∧ (s.tick d).xq = s.xq) ∧
      (∀ q rest, s.xq = q :: rest → q.readyCycle ≤ s.cyc →
        (s.tick d).xq = rest ∧ (s.tick d).isBusy q.rd = false ∧
        (∀ r, r ≠ q.rd → (s.tick d).reg r = s.reg r ∧ (s.tick d).isBusy r = s.isBusy r) ∧
        (q.kind = .read → (s.tick d).xcel = (s.xcel.read q.addr).2 ∧
          (s.tick d).reg q.rd = if q.rd = 0#5 then 0x00000000#32 else (s.xcel.read q.addr).1) ∧
        (q.kind = .write → (s.tick d).xcel = s.xcel.write q.addr q.data ∧ (s.tick d).reg q.rd = s.reg q.rd))

/-- Instruction timing (R257) with nothing in flight on the Accelerator Port: from its first FETCH_ISSUE cycle an instruction that
does not fault takes exactly the cycles of its row, with h = q = 0, to the FETCH_ISSUE of the next, and no fewer; it has then done
what the step does, an accelerator instruction counted as committed. -/
def Obligations.InstructionTakesItsCycles : Prop :=
  ∀ (s t : State) (i : Instr) (draw : Nat → Draws), s.CycleInv → (∀ c, (draw c).admitted s.cfg = true) →
    s.phase = .fetchIssue → s.holdCtr = 0 → s.stallDrawn = false → s.xq = [] → s.pc ≠ s.haltPc →
    decode (s.memRead s.pc) = some i → step s = .next t →
    ∀ sf sd n : Nat, sf = (if (draw s.cyc).stall then 1 else 0) →
      sd = (if (draw (s.cyc + (1 + sf + s.cfg.memoryLatency))).stall then 1 else 0) →
      n = instrCycles i s.cfg.memoryLatency sf sd 0 0 →
      (∀ k, k < n → (State.ticks draw k s).pc = s.pc ∧ ((State.ticks draw k s).phase = .fetchIssue → k ≤ sf)) ∧
      (State.ticks draw n s).phase = .fetchIssue ∧ (State.ticks draw n s).committed.SameArch t

/-- No stall lasts forever (R239): from every state that meets the invariant, under every sequence of admitted draws, the core
retires an instruction, halts or faults after finitely many ticks. -/
def Obligations.EveryStallEnds : Prop :=
  ∀ (s : State) (draw : Nat → Draws), s.CycleInv → (∀ c, (draw c).admitted s.cfg = true) → s.stopped = false →
    ∃ k, (State.ticks draw k s).stopped = true ∨
      ((State.ticks draw k s).phase ≠ .fetchIssue ∧ (State.ticks draw (k + 1) s).phase = .fetchIssue)

/-- The harness (R264, R265): a run ends in the first halted or faulted state within MAX_CYCLES ticks, else in a time-out; sink_delay
changes nothing of what is read. -/
def Obligations.HarnessEndsAtDoneFaultOrTimeout : Prop :=
  ∀ (s : State) (draw : Nat → Draws),
    (∀ t, State.harnessRun draw s = .done t ↔
      ∃ k, k ≤ s.cfg.maxCycles ∧ t = State.ticks draw k s ∧ t.phase = .halted ∧
        ∀ j, j < k → (State.ticks draw j s).phase ≠ .halted ∧ (State.ticks draw j s).fault = none) ∧
    (∀ f, State.harnessRun draw s = .faulted f ↔
      ∃ k, k ≤ s.cfg.maxCycles ∧ (State.ticks draw k s).phase ≠ .halted ∧ (State.ticks draw k s).fault = some f ∧
        ∀ j, j < k → (State.ticks draw j s).phase ≠ .halted ∧ (State.ticks draw j s).fault = none) ∧
    (State.harnessRun draw s = .timeout ↔
      ∀ k, k ≤ s.cfg.maxCycles → (State.ticks draw k s).phase ≠ .halted ∧ (State.ticks draw k s).fault = none)
end

