-- ==== Sys2Proof/Laws/Bits.lean ====
section
/-! SUPPORT. Bit fields and byte order: what a mask and a field extraction do to a placed field, and that the bytes of a word give
the word back. -/

namespace Sys2Proof

theorem getLsbD_place {n : Nat} (m pos : Nat) (v : BitVec n) (i : Nat) :
    (place m pos v).getLsbD i = (decide (i < m) && decide (pos ≤ i) && v.getLsbD (i - pos)) := by
  simp only [place, BitVec.getLsbD_shiftLeft, BitVec.getLsbD_setWidth]
  by_cases h1 : i < m <;> by_cases h2 : i < pos
  · simp [h1, h2]
  · have : i - pos < m := by omega
    simp [h1, h2, this]; intros; omega
  · simp [h1]
  · simp [h1]

/-- A mask over a placed field masks the field. -/
theorem place_and {n : Nat} (m pos : Nat) (v : BitVec n) (M : BitVec m) :
    place m pos v &&& M = place m pos (v &&& M.extractLsb' pos n) := by
  apply BitVec.eq_of_getLsbD_eq
  intro i hi
  simp only [BitVec.getLsbD_and, getLsbD_place, BitVec.getLsbD_extractLsb']
  by_cases h1 : pos ≤ i
  · have e : pos + (i - pos) = i := by omega
    by_cases h2 : i - pos < n
    · simp only [h1, h2, e, decide_true, Bool.true_and, Bool.and_true, Bool.and_assoc]
    · simp only [BitVec.getLsbD_of_ge v _ (Nat.le_of_not_lt h2), Bool.and_false, Bool.false_and]
  · simp only [h1, decide_false, Bool.and_false, Bool.false_and]

@[simp] theorem place_zero {n : Nat} (m pos : Nat) : place m pos 0#n = 0#m := by
  simp [place]

theorem or_and_distrib {n : Nat} (a b M : BitVec n) : (a ||| b) &&& M = (a &&& M) ||| (b &&& M) := by
  apply BitVec.eq_of_getLsbD_eq
  intro i _
  simp only [BitVec.getLsbD_and, BitVec.getLsbD_or, Bool.and_or_distrib_right]

theorem extract_or {n : Nat} (a b : BitVec n) (p k : Nat) :
    (a ||| b).extractLsb' p k = a.extractLsb' p k ||| b.extractLsb' p k := by
  apply BitVec.eq_of_getLsbD_eq
  intro i _
  simp only [BitVec.getLsbD_extractLsb', BitVec.getLsbD_or, Bool.and_or_distrib_left]

/-- The field read where it was placed. -/
theorem extract_place {n : Nat} {m pos : Nat} (h : pos + n ≤ m) (v : BitVec n) :
    (place m pos v).extractLsb' pos n = v := by
  apply BitVec.eq_of_getLsbD_eq
  intro i hi
  have h1 : pos + i < m := by omega
  have e : pos + i - pos = i := by omega
  simp only [BitVec.getLsbD_extractLsb', getLsbD_place, hi, h1, e, Nat.le_add_right, decide_true, Bool.true_and]

/-- A field read elsewhere is 0. -/
theorem extract_place_apart {n : Nat} {m pos p k : Nat} (h : p + k ≤ pos ∨ pos + n ≤ p) (v : BitVec n) :
    (place m pos v).extractLsb' p k = 0#k := by
  apply BitVec.eq_of_getLsbD_eq
  intro i hi
  simp only [BitVec.getLsbD_extractLsb', getLsbD_place, BitVec.getLsbD_zero]
  rcases h with h | h
  · have : ¬ pos ≤ p + i := by omega
    simp only [this, decide_false, Bool.and_false, Bool.false_and]
  · rw [BitVec.getLsbD_of_ge v _ (by omega)]
    simp only [Bool.and_false]

/-- Two neighbouring parts of a field, placed next to each other, are the field. -/
theorem place_or_place {n k : Nat} (h : k ≤ n) (v : BitVec n) :
    place n k (v.extractLsb' k (n - k)) ||| place n 0 (v.extractLsb' 0 k) = v := by
  apply BitVec.eq_of_getLsbD_eq
  intro i hi
  simp only [BitVec.getLsbD_or, getLsbD_place, BitVec.getLsbD_extractLsb', hi, Nat.zero_le, Nat.sub_zero, decide_true,
    Bool.true_and, Nat.zero_add]
  by_cases h1 : k ≤ i
  · have e : k + (i - k) = i := by omega
    have h2 : i - k < n - k := by omega
    have h3 : ¬ i < k := by omega
    simp only [h1, h2, h3, e, decide_true, decide_false, Bool.true_and, Bool.false_and, Bool.or_false]
  · have h3 : i < k := by omega
    simp only [h1, h3, decide_true, decide_false, Bool.true_and, Bool.false_and, Bool.false_or]

/-! ### Words and bytes -/

/-- Byte `k` of a word made of bytes. -/
theorem wordByte_wordOfBytes (b0 b1 b2 b3 : Byte) :
    wordByte (wordOfBytes b0 b1 b2 b3) 0 = b0 ∧ wordByte (wordOfBytes b0 b1 b2 b3) 1 = b1 ∧
      wordByte (wordOfBytes b0 b1 b2 b3) 2 = b2 ∧ wordByte (wordOfBytes b0 b1 b2 b3) 3 = b3 := by
  unfold wordByte wordOfBytes
  simp only [extract_or, Nat.mul_zero, Nat.mul_one, Nat.reduceMul]
  rw [extract_place (pos := 0) (by omega), extract_place (pos := 8) (by omega), extract_place (pos := 16) (by omega),
    extract_place (pos := 24) (by omega)]
  repeat rw [extract_place_apart (by omega)]
  simp

/-- A word is the sum of its bytes. -/
theorem toNat_eq_bytes (v : Word) :
    v.toNat = (wordByte v 0).toNat + 256 * (wordByte v 1).toNat + 65536 * (wordByte v 2).toNat +
      16777216 * (wordByte v 3).toNat := by
  have h := v.isLt
  simp only [wordByte, BitVec.extractLsb'_toNat, Nat.shiftRight_eq_div_pow]
  omega

/-- The numeric value of a little-endian word (20_memory.md R52). -/
theorem toNat_wordOfBytes (b0 b1 b2 b3 : Byte) :
    (wordOfBytes b0 b1 b2 b3).toNat = b0.toNat + 256 * b1.toNat + 65536 * b2.toNat + 16777216 * b3.toNat := by
  obtain ⟨h0, h1, h2, h3⟩ := wordByte_wordOfBytes b0 b1 b2 b3
  rw [toNat_eq_bytes, h0, h1, h2, h3]

/-- The bytes of a word, put together again, are the word. -/
@[simp] theorem wordOfBytes_wordByte (v : Word) :
    wordOfBytes (wordByte v 0) (wordByte v 1) (wordByte v 2) (wordByte v 3) = v := by
  apply BitVec.eq_of_toNat_eq
  rw [toNat_wordOfBytes, ← toNat_eq_bytes]

end Sys2Proof
end

