-- ==== Sys2Proof/Laws/PerInstr.lean ====
section
/-! SUPPORT. Statements made instruction by instruction. Family RowMatch: the word of an instruction carries the fixed bits of the
instruction's own row of the opcode map (spec/30_encoding.md R100). -/

namespace Sys2Proof.Laws.RowMatch

/-- The word of `i` matches the row of `i`. -/
def Statement (i : Instr) : Prop := encode i &&& i.row.mask = i.row.pattern

theorem add (rd rs1 rs2 : RegIdx) : Statement (.add rd rs1 rs2) := by
  simp only [Statement, encode, encodeR, Instr.row, Row.add, or_and_distrib, place_and]
  simp [place]

theorem and (rd rs1 rs2 : RegIdx) : Statement (.and rd rs1 rs2) := by
  simp only [Statement, encode, encodeR, Instr.row, Row.and, or_and_distrib, place_and]
  simp [place]

theorem sll (rd rs1 rs2 : RegIdx) : Statement (.sll rd rs1 rs2) := by
  simp only [Statement, encode, encodeR, Instr.row, Row.sll, or_and_distrib, place_and]
  simp [place]

theorem srl (rd rs1 rs2 : RegIdx) : Statement (.srl rd rs1 rs2) := by
  simp only [Statement, encode, encodeR, Instr.row, Row.srl, or_and_distrib, place_and]
  simp [place]

theorem addi (rd rs1 : RegIdx) (imm : BitVec 12) : Statement (.addi rd rs1 imm) := by
  simp only [Statement, encode, encodeI, Instr.row, Row.addi, or_and_distrib, place_and]
  simp [place]

theorem bne (rs1 rs2 : RegIdx) (off : BitVec 13) : Statement (.bne rs1 rs2 off) := by
  simp only [Statement, encode, encodeB, Instr.row, Row.bne, or_and_distrib, place_and]
  simp [place]

theorem lw (rd rs1 : RegIdx) (imm : BitVec 12) : Statement (.lw rd rs1 imm) := by
  simp only [Statement, encode, encodeI, Instr.row, Row.lw, or_and_distrib, place_and]
  simp [place]

theorem sw (rs2 rs1 : RegIdx) (imm : BitVec 12) : Statement (.sw rs2 rs1 imm) := by
  simp only [Statement, encode, encodeS, Instr.row, Row.sw, or_and_distrib, place_and]
  simp [place]

theorem csrrw (rd : RegIdx) (csr : CsrIdx) (rs1 : RegIdx) : Statement (.csrrw rd csr rs1) := by
  simp only [Statement, encode, encodeC, Instr.row, Row.csrrw, or_and_distrib, place_and]
  simp [place]

theorem csrrwi (rd : RegIdx) (csr : CsrIdx) (uimm : BitVec 5) : Statement (.csrrwi rd csr uimm) := by
  simp only [Statement, encode, encodeC, Instr.row, Row.csrrwi, or_and_distrib, place_and]
  simp [place]

theorem xcelrd (rd : RegIdx) (xr : XcelIdx) : Statement (.xcelrd rd xr) := by
  simp only [Statement, encode, encodeX, Instr.row, Row.xcelrd, or_and_distrib, place_and]
  simp [place]

theorem xcelwr (xr : XcelIdx) (rs1 : RegIdx) : Statement (.xcelwr xr rs1) := by
  simp only [Statement, encode, encodeX, Instr.row, Row.xcelwr, or_and_distrib, place_and]
  simp [place]

end Sys2Proof.Laws.RowMatch
end

