-- ==== Sys2Proof/Laws/Decode.lean ====
section
/-! SUPPORT. The decoder: a word that matches a row decodes by that row, a decoded word matches the row of its instruction. -/

namespace Sys2Proof

/-- Every row but the first that matches is shut out: two rows that match one word have the same mask and pattern only if they
are the same row; checked row by row, on the bits both masks fix. -/
def Row.clash (r q : Row) : Bool := decide (r.pattern &&& q.mask = q.pattern &&& r.mask)

/-- A word that matches two rows gives both the same value on the bits both masks fix. -/
theorem Row.clash_of_matches {r q : Row} {w : Word} (h1 : r.matches w = true) (h2 : q.matches w = true) :
    r.clash q = true := by
  unfold Row.matches at h1 h2
  rw [decide_eq_true_iff] at h1 h2
  unfold Row.clash
  rw [decide_eq_true_iff, ← h1, ← h2, BitVec.and_assoc, BitVec.and_assoc, BitVec.and_comm r.mask]

/-- No two rows at different places of the list can match one word (R102). -/
theorem rows_disjoint : rows.Pairwise fun r q => r.clash q = false := by decide

/-- In a list of rows no two of which clash, the first row that matches is any row that matches. -/
theorem find?_matches_of_mem {l : List Row} (hl : l.Pairwise fun r q => r.clash q = false) {r : Row} {w : Word}
    (hr : r ∈ l) (hw : r.matches w = true) : l.find? (·.matches w) = some r := by
  induction l with
  | nil => cases hr
  | cons q l ih =>
    obtain ⟨h1, h2⟩ := List.pairwise_cons.1 hl
    rcases List.mem_cons.1 hr with rfl | hr
    · simp [hw]
    · have hq : q.matches w = false := by
        by_contra hc
        have := Row.clash_of_matches (by simpa using hc) hw
        simp [h1 r hr] at this
      simp [hq, ih h2 hr]

/-- A word that matches a row decodes by it. -/
theorem decode_of_matches {r : Row} {w : Word} (hr : r ∈ rows) (hw : r.matches w = true) : decode w = some (r.build w) := by
  simp [decode, find?_matches_of_mem rows_disjoint hr hw]

theorem row_mem_rows (i : Instr) : i.row ∈ rows := by
  cases i <;> simp [Instr.row, rows]

theorem row_build (r : Row) (hr : r ∈ rows) (w : Word) : (r.build w).row = r := by
  simp only [rows, List.mem_cons, List.not_mem_nil, or_false] at hr
  rcases hr with rfl | rfl | rfl | rfl | rfl | rfl | rfl | rfl | rfl | rfl | rfl | rfl <;> rfl

/-- A decoded word matches the row of its instruction, which rebuilds the instruction. -/
theorem decode_some {w : Word} {i : Instr} (h : decode w = some i) :
    w &&& i.row.mask = i.row.pattern ∧ i.row.build w = i := by
  unfold decode at h
  obtain ⟨r, hr, rfl⟩ := Option.map_eq_some_iff.1 h
  have hm := List.find?_some hr
  rw [row_build r (List.mem_of_find?_eq_some hr)]
  exact ⟨by simpa [Row.matches] using hm, rfl⟩

/-- A word is illegal exactly when it matches no row (R104). -/
theorem decode_none_iff {w : Word} : decode w = none ↔ ∀ r ∈ rows, r.matches w = false := by
  simp [decode]

/-- The bytes of a word decode to what the word decodes to, and the rest of the bytes stays. -/
theorem decodeBytes_of_some {w : Word} {i : Instr} (h : decode w = some i) (rest : List Byte) :
    decodeBytes (bytesOfWord w ++ rest) = .ok (i, rest) := by
  simp [bytesOfWord, decodeBytes, h]

/-- The bytes of an illegal word are rejected by name. -/
theorem decodeBytes_of_none {w : Word} (h : decode w = none) (rest : List Byte) :
    decodeBytes (bytesOfWord w ++ rest) = .error (.illegalInstruction w) := by
  simp [bytesOfWord, decodeBytes, h]

/-- The offset of a decoded branch is even (R98). -/
theorem evenOffset_fieldImmB (w : Word) : evenOffset (fieldImmB w) = true := by
  simp [evenOffset, fieldImmB, getLsbD_place, -BitVec.getLsbD_eq_getElem]

/-- A decoded instruction is well formed. -/
theorem wellFormed_of_decode {w : Word} {i : Instr} (h : decode w = some i) : i.WellFormed := by
  obtain ⟨-, hb⟩ := decode_some h
  rw [← hb]
  cases i <;> first | rfl | exact evenOffset_fieldImmB w

end Sys2Proof
end

