-- ==== Sys2Proof/Laws/Sparse.lean ====
section
/-! SUPPORT. The sparse map: reading after writing, and the canonical form that every write keeps. -/

namespace Sys2Proof.Machine

variable {α : Type} (dflt : α)

@[simp] theorem sparseGet_nil (k : Nat) : sparseGet dflt [] k = dflt := rfl

theorem sparseGet_cons (a : Nat) (v : α) (l : List (Nat × α)) (k : Nat) :
    sparseGet dflt ((a, v) :: l) k = if k = a then v else sparseGet dflt l k := rfl

theorem sparseGet_erase (l : List (Nat × α)) (k j : Nat) :
    sparseGet dflt (sparseErase k l) j = if j = k then dflt else sparseGet dflt l j := by
  induction l with
  | nil => simp [sparseErase]
  | cons p l ih =>
    obtain ⟨a, v⟩ := p
    by_cases h : a = k
    · subst h
      have : sparseErase a ((a, v) :: l) = sparseErase a l := by simp [sparseErase]
      rw [this, ih, sparseGet_cons]
      split <;> simp_all
    · have : sparseErase k ((a, v) :: l) = (a, v) :: sparseErase k l := by simp [sparseErase, h]
      rw [this, sparseGet_cons, ih, sparseGet_cons]
      by_cases hj : j = a
      · subst hj; simp [h]
      · simp [hj]

theorem sparseGet_insert_erased (l : List (Nat × α)) (k j : Nat) (v : α) (h : ∀ p ∈ l, p.1 ≠ k) :
    sparseGet dflt (sparseInsert k v l) j = if j = k then v else sparseGet dflt l j := by
  induction l with
  | nil => simp [sparseInsert, sparseGet_cons]
  | cons p l ih =>
    obtain ⟨a, w⟩ := p
    have ha : a ≠ k := h (a, w) (by simp)
    have hl : ∀ p ∈ l, p.1 ≠ k := fun p hp => h p (List.mem_cons_of_mem _ hp)
    unfold sparseInsert
    split
    · simp [sparseGet_cons]
    · rw [sparseGet_cons, ih hl, sparseGet_cons]
      by_cases hj : j = a
      · subst hj; simp [ha]
      · simp [hj]

theorem mem_sparseErase {l : List (Nat × α)} {k : Nat} {p : Nat × α} :
    p ∈ sparseErase k l ↔ p ∈ l ∧ p.1 ≠ k := by
  simp [sparseErase, List.mem_filter]

theorem mem_sparseInsert {l : List (Nat × α)} {k : Nat} {v : α} {p : Nat × α} :
    p ∈ sparseInsert k v l ↔ p = (k, v) ∨ p ∈ l := by
  induction l with
  | nil => simp [sparseInsert]
  | cons q l ih =>
    unfold sparseInsert
    split
    · simp
    · simp only [List.mem_cons, ih]; tauto

theorem sparseRising_cons {a : Nat} {v : α} {l : List (Nat × α)} :
    sparseRising ((a, v) :: l) = true ↔ (∀ p ∈ l, a < p.1) ∧ sparseRising l = true := by
  simp [sparseRising]

theorem sparseRising_erase {l : List (Nat × α)} (k : Nat) (h : sparseRising l = true) :
    sparseRising (sparseErase k l) = true := by
  induction l with
  | nil => simpa [sparseErase] using h
  | cons p l ih =>
    obtain ⟨a, v⟩ := p
    obtain ⟨h1, h2⟩ := sparseRising_cons.1 h
    by_cases hk : a = k
    · simpa [sparseErase, hk] using ih h2
    · have : sparseErase k ((a, v) :: l) = (a, v) :: sparseErase k l := by simp [sparseErase, hk]
      rw [this, sparseRising_cons]
      exact ⟨fun p hp => h1 p (mem_sparseErase.1 hp).1, ih h2⟩

theorem sparseRising_insert {l : List (Nat × α)} (k : Nat) (v : α) (h : sparseRising l = true)
    (hk : ∀ p ∈ l, p.1 ≠ k) : sparseRising (sparseInsert k v l) = true := by
  induction l with
  | nil => simp [sparseInsert, sparseRising]
  | cons p l ih =>
    obtain ⟨a, w⟩ := p
    obtain ⟨h1, h2⟩ := sparseRising_cons.1 h
    have ha : a ≠ k := hk (a, w) (by simp)
    unfold sparseInsert
    split
    · next hlt =>
      rw [sparseRising_cons]
      refine ⟨fun p hp => ?_, h⟩
      rcases List.mem_cons.1 hp with rfl | hp
      · exact hlt
      · exact lt_trans hlt (h1 p hp)
    · next hlt =>
      rw [sparseRising_cons]
      refine ⟨fun p hp => ?_, ih h2 fun p hp => hk p (List.mem_cons_of_mem _ hp)⟩
      rcases mem_sparseInsert.1 hp with rfl | hp
      · show a < k; omega
      · exact h1 p hp

variable [DecidableEq α]

/-- Reading after writing, at the same key and at any other. -/
theorem sparseGet_set (l : List (Nat × α)) (k j : Nat) (v : α) :
    sparseGet dflt (sparseSet dflt l k v) j = if j = k then v else sparseGet dflt l j := by
  unfold sparseSet
  split
  · next h => subst h; exact sparseGet_erase _ l k j
  · rw [sparseGet_insert_erased dflt _ k j v fun p hp => (mem_sparseErase.1 hp).2, sparseGet_erase]
    split <;> rfl

theorem sparseWf_iff {bound : Nat} {l : List (Nat × α)} :
    sparseWf dflt bound l = true ↔ sparseRising l = true ∧ ∀ p ∈ l, p.1 < bound ∧ p.2 ≠ dflt := by
  simp [sparseWf]

/-- A write below the bound keeps the canonical form. -/
theorem sparseWf_set {bound : Nat} {l : List (Nat × α)} {k : Nat} (v : α) (h : sparseWf dflt bound l = true)
    (hk : k < bound) : sparseWf dflt bound (sparseSet dflt l k v) = true := by
  obtain ⟨h1, h2⟩ := (sparseWf_iff dflt).1 h
  rw [sparseWf_iff]
  unfold sparseSet
  split
  · exact ⟨sparseRising_erase k h1, fun p hp => h2 p (mem_sparseErase.1 hp).1⟩
  · next hv =>
    refine ⟨sparseRising_insert k v (sparseRising_erase k h1) fun p hp => (mem_sparseErase.1 hp).2, fun p hp => ?_⟩
    rcases mem_sparseInsert.1 hp with rfl | hp
    · exact ⟨hk, hv⟩
    · exact h2 p (mem_sparseErase.1 hp).1

/-- A canonical map grows its bound freely. -/
theorem sparseWf_mono {b b' : Nat} {l : List (Nat × α)} (hb : b ≤ b') (h : sparseWf dflt b l = true) :
    sparseWf dflt b' l = true := by
  obtain ⟨h1, h2⟩ := (sparseWf_iff dflt).1 h
  exact (sparseWf_iff dflt).2 ⟨h1, fun p hp => ⟨lt_of_lt_of_le (h2 p hp).1 hb, (h2 p hp).2⟩⟩

end Sys2Proof.Machine
end

