-- ==== Sys2Proof/Laws/State.lean ====
section
/-! SUPPORT. What each update of the state does to each field: one lemma per field per update, so that no later proof unfolds a
record update. -/

namespace Sys2Proof.Machine

/-! ### setPc -/

@[simp] theorem State.setPc_x (s : State) (t : Word) : (s.setPc t).x = s.x := rfl
@[simp] theorem State.setPc_pc (s : State) (t : Word) : (s.setPc t).pc = t := rfl
@[simp] theorem State.setPc_csr (s : State) (t : Word) : (s.setPc t).csr = s.csr := rfl
@[simp] theorem State.setPc_mem (s : State) (t : Word) : (s.setPc t).mem = s.mem := rfl
@[simp] theorem State.setPc_xcel (s : State) (t : Word) : (s.setPc t).xcel = s.xcel := rfl
@[simp] theorem State.setPc_memSize (s : State) (t : Word) : (s.setPc t).memSize = s.memSize := rfl
@[simp] theorem State.setPc_haltPc (s : State) (t : Word) : (s.setPc t).haltPc = s.haltPc := rfl
@[simp] theorem State.setPc_cfg (s : State) (t : Word) : (s.setPc t).cfg = s.cfg := rfl
@[simp] theorem State.setPc_mq (s : State) (t : Word) : (s.setPc t).mq = s.mq := rfl
@[simp] theorem State.setPc_xq (s : State) (t : Word) : (s.setPc t).xq = s.xq := rfl
@[simp] theorem State.setPc_busy (s : State) (t : Word) : (s.setPc t).busy = s.busy := rfl
@[simp] theorem State.setPc_phase (s : State) (t : Word) : (s.setPc t).phase = s.phase := rfl
@[simp] theorem State.setPc_ir (s : State) (t : Word) : (s.setPc t).ir = s.ir := rfl
@[simp] theorem State.setPc_holdCtr (s : State) (t : Word) : (s.setPc t).holdCtr = s.holdCtr := rfl
@[simp] theorem State.setPc_issueCtr (s : State) (t : Word) : (s.setPc t).issueCtr = s.issueCtr := rfl
@[simp] theorem State.setPc_cyc (s : State) (t : Word) : (s.setPc t).cyc = s.cyc := rfl
@[simp] theorem State.setPc_fault (s : State) (t : Word) : (s.setPc t).fault = s.fault := rfl
@[simp] theorem State.setPc_stallDrawn (s : State) (t : Word) : (s.setPc t).stallDrawn = s.stallDrawn := rfl
@[simp] theorem State.setPc_stallLeft (s : State) (t : Word) : (s.setPc t).stallLeft = s.stallLeft := rfl

/-! ### setReg -/

@[simp] theorem State.setReg_pc (s : State) (i : RegIdx) (v : Word) : (s.setReg i v).pc = s.pc := by unfold State.setReg; split <;> rfl
@[simp] theorem State.setReg_csr (s : State) (i : RegIdx) (v : Word) : (s.setReg i v).csr = s.csr := by unfold State.setReg; split <;> rfl
@[simp] theorem State.setReg_mem (s : State) (i : RegIdx) (v : Word) : (s.setReg i v).mem = s.mem := by unfold State.setReg; split <;> rfl
@[simp] theorem State.setReg_xcel (s : State) (i : RegIdx) (v : Word) : (s.setReg i v).xcel = s.xcel := by unfold State.setReg; split <;> rfl
@[simp] theorem State.setReg_memSize (s : State) (i : RegIdx) (v : Word) : (s.setReg i v).memSize = s.memSize := by unfold State.setReg; split <;> rfl
@[simp] theorem State.setReg_haltPc (s : State) (i : RegIdx) (v : Word) : (s.setReg i v).haltPc = s.haltPc := by unfold State.setReg; split <;> rfl
@[simp] theorem State.setReg_cfg (s : State) (i : RegIdx) (v : Word) : (s.setReg i v).cfg = s.cfg := by unfold State.setReg; split <;> rfl
@[simp] theorem State.setReg_mq (s : State) (i : RegIdx) (v : Word) : (s.setReg i v).mq = s.mq := by unfold State.setReg; split <;> rfl
@[simp] theorem State.setReg_xq (s : State) (i : RegIdx) (v : Word) : (s.setReg i v).xq = s.xq := by unfold State.setReg; split <;> rfl
@[simp] theorem State.setReg_busy (s : State) (i : RegIdx) (v : Word) : (s.setReg i v).busy = s.busy := by unfold State.setReg; split <;> rfl
@[simp] theorem State.setReg_phase (s : State) (i : RegIdx) (v : Word) : (s.setReg i v).phase = s.phase := by unfold State.setReg; split <;> rfl
@[simp] theorem State.setReg_ir (s : State) (i : RegIdx) (v : Word) : (s.setReg i v).ir = s.ir := by unfold State.setReg; split <;> rfl
@[simp] theorem State.setReg_holdCtr (s : State) (i : RegIdx) (v : Word) : (s.setReg i v).holdCtr = s.holdCtr := by unfold State.setReg; split <;> rfl
@[simp] theorem State.setReg_issueCtr (s : State) (i : RegIdx) (v : Word) : (s.setReg i v).issueCtr = s.issueCtr := by unfold State.setReg; split <;> rfl
@[simp] theorem State.setReg_cyc (s : State) (i : RegIdx) (v : Word) : (s.setReg i v).cyc = s.cyc := by unfold State.setReg; split <;> rfl
@[simp] theorem State.setReg_fault (s : State) (i : RegIdx) (v : Word) : (s.setReg i v).fault = s.fault := by unfold State.setReg; split <;> rfl
@[simp] theorem State.setReg_stallDrawn (s : State) (i : RegIdx) (v : Word) : (s.setReg i v).stallDrawn = s.stallDrawn := by unfold State.setReg; split <;> rfl
@[simp] theorem State.setReg_stallLeft (s : State) (i : RegIdx) (v : Word) : (s.setReg i v).stallLeft = s.stallLeft := by unfold State.setReg; split <;> rfl

/-! ### csrWrite -/

@[simp] theorem State.csrWrite_x (s : State) (k : CsrIdx) (v : Word) : (s.csrWrite k v).x = s.x := rfl
@[simp] theorem State.csrWrite_pc (s : State) (k : CsrIdx) (v : Word) : (s.csrWrite k v).pc = s.pc := rfl
@[simp] theorem State.csrWrite_csr (s : State) (k : CsrIdx) (v : Word) : (s.csrWrite k v).csr = sparseSet 0x00000000#32 s.csr k.toNat v := rfl
@[simp] theorem State.csrWrite_mem (s : State) (k : CsrIdx) (v : Word) : (s.csrWrite k v).mem = s.mem := rfl
@[simp] theorem State.csrWrite_xcel (s : State) (k : CsrIdx) (v : Word) : (s.csrWrite k v).xcel = s.xcel := rfl
@[simp] theorem State.csrWrite_memSize (s : State) (k : CsrIdx) (v : Word) : (s.csrWrite k v).memSize = s.memSize := rfl
@[simp] theorem State.csrWrite_haltPc (s : State) (k : CsrIdx) (v : Word) : (s.csrWrite k v).haltPc = s.haltPc := rfl
@[simp] theorem State.csrWrite_cfg (s : State) (k : CsrIdx) (v : Word) : (s.csrWrite k v).cfg = s.cfg := rfl
@[simp] theorem State.csrWrite_mq (s : State) (k : CsrIdx) (v : Word) : (s.csrWrite k v).mq = s.mq := rfl
@[simp] theorem State.csrWrite_xq (s : State) (k : CsrIdx) (v : Word) : (s.csrWrite k v).xq = s.xq := rfl
@[simp] theorem State.csrWrite_busy (s : State) (k : CsrIdx) (v : Word) : (s.csrWrite k v).busy = s.busy := rfl
@[simp] theorem State.csrWrite_phase (s : State) (k : CsrIdx) (v : Word) : (s.csrWrite k v).phase = s.phase := rfl
@[simp] theorem State.csrWrite_ir (s : State) (k : CsrIdx) (v : Word) : (s.csrWrite k v).ir = s.ir := rfl
@[simp] theorem State.csrWrite_holdCtr (s : State) (k : CsrIdx) (v : Word) : (s.csrWrite k v).holdCtr = s.holdCtr := rfl
@[simp] theorem State.csrWrite_issueCtr (s : State) (k : CsrIdx) (v : Word) : (s.csrWrite k v).issueCtr = s.issueCtr := rfl
@[simp] theorem State.csrWrite_cyc (s : State) (k : CsrIdx) (v : Word) : (s.csrWrite k v).cyc = s.cyc := rfl
@[simp] theorem State.csrWrite_fault (s : State) (k : CsrIdx) (v : Word) : (s.csrWrite k v).fault = s.fault := rfl
@[simp] theorem State.csrWrite_stallDrawn (s : State) (k : CsrIdx) (v : Word) : (s.csrWrite k v).stallDrawn = s.stallDrawn := rfl
@[simp] theorem State.csrWrite_stallLeft (s : State) (k : CsrIdx) (v : Word) : (s.csrWrite k v).stallLeft = s.stallLeft := rfl

/-! ### memWrite -/

@[simp] theorem State.memWrite_x (s : State) (a v : Word) : (s.memWrite a v).x = s.x := rfl
@[simp] theorem State.memWrite_pc (s : State) (a v : Word) : (s.memWrite a v).pc = s.pc := rfl
@[simp] theorem State.memWrite_csr (s : State) (a v : Word) : (s.memWrite a v).csr = s.csr := rfl
@[simp] theorem State.memWrite_mem (s : State) (a v : Word) : (s.memWrite a v).mem = memSetWord s.mem a.toNat v := rfl
@[simp] theorem State.memWrite_xcel (s : State) (a v : Word) : (s.memWrite a v).xcel = s.xcel := rfl
@[simp] theorem State.memWrite_memSize (s : State) (a v : Word) : (s.memWrite a v).memSize = s.memSize := rfl
@[simp] theorem State.memWrite_haltPc (s : State) (a v : Word) : (s.memWrite a v).haltPc = s.haltPc := rfl
@[simp] theorem State.memWrite_cfg (s : State) (a v : Word) : (s.memWrite a v).cfg = s.cfg := rfl
@[simp] theorem State.memWrite_mq (s : State) (a v : Word) : (s.memWrite a v).mq = s.mq := rfl
@[simp] theorem State.memWrite_xq (s : State) (a v : Word) : (s.memWrite a v).xq = s.xq := rfl
@[simp] theorem State.memWrite_busy (s : State) (a v : Word) : (s.memWrite a v).busy = s.busy := rfl
@[simp] theorem State.memWrite_phase (s : State) (a v : Word) : (s.memWrite a v).phase = s.phase := rfl
@[simp] theorem State.memWrite_ir (s : State) (a v : Word) : (s.memWrite a v).ir = s.ir := rfl
@[simp] theorem State.memWrite_holdCtr (s : State) (a v : Word) : (s.memWrite a v).holdCtr = s.holdCtr := rfl
@[simp] theorem State.memWrite_issueCtr (s : State) (a v : Word) : (s.memWrite a v).issueCtr = s.issueCtr := rfl
@[simp] theorem State.memWrite_cyc (s : State) (a v : Word) : (s.memWrite a v).cyc = s.cyc := rfl
@[simp] theorem State.memWrite_fault (s : State) (a v : Word) : (s.memWrite a v).fault = s.fault := rfl
@[simp] theorem State.memWrite_stallDrawn (s : State) (a v : Word) : (s.memWrite a v).stallDrawn = s.stallDrawn := rfl
@[simp] theorem State.memWrite_stallLeft (s : State) (a v : Word) : (s.memWrite a v).stallLeft = s.stallLeft := rfl

/-! ### xcelRead -/

@[simp] theorem State.xcelRead_x (s : State) (r : XcelIdx) : ((s.xcelRead r).2).x = s.x := rfl
@[simp] theorem State.xcelRead_pc (s : State) (r : XcelIdx) : ((s.xcelRead r).2).pc = s.pc := rfl
@[simp] theorem State.xcelRead_csr (s : State) (r : XcelIdx) : ((s.xcelRead r).2).csr = s.csr := rfl
@[simp] theorem State.xcelRead_mem (s : State) (r : XcelIdx) : ((s.xcelRead r).2).mem = s.mem := rfl
@[simp] theorem State.xcelRead_xcel (s : State) (r : XcelIdx) : ((s.xcelRead r).2).xcel = (s.xcel.read r).2 := rfl
@[simp] theorem State.xcelRead_memSize (s : State) (r : XcelIdx) : ((s.xcelRead r).2).memSize = s.memSize := rfl
@[simp] theorem State.xcelRead_haltPc (s : State) (r : XcelIdx) : ((s.xcelRead r).2).haltPc = s.haltPc := rfl
@[simp] theorem State.xcelRead_cfg (s : State) (r : XcelIdx) : ((s.xcelRead r).2).cfg = s.cfg := rfl
@[simp] theorem State.xcelRead_mq (s : State) (r : XcelIdx) : ((s.xcelRead r).2).mq = s.mq := rfl
@[simp] theorem State.xcelRead_xq (s : State) (r : XcelIdx) : ((s.xcelRead r).2).xq = s.xq := rfl
@[simp] theorem State.xcelRead_busy (s : State) (r : XcelIdx) : ((s.xcelRead r).2).busy = s.busy := rfl
@[simp] theorem State.xcelRead_phase (s : State) (r : XcelIdx) : ((s.xcelRead r).2).phase = s.phase := rfl
@[simp] theorem State.xcelRead_ir (s : State) (r : XcelIdx) : ((s.xcelRead r).2).ir = s.ir := rfl
@[simp] theorem State.xcelRead_holdCtr (s : State) (r : XcelIdx) : ((s.xcelRead r).2).holdCtr = s.holdCtr := rfl
@[simp] theorem State.xcelRead_issueCtr (s : State) (r : XcelIdx) : ((s.xcelRead r).2).issueCtr = s.issueCtr := rfl
@[simp] theorem State.xcelRead_cyc (s : State) (r : XcelIdx) : ((s.xcelRead r).2).cyc = s.cyc := rfl
@[simp] theorem State.xcelRead_fault (s : State) (r : XcelIdx) : ((s.xcelRead r).2).fault = s.fault := rfl
@[simp] theorem State.xcelRead_stallDrawn (s : State) (r : XcelIdx) : ((s.xcelRead r).2).stallDrawn = s.stallDrawn := rfl
@[simp] theorem State.xcelRead_stallLeft (s : State) (r : XcelIdx) : ((s.xcelRead r).2).stallLeft = s.stallLeft := rfl

/-! ### xcelWrite -/

@[simp] theorem State.xcelWrite_x (s : State) (r : XcelIdx) (v : Word) : (s.xcelWrite r v).x = s.x := rfl
@[simp] theorem State.xcelWrite_pc (s : State) (r : XcelIdx) (v : Word) : (s.xcelWrite r v).pc = s.pc := rfl
@[simp] theorem State.xcelWrite_csr (s : State) (r : XcelIdx) (v : Word) : (s.xcelWrite r v).csr = s.csr := rfl
@[simp] theorem State.xcelWrite_mem (s : State) (r : XcelIdx) (v : Word) : (s.xcelWrite r v).mem = s.mem := rfl
@[simp] theorem State.xcelWrite_xcel (s : State) (r : XcelIdx) (v : Word) : (s.xcelWrite r v).xcel = s.xcel.write r v := rfl
@[simp] theorem State.xcelWrite_memSize (s : State) (r : XcelIdx) (v : Word) : (s.xcelWrite r v).memSize = s.memSize := rfl
@[simp] theorem State.xcelWrite_haltPc (s : State) (r : XcelIdx) (v : Word) : (s.xcelWrite r v).haltPc = s.haltPc := rfl
@[simp] theorem State.xcelWrite_cfg (s : State) (r : XcelIdx) (v : Word) : (s.xcelWrite r v).cfg = s.cfg := rfl
@[simp] theorem State.xcelWrite_mq (s : State) (r : XcelIdx) (v : Word) : (s.xcelWrite r v).mq = s.mq := rfl
@[simp] theorem State.xcelWrite_xq (s : State) (r : XcelIdx) (v : Word) : (s.xcelWrite r v).xq = s.xq := rfl
@[simp] theorem State.xcelWrite_busy (s : State) (r : XcelIdx) (v : Word) : (s.xcelWrite r v).busy = s.busy := rfl
@[simp] theorem State.xcelWrite_phase (s : State) (r : XcelIdx) (v : Word) : (s.xcelWrite r v).phase = s.phase := rfl
@[simp] theorem State.xcelWrite_ir (s : State) (r : XcelIdx) (v : Word) : (s.xcelWrite r v).ir = s.ir := rfl
@[simp] theorem State.xcelWrite_holdCtr (s : State) (r : XcelIdx) (v : Word) : (s.xcelWrite r v).holdCtr = s.holdCtr := rfl
@[simp] theorem State.xcelWrite_issueCtr (s : State) (r : XcelIdx) (v : Word) : (s.xcelWrite r v).issueCtr = s.issueCtr := rfl
@[simp] theorem State.xcelWrite_cyc (s : State) (r : XcelIdx) (v : Word) : (s.xcelWrite r v).cyc = s.cyc := rfl
@[simp] theorem State.xcelWrite_fault (s : State) (r : XcelIdx) (v : Word) : (s.xcelWrite r v).fault = s.fault := rfl
@[simp] theorem State.xcelWrite_stallDrawn (s : State) (r : XcelIdx) (v : Word) : (s.xcelWrite r v).stallDrawn = s.stallDrawn := rfl
@[simp] theorem State.xcelWrite_stallLeft (s : State) (r : XcelIdx) (v : Word) : (s.xcelWrite r v).stallLeft = s.stallLeft := rfl

/-! ### setBusy -/

@[simp] theorem State.setBusy_x (s : State) (r : RegIdx) (b : Bool) : (s.setBusy r b).x = s.x := by unfold State.setBusy; split <;> rfl
@[simp] theorem State.setBusy_pc (s : State) (r : RegIdx) (b : Bool) : (s.setBusy r b).pc = s.pc := by unfold State.setBusy; split <;> rfl
@[simp] theorem State.setBusy_csr (s : State) (r : RegIdx) (b : Bool) : (s.setBusy r b).csr = s.csr := by unfold State.setBusy; split <;> rfl
@[simp] theorem State.setBusy_mem (s : State) (r : RegIdx) (b : Bool) : (s.setBusy r b).mem = s.mem := by unfold State.setBusy; split <;> rfl
@[simp] theorem State.setBusy_xcel (s : State) (r : RegIdx) (b : Bool) : (s.setBusy r b).xcel = s.xcel := by unfold State.setBusy; split <;> rfl
@[simp] theorem State.setBusy_memSize (s : State) (r : RegIdx) (b : Bool) : (s.setBusy r b).memSize = s.memSize := by unfold State.setBusy; split <;> rfl
@[simp] theorem State.setBusy_haltPc (s : State) (r : RegIdx) (b : Bool) : (s.setBusy r b).haltPc = s.haltPc := by unfold State.setBusy; split <;> rfl
@[simp] theorem State.setBusy_cfg (s : State) (r : RegIdx) (b : Bool) : (s.setBusy r b).cfg = s.cfg := by unfold State.setBusy; split <;> rfl
@[simp] theorem State.setBusy_mq (s : State) (r : RegIdx) (b : Bool) : (s.setBusy r b).mq = s.mq := by unfold State.setBusy; split <;> rfl
@[simp] theorem State.setBusy_xq (s : State) (r : RegIdx) (b : Bool) : (s.setBusy r b).xq = s.xq := by unfold State.setBusy; split <;> rfl
@[simp] theorem State.setBusy_phase (s : State) (r : RegIdx) (b : Bool) : (s.setBusy r b).phase = s.phase := by unfold State.setBusy; split <;> rfl
@[simp] theorem State.setBusy_ir (s : State) (r : RegIdx) (b : Bool) : (s.setBusy r b).ir = s.ir := by unfold State.setBusy; split <;> rfl
@[simp] theorem State.setBusy_holdCtr (s : State) (r : RegIdx) (b : Bool) : (s.setBusy r b).holdCtr = s.holdCtr := by unfold State.setBusy; split <;> rfl
@[simp] theorem State.setBusy_issueCtr (s : State) (r : RegIdx) (b : Bool) : (s.setBusy r b).issueCtr = s.issueCtr := by unfold State.setBusy; split <;> rfl
@[simp] theorem State.setBusy_cyc (s : State) (r : RegIdx) (b : Bool) : (s.setBusy r b).cyc = s.cyc := by unfold State.setBusy; split <;> rfl
@[simp] theorem State.setBusy_fault (s : State) (r : RegIdx) (b : Bool) : (s.setBusy r b).fault = s.fault := by unfold State.setBusy; split <;> rfl
@[simp] theorem State.setBusy_stallDrawn (s : State) (r : RegIdx) (b : Bool) : (s.setBusy r b).stallDrawn = s.stallDrawn := by unfold State.setBusy; split <;> rfl
@[simp] theorem State.setBusy_stallLeft (s : State) (r : RegIdx) (b : Bool) : (s.setBusy r b).stallLeft = s.stallLeft := by unfold State.setBusy; split <;> rfl

/-! ### enterFault -/

@[simp] theorem State.enterFault_x (s : State) (f : Fault) : (s.enterFault f).x = s.x := rfl
@[simp] theorem State.enterFault_pc (s : State) (f : Fault) : (s.enterFault f).pc = s.pc := rfl
@[simp] theorem State.enterFault_csr (s : State) (f : Fault) : (s.enterFault f).csr = s.csr := rfl
@[simp] theorem State.enterFault_mem (s : State) (f : Fault) : (s.enterFault f).mem = s.mem := rfl
@[simp] theorem State.enterFault_xcel (s : State) (f : Fault) : (s.enterFault f).xcel = s.xcel := rfl
@[simp] theorem State.enterFault_memSize (s : State) (f : Fault) : (s.enterFault f).memSize = s.memSize := rfl
@[simp] theorem State.enterFault_haltPc (s : State) (f : Fault) : (s.enterFault f).haltPc = s.haltPc := rfl
@[simp] theorem State.enterFault_cfg (s : State) (f : Fault) : (s.enterFault f).cfg = s.cfg := rfl
@[simp] theorem State.enterFault_mq (s : State) (f : Fault) : (s.enterFault f).mq = s.mq := rfl
@[simp] theorem State.enterFault_xq (s : State) (f : Fault) : (s.enterFault f).xq = s.xq := rfl
@[simp] theorem State.enterFault_busy (s : State) (f : Fault) : (s.enterFault f).busy = s.busy := rfl
@[simp] theorem State.enterFault_phase (s : State) (f : Fault) : (s.enterFault f).phase = .faulted := rfl
@[simp] theorem State.enterFault_ir (s : State) (f : Fault) : (s.enterFault f).ir = s.ir := rfl
@[simp] theorem State.enterFault_holdCtr (s : State) (f : Fault) : (s.enterFault f).holdCtr = s.holdCtr := rfl
@[simp] theorem State.enterFault_issueCtr (s : State) (f : Fault) : (s.enterFault f).issueCtr = s.issueCtr := rfl
@[simp] theorem State.enterFault_cyc (s : State) (f : Fault) : (s.enterFault f).cyc = s.cyc := rfl
@[simp] theorem State.enterFault_fault (s : State) (f : Fault) : (s.enterFault f).fault = some f := rfl
@[simp] theorem State.enterFault_stallDrawn (s : State) (f : Fault) : (s.enterFault f).stallDrawn = s.stallDrawn := rfl
@[simp] theorem State.enterFault_stallLeft (s : State) (f : Fault) : (s.enterFault f).stallLeft = s.stallLeft := rfl

/-! ### performXcel -/

@[simp] theorem State.performXcel_pc (s : State) (q : XcelRecord) : (s.performXcel q).pc = s.pc := by unfold State.performXcel; split <;> simp
@[simp] theorem State.performXcel_csr (s : State) (q : XcelRecord) : (s.performXcel q).csr = s.csr := by unfold State.performXcel; split <;> simp
@[simp] theorem State.performXcel_mem (s : State) (q : XcelRecord) : (s.performXcel q).mem = s.mem := by unfold State.performXcel; split <;> simp
@[simp] theorem State.performXcel_memSize (s : State) (q : XcelRecord) : (s.performXcel q).memSize = s.memSize := by unfold State.performXcel; split <;> simp
@[simp] theorem State.performXcel_haltPc (s : State) (q : XcelRecord) : (s.performXcel q).haltPc = s.haltPc := by unfold State.performXcel; split <;> simp
@[simp] theorem State.performXcel_cfg (s : State) (q : XcelRecord) : (s.performXcel q).cfg = s.cfg := by unfold State.performXcel; split <;> simp
@[simp] theorem State.performXcel_mq (s : State) (q : XcelRecord) : (s.performXcel q).mq = s.mq := by unfold State.performXcel; split <;> simp
@[simp] theorem State.performXcel_xq (s : State) (q : XcelRecord) : (s.performXcel q).xq = s.xq := by unfold State.performXcel; split <;> simp
@[simp] theorem State.performXcel_busy (s : State) (q : XcelRecord) : (s.performXcel q).busy = s.busy := by unfold State.performXcel; split <;> simp
@[simp] theorem State.performXcel_phase (s : State) (q : XcelRecord) : (s.performXcel q).phase = s.phase := by unfold State.performXcel; split <;> simp
@[simp] theorem State.performXcel_ir (s : State) (q : XcelRecord) : (s.performXcel q).ir = s.ir := by unfold State.performXcel; split <;> simp
@[simp] theorem State.performXcel_holdCtr (s : State) (q : XcelRecord) : (s.performXcel q).holdCtr = s.holdCtr := by unfold State.performXcel; split <;> simp
@[simp] theorem State.performXcel_issueCtr (s : State) (q : XcelRecord) : (s.performXcel q).issueCtr = s.issueCtr := by unfold State.performXcel; split <;> simp
@[simp] theorem State.performXcel_cyc (s : State) (q : XcelRecord) : (s.performXcel q).cyc = s.cyc := by unfold State.performXcel; split <;> simp
@[simp] theorem State.performXcel_fault (s : State) (q : XcelRecord) : (s.performXcel q).fault = s.fault := by unfold State.performXcel; split <;> simp
@[simp] theorem State.performXcel_stallDrawn (s : State) (q : XcelRecord) : (s.performXcel q).stallDrawn = s.stallDrawn := by unfold State.performXcel; split <;> simp
@[simp] theorem State.performXcel_stallLeft (s : State) (q : XcelRecord) : (s.performXcel q).stallLeft = s.stallLeft := by unfold State.performXcel; split <;> simp

/-! ### deliverHead -/

@[simp] theorem State.deliverHead_x (s : State) (q : XcelRecord) : (s.deliverHead q).x = (s.performXcel q).x := by unfold State.deliverHead State.setBusy; split <;> simp
@[simp] theorem State.deliverHead_pc (s : State) (q : XcelRecord) : (s.deliverHead q).pc = s.pc := by unfold State.deliverHead State.setBusy; split <;> simp
@[simp] theorem State.deliverHead_csr (s : State) (q : XcelRecord) : (s.deliverHead q).csr = s.csr := by unfold State.deliverHead State.setBusy; split <;> simp
@[simp] theorem State.deliverHead_mem (s : State) (q : XcelRecord) : (s.deliverHead q).mem = s.mem := by unfold State.deliverHead State.setBusy; split <;> simp
@[simp] theorem State.deliverHead_xcel (s : State) (q : XcelRecord) : (s.deliverHead q).xcel = (s.performXcel q).xcel := by unfold State.deliverHead State.setBusy; split <;> simp
@[simp] theorem State.deliverHead_memSize (s : State) (q : XcelRecord) : (s.deliverHead q).memSize = s.memSize := by unfold State.deliverHead State.setBusy; split <;> simp
@[simp] theorem State.deliverHead_haltPc (s : State) (q : XcelRecord) : (s.deliverHead q).haltPc = s.haltPc := by unfold State.deliverHead State.setBusy; split <;> simp
@[simp] theorem State.deliverHead_cfg (s : State) (q : XcelRecord) : (s.deliverHead q).cfg = s.cfg := by unfold State.deliverHead State.setBusy; split <;> simp
@[simp] theorem State.deliverHead_mq (s : State) (q : XcelRecord) : (s.deliverHead q).mq = s.mq := by unfold State.deliverHead State.setBusy; split <;> simp
@[simp] theorem State.deliverHead_xq (s : State) (q : XcelRecord) : (s.deliverHead q).xq = s.xq.tail := by unfold State.deliverHead State.setBusy; split <;> simp
@[simp] theorem State.deliverHead_busy (s : State) (q : XcelRecord) : (s.deliverHead q).busy = (s.setBusy q.rd false).busy := by unfold State.deliverHead State.setBusy; split <;> simp
@[simp] theorem State.deliverHead_phase (s : State) (q : XcelRecord) : (s.deliverHead q).phase = s.phase := by unfold State.deliverHead State.setBusy; split <;> simp
@[simp] theorem State.deliverHead_ir (s : State) (q : XcelRecord) : (s.deliverHead q).ir = s.ir := by unfold State.deliverHead State.setBusy; split <;> simp
@[simp] theorem State.deliverHead_holdCtr (s : State) (q : XcelRecord) : (s.deliverHead q).holdCtr = s.holdCtr := by unfold State.deliverHead State.setBusy; split <;> simp
@[simp] theorem State.deliverHead_issueCtr (s : State) (q : XcelRecord) : (s.deliverHead q).issueCtr = s.issueCtr := by unfold State.deliverHead State.setBusy; split <;> simp
@[simp] theorem State.deliverHead_cyc (s : State) (q : XcelRecord) : (s.deliverHead q).cyc = s.cyc := by unfold State.deliverHead State.setBusy; split <;> simp
@[simp] theorem State.deliverHead_fault (s : State) (q : XcelRecord) : (s.deliverHead q).fault = s.fault := by unfold State.deliverHead State.setBusy; split <;> simp
@[simp] theorem State.deliverHead_stallDrawn (s : State) (q : XcelRecord) : (s.deliverHead q).stallDrawn = s.stallDrawn := by unfold State.deliverHead State.setBusy; split <;> simp
@[simp] theorem State.deliverHead_stallLeft (s : State) (q : XcelRecord) : (s.deliverHead q).stallLeft = s.stallLeft := by unfold State.deliverHead State.setBusy; split <;> simp

end Sys2Proof.Machine
end

