-- ==== Sys2Proof/Laws/Ops.lean ====
section
/-! SUPPORT. The shared operations: registers, CSRs, memory bytes and words, the access check, and that every memory operation
keeps the canonical form. -/

namespace Sys2Proof.Machine

/-! ### Registers (spec/10_state.md R21, R22) -/

@[simp] theorem State.reg_zero (s : State) : s.reg 0#5 = 0x00000000#32 := rfl

/-- A register read depends on the register file alone. -/
theorem State.reg_congr {s t : State} (h : s.x = t.x) (i : RegIdx) : s.reg i = t.reg i := by
  simp only [State.reg, h]

@[simp] theorem State.setReg_zero (s : State) (v : Word) : s.setReg 0#5 v = s := rfl

theorem State.setReg_x {s : State} {i : RegIdx} (h : i ≠ 0#5) (v : Word) :
    (s.setReg i v).x = s.x.set i.toNat v i.isLt := by
  simp [State.setReg, h]

/-- Reading a register after writing one: x0 reads 0, the written register its new value, every other its old one. -/
theorem State.reg_setReg (s : State) (i j : RegIdx) (v : Word) :
    (s.setReg i v).reg j = if j = 0#5 then 0x00000000#32 else if j = i then v else s.reg j := by
  by_cases hj : j = 0#5
  · simp [State.reg, hj]
  by_cases hi : i = 0#5
  · subst hi; simp [State.reg, hj]
  · by_cases h : j = i
    · subst h
      simp [State.reg, State.setReg, hj]
    · have hn : i.toNat ≠ j.toNat := fun e => h (BitVec.eq_of_toNat_eq e.symm)
      simp [State.reg, State.setReg, hj, hi, h, hn]

theorem State.reg_setReg_of_ne (s : State) {i j : RegIdx} (h : j ≠ i) (v : Word) : (s.setReg i v).reg j = s.reg j := by
  rw [State.reg_setReg]
  split
  · next hj => subst hj; rfl
  · rfl

@[simp] theorem State.reg_setPc (s : State) (t : Word) (i : RegIdx) : (s.setPc t).reg i = s.reg i := rfl

@[simp] theorem State.reg_csrWrite (s : State) (k : CsrIdx) (v : Word) (i : RegIdx) :
    (s.csrWrite k v).reg i = s.reg i := rfl

@[simp] theorem State.reg_memWrite (s : State) (a v : Word) (i : RegIdx) : (s.memWrite a v).reg i = s.reg i := rfl

@[simp] theorem State.reg_xcelWrite (s : State) (r : XcelIdx) (v : Word) (i : RegIdx) :
    (s.xcelWrite r v).reg i = s.reg i := rfl

@[simp] theorem State.reg_xcelRead (s : State) (r : XcelIdx) (i : RegIdx) : (s.xcelRead r).2.reg i = s.reg i := rfl

/-- Writes to two different registers commute. -/
theorem State.setReg_comm (s : State) {i j : RegIdx} (h : i ≠ j) (v w : Word) :
    (s.setReg i v).setReg j w = (s.setReg j w).setReg i v := by
  by_cases hi : i = 0#5
  · subst hi; rfl
  by_cases hj : j = 0#5
  · subst hj; rfl
  have hn : i.toNat ≠ j.toNat := fun e => h (BitVec.eq_of_toNat_eq e)
  simp [State.setReg, hi, hj, Vector.set_comm _ _ hn]

/-! ### CSRs (R30, R31) -/

/-- Reading a CSR after writing one. -/
theorem State.csrRead_csrWrite (s : State) (k j : CsrIdx) (v : Word) :
    (s.csrWrite k v).csrRead j = if j = k then v else s.csrRead j := by
  simp only [State.csrRead, State.csrWrite_csr, sparseGet_set, BitVec.toNat_inj]

/-! ### Memory (20_memory.md R56, R57) -/

theorem sparseGet_memSet (m : List Host.Cell) (a j : Nat) (b : Byte) :
    sparseGet unlistedByte (memSet m a b) j = if j = a then b else sparseGet unlistedByte m j :=
  sparseGet_set _ m a j b

/-- Every byte after a word write: the four bytes of the word, and the old byte everywhere else. -/
theorem sparseGet_memSetWord (m : List Host.Cell) (a j : Nat) (v : Word) :
    sparseGet unlistedByte (memSetWord m a v) j =
      if j = a then wordByte v 0 else if j = a + 1 then wordByte v 1 else if j = a + 2 then wordByte v 2
      else if j = a + 3 then wordByte v 3 else sparseGet unlistedByte m j := by
  unfold memSetWord
  simp only [sparseGet_memSet]
  by_cases h0 : j = a
  · subst h0; simp
  by_cases h1 : j = a + 1
  · subst h1; simp
  by_cases h2 : j = a + 2
  · subst h2; simp
  simp [h0, h1, h2]

theorem State.byte_memWrite (s : State) (a v : Word) (j : Nat) :
    (s.memWrite a v).byte j =
      if j = a.toNat then wordByte v 0 else if j = a.toNat + 1 then wordByte v 1
      else if j = a.toNat + 2 then wordByte v 2 else if j = a.toNat + 3 then wordByte v 3 else s.byte j :=
  sparseGet_memSetWord s.mem a.toNat j v

/-- A byte outside the stored word reads as before. -/
theorem State.byte_memWrite_of_out (s : State) (a v : Word) (j : Nat) (h : j < a.toNat ∨ a.toNat + 4 ≤ j) :
    (s.memWrite a v).byte j = s.byte j := by
  rw [State.byte_memWrite]
  rw [if_neg (by omega), if_neg (by omega), if_neg (by omega), if_neg (by omega)]

/-- A word read depends on memory alone. -/
theorem State.memRead_congr {s t : State} (h : s.mem = t.mem) (a : Word) : s.memRead a = t.memRead a := by
  simp only [State.memRead, State.word, State.byte, h]

/-- A word read at the address just written gives the word. -/
@[simp] theorem State.memRead_memWrite_same (s : State) (a v : Word) : (s.memWrite a v).memRead a = v := by
  unfold State.memRead State.word
  simp only [State.byte_memWrite]
  simp

/-- A word read apart from the word just written gives what it gave. -/
theorem State.memRead_memWrite_of_apart (s : State) (a b v : Word)
    (h : b.toNat + 4 ≤ a.toNat ∨ a.toNat + 4 ≤ b.toNat) : (s.memWrite a v).memRead b = s.memRead b := by
  unfold State.memRead State.word
  rw [State.byte_memWrite_of_out _ _ _ _ (by omega), State.byte_memWrite_of_out _ _ _ _ (by omega),
    State.byte_memWrite_of_out _ _ _ _ (by omega), State.byte_memWrite_of_out _ _ _ _ (by omega)]

/-- One byte written inside memory keeps the canonical form. -/
theorem memWf_memSet {n : Nat} {m : List Host.Cell} (h : Memory.wf n m = true) {a : Nat} (ha : a < n) (b : Byte) :
    Memory.wf n (memSet m a b) = true :=
  sparseWf_set _ b h ha

/-- A word written inside memory keeps the canonical form. -/
theorem memWf_memSetWord {n : Nat} {m : List Host.Cell} (h : Memory.wf n m = true) {a : Nat} (ha : a + 4 ≤ n) (v : Word) :
    Memory.wf n (memSetWord m a v) = true := by
  unfold memSetWord
  exact memWf_memSet (memWf_memSet (memWf_memSet (memWf_memSet h (by omega) _) (by omega) _) (by omega) _) (by omega) _

/-- A CSR write keeps the canonical form of the CSRs. -/
theorem csrWf_csrWrite {s : State} (h : sparseWf 0x00000000#32 4096 s.csr = true) (k : CsrIdx) (v : Word) :
    sparseWf 0x00000000#32 4096 (s.csrWrite k v).csr = true :=
  sparseWf_set _ v h k.isLt

/-! ### The access check (R58 to R61) -/

theorem aligned4_iff (a : Word) : aligned4 a = true ↔ a.toNat % 4 = 0 := by
  unfold aligned4
  rw [decide_eq_true_iff]
  constructor
  · intro h
    have := congrArg BitVec.toNat h
    simpa [BitVec.extractLsb'_toNat] using this
  · intro h
    apply BitVec.eq_of_toNat_eq
    simpa [BitVec.extractLsb'_toNat] using h

theorem State.inRange_iff (s : State) (a : Word) : s.inRange a = true ↔ a.toNat + 4 ≤ s.memSize := by
  simp [State.inRange]

/-- The access is allowed exactly when it is aligned and in range. -/
theorem State.accessFault_none_iff (s : State) (k : Access) (a : Word) :
    s.accessFault k a = none ↔ a.toNat % 4 = 0 ∧ a.toNat + 4 ≤ s.memSize := by
  unfold State.accessFault
  rw [← aligned4_iff, ← State.inRange_iff]
  cases aligned4 a <;> cases s.inRange a <;> simp

/-- What an access that is not allowed faults with: alignment before range. -/
theorem State.accessFault_some_iff (s : State) (k : Access) (a : Word) (f : Fault) :
    s.accessFault k a = some f ↔
      (a.toNat % 4 ≠ 0 ∧ f = .alignmentFault s.pc a k) ∨
      (a.toNat % 4 = 0 ∧ s.memSize < a.toNat + 4 ∧ f = .memoryRangeFault s.pc a k) := by
  have h1 := aligned4_iff a
  have h2 := State.inRange_iff s a
  unfold State.accessFault
  cases ha : aligned4 a <;> cases hr : s.inRange a <;> simp [ha, hr] at h1 h2 ⊢ <;>
    simp [h1, eq_comm] <;> omega

/-- The check depends on pc and MEM_SIZE alone. -/
theorem State.accessFault_congr {s t : State} (hp : s.pc = t.pc) (hm : s.memSize = t.memSize) (k : Access) (a : Word) :
    s.accessFault k a = t.accessFault k a := by
  have hr : s.inRange a = t.inRange a := by unfold State.inRange; rw [hm]
  unfold State.accessFault
  rw [hr, hp]

end Sys2Proof.Machine
end

