-- ==== Sys2Proof/Laws/Exec.lean ====
section
/-! SUPPORT. What each instruction can do: if `exec` answers a next state, that state is one of the forms below; the two
instructions that can fault fault only through the access check. -/

namespace Sys2Proof.Machine

@[simp] theorem State.commit_eq (s : State) : s.commit = .next (s.setPc s.pcPlus4) := rfl

@[simp] theorem State.commitReg_eq (s : State) (rd : RegIdx) (v : Word) :
    s.commitReg rd v = .next ((s.setReg rd v).setPc s.pcPlus4) := by
  simp [State.commitReg, State.pcPlus4]

@[simp] theorem raise_eq (f : Fault) : raise f = .fault f := rfl

theorem exec_add (rd rs1 rs2 : RegIdx) (s : State) :
    exec (.add rd rs1 rs2) s = .next ((s.setReg rd (s.reg rs1 + s.reg rs2)).setPc s.pcPlus4) := by
  simp [exec, execAdd, aluY]

theorem exec_and (rd rs1 rs2 : RegIdx) (s : State) :
    exec (.and rd rs1 rs2) s = .next ((s.setReg rd (s.reg rs1 &&& s.reg rs2)).setPc s.pcPlus4) := by
  simp [exec, execAnd, aluY]

theorem exec_sll (rd rs1 rs2 : RegIdx) (s : State) :
    exec (.sll rd rs1 rs2) s =
      .next ((s.setReg rd (s.reg rs1 <<< shiftAmount (s.reg rs2))).setPc s.pcPlus4) := by
  simp [exec, execSll, aluY]

theorem exec_srl (rd rs1 rs2 : RegIdx) (s : State) :
    exec (.srl rd rs1 rs2) s =
      .next ((s.setReg rd (s.reg rs1 >>> shiftAmount (s.reg rs2))).setPc s.pcPlus4) := by
  simp [exec, execSrl, aluY]

theorem exec_addi (rd rs1 : RegIdx) (imm : BitVec 12) (s : State) :
    exec (.addi rd rs1 imm) s = .next ((s.setReg rd (s.reg rs1 + immOperand imm)).setPc s.pcPlus4) := by
  simp [exec, execAddi, aluY]

theorem exec_bne_taken {rs1 rs2 : RegIdx} {s : State} (h : s.reg rs1 ≠ s.reg rs2) (off : BitVec 13) :
    exec (.bne rs1 rs2 off) s = .next (s.setPc (s.branchTarget off)) := by
  simp [exec, execBne, aluNe, h]

theorem exec_bne_not_taken {rs1 rs2 : RegIdx} {s : State} (h : s.reg rs1 = s.reg rs2) (off : BitVec 13) :
    exec (.bne rs1 rs2 off) s = .next (s.setPc s.pcPlus4) := by
  simp [exec, execBne, aluNe, h]

theorem exec_lw_ok {s : State} {rs1 : RegIdx} {imm : BitVec 12}
    (h : s.accessFault .load (s.effectiveAddress rs1 imm) = none) (rd : RegIdx) :
    exec (.lw rd rs1 imm) s =
      .next ((s.setReg rd (s.memRead (s.effectiveAddress rs1 imm))).setPc s.pcPlus4) := by
  simp [exec, execLw, h]

theorem exec_lw_fault {s : State} {rs1 : RegIdx} {imm : BitVec 12} {f : Fault}
    (h : s.accessFault .load (s.effectiveAddress rs1 imm) = some f) (rd : RegIdx) :
    exec (.lw rd rs1 imm) s = .fault f := by
  simp [exec, execLw, h]

theorem exec_sw_ok {s : State} {rs1 : RegIdx} {imm : BitVec 12}
    (h : s.accessFault .store (s.effectiveAddress rs1 imm) = none) (rs2 : RegIdx) :
    exec (.sw rs2 rs1 imm) s =
      .next ((s.memWrite (s.effectiveAddress rs1 imm) (s.reg rs2)).setPc s.pcPlus4) := by
  simp [exec, execSw, h, State.pcPlus4]

theorem exec_sw_fault {s : State} {rs1 : RegIdx} {imm : BitVec 12} {f : Fault}
    (h : s.accessFault .store (s.effectiveAddress rs1 imm) = some f) (rs2 : RegIdx) :
    exec (.sw rs2 rs1 imm) s = .fault f := by
  simp [exec, execSw, h]

theorem exec_csrrw (rd : RegIdx) (csr : CsrIdx) (rs1 : RegIdx) (s : State) :
    exec (.csrrw rd csr rs1) s =
      .next (((s.csrWrite csr (s.reg rs1)).setReg rd (s.csrRead csr)).setPc s.pcPlus4) := by
  simp [exec, execCsrrw, State.csrSwap, State.pcPlus4]

theorem exec_csrrwi (rd : RegIdx) (csr : CsrIdx) (uimm : BitVec 5) (s : State) :
    exec (.csrrwi rd csr uimm) s =
      .next (((s.csrWrite csr (uimmOperand uimm)).setReg rd (s.csrRead csr)).setPc s.pcPlus4) := by
  simp [exec, execCsrrwi, State.csrSwap, State.pcPlus4]

theorem exec_xcelrd (rd : RegIdx) (xr : XcelIdx) (s : State) :
    exec (.xcelrd rd xr) s = .next (((s.xcelRead xr).2.setReg rd (s.xcelRead xr).1).setPc s.pcPlus4) := by
  simp [exec, execXcelrd, State.pcPlus4]

theorem exec_xcelwr (xr : XcelIdx) (rs1 : RegIdx) (s : State) :
    exec (.xcelwr xr rs1) s = .next ((s.xcelWrite xr (s.reg rs1)).setPc s.pcPlus4) := by
  simp [exec, execXcelwr, State.pcPlus4]

end Sys2Proof.Machine
end

