-- ==== Sys2Proof/Laws/Step.lean ====
section
/-! SUPPORT. The architectural step: the fetch, and every way a step can end. -/

namespace Sys2Proof.Machine

theorem State.isHalted_iff (s : State) : s.isHalted = true ↔ s.pc = s.haltPc := by
  simp [State.isHalted]

theorem State.fetchDecode_fault {s : State} {f : Fault} (h : s.accessFault .fetch s.pc = some f) :
    s.fetchDecode = .error f := by
  simp [State.fetchDecode, State.fetch, h]

theorem State.fetchDecode_illegal {s : State} (h : s.accessFault .fetch s.pc = none)
    (hd : decode (s.memRead s.pc) = none) : s.fetchDecode = .error (.illegalInstruction s.pc (s.memRead s.pc)) := by
  simp [State.fetchDecode, State.fetch, h, hd]

theorem State.fetchDecode_ok {s : State} {i : Instr} (h : s.accessFault .fetch s.pc = none)
    (hd : decode (s.memRead s.pc) = some i) : s.fetchDecode = .ok i := by
  simp [State.fetchDecode, State.fetch, h, hd]

/-- Every way a step ends (spec/10_state.md R40, R41). -/
theorem step_cases (s : State) :
    (s.pc = s.haltPc ∧ step s = .next s) ∨
    (s.pc ≠ s.haltPc ∧ ∃ f, s.accessFault .fetch s.pc = some f ∧ step s = .fault f) ∨
    (s.pc ≠ s.haltPc ∧ s.accessFault .fetch s.pc = none ∧ decode (s.memRead s.pc) = none ∧
      step s = .fault (.illegalInstruction s.pc (s.memRead s.pc))) ∨
    (s.pc ≠ s.haltPc ∧ s.accessFault .fetch s.pc = none ∧
      ∃ i, decode (s.memRead s.pc) = some i ∧ step s = exec i s) := by
  by_cases hh : s.pc = s.haltPc
  · exact .inl ⟨hh, by simp [step, State.isHalted, hh]⟩
  right
  have hn : s.isHalted = false := by simp [State.isHalted, hh]
  cases hf : s.accessFault .fetch s.pc with
  | some f => exact .inl ⟨hh, f, rfl, by simp [step, hn, State.fetchDecode_fault hf]⟩
  | none =>
    right
    cases hd : decode (s.memRead s.pc) with
    | none => exact .inl ⟨hh, rfl, rfl, by simp [step, hn, State.fetchDecode_illegal hf hd]⟩
    | some i => exact .inr ⟨hh, rfl, i, rfl, by simp [step, hn, State.fetchDecode_ok hf hd]⟩

/-- A step that is neither halted nor faults in the fetch or the decoder runs the decoded instruction. -/
theorem step_eq_exec {s : State} {i : Instr} (hh : s.pc ≠ s.haltPc) (hf : s.accessFault .fetch s.pc = none)
    (hd : decode (s.memRead s.pc) = some i) : step s = exec i s := by
  have hn : s.isHalted = false := by simp [State.isHalted, hh]
  simp [step, hn, State.fetchDecode_ok hf hd]

/-! ### Runs of steps -/

theorem core_run_zero (s : State) : core.run 0 s = .next s := rfl

theorem core_run_succ_of_next {s t : State} (h : step s = .next t) (n : Nat) : core.run (n + 1) s = core.run n t := by
  have key : ∀ (M : Host.Core) (a b : M.State), M.step a = .next b → M.run (n + 1) a = M.run n b := fun M a b hab => by
    rw [Host.Core.run, hab]
  exact key core s t h

theorem core_run_succ_of_fault {s : State} {f : Fault} (h : step s = .fault f) (n : Nat) :
    core.run (n + 1) s = .fault f := by
  have key : ∀ (M : Host.Core) (a : M.State) (g : M.Fault), M.step a = .fault g → M.run (n + 1) a = .fault g :=
    fun M a g hag => by rw [Host.Core.run, hag]
  exact key core s f h

end Sys2Proof.Machine
end

