-- ==== Sys2Proof/Laws/Tick.lean ====
section
/-! SUPPORT. The cycle level: everything a tick can do, phase by phase, and what a delivery does. -/

namespace Sys2Proof.Machine

/-! ### Scoreboard (spec/10_state.md R37) -/

@[simp] theorem State.isBusy_zero (s : State) : s.isBusy 0#5 = false := rfl

/-- A busy bit depends on the scoreboard alone. -/
theorem State.isBusy_congr {s t : State} (h : s.busy = t.busy) (r : RegIdx) : s.isBusy r = t.isBusy r := by
  simp only [State.isBusy, h]

/-- Reading a busy bit after writing one. -/
theorem State.isBusy_setBusy (s : State) (i r : RegIdx) (b : Bool) :
    (s.setBusy i b).isBusy r = if r = 0#5 then false else if r = i then b else s.isBusy r := by
  by_cases hr : r = 0#5
  · simp [State.isBusy, hr]
  by_cases hi : i = 0#5
  · subst hi; simp [State.isBusy, State.setBusy, hr]
  by_cases h : r = i
  · subst h; simp [State.isBusy, State.setBusy, hr]
  · have hn : i.toNat ≠ r.toNat := fun e => h (BitVec.eq_of_toNat_eq e.symm)
    simp [State.isBusy, State.setBusy, hr, hi, h, hn]

/-- The stall test fails exactly when no register the instruction reads or writes is busy (70_reset_and_hazards.md R236). -/
theorem State.stalls_false_iff (s : State) (i : Instr) :
    s.stalls i = false ↔ ∀ r, r ∈ i.reads ∨ r ∈ i.writes → s.isBusy r = false := by
  simp [State.stalls, or_imp, forall_and]

/-! ### Performing a record of the Accelerator Port -/

theorem State.performXcel_read {q : XcelRecord} (h : q.kind = .read) (s : State) :
    s.performXcel q = (s.xcelRead q.addr).2.setReg q.rd (s.xcelRead q.addr).1 := by
  simp [State.performXcel, h]

theorem State.performXcel_write {q : XcelRecord} (h : q.kind = .write) (s : State) :
    s.performXcel q = s.xcelWrite q.addr q.data := by
  simp [State.performXcel, h]

/-- A register that no read of the record names keeps its value. -/
theorem State.reg_performXcel_of_not_holds {q : XcelRecord} {r : RegIdx} (h : q.holds r = false) (s : State) :
    (s.performXcel q).reg r = s.reg r := by
  cases hk : q.kind with
  | read =>
    have hr : r ≠ q.rd := fun e => by simp [XcelRecord.holds, hk, e] at h
    rw [State.performXcel_read hk, State.reg_setReg_of_ne _ hr, State.reg_xcelRead]
  | write => rw [State.performXcel_write hk, State.reg_xcelWrite]

/-! ### Phases -/

theorem State.stopped_eq_false_iff (s : State) : s.stopped = false ↔ s.phase ≠ .halted ∧ s.phase ≠ .faulted := by
  simp [State.stopped]

theorem State.wantsFetch_iff (s : State) :
    s.wantsFetch = true ↔ s.phase = .fetchIssue ∧ s.holdCtr = 0 ∧ s.pc ≠ s.haltPc := by
  simp [State.wantsFetch, State.isHalted, and_assoc]

/-- The instruction that acts is decoded from `ir` in EXECUTE and not stalled. -/
theorem State.acting_eq_some_iff (s : State) (i : Instr) :
    s.acting = some i ↔ s.phase = .execute ∧ decode s.ir = some i ∧ s.stalls i = false := by
  unfold State.acting
  by_cases hp : s.phase = .execute
  · cases hd : decode s.ir with
    | none => simp [hp]
    | some j =>
      by_cases h : j = i
      · subst h; cases hs : s.stalls j <;> simp [hp, hs]
      · cases hs : s.stalls j <;> simp [hp, hs, h]
  · simp [hp]

/-! ### The fault of a cycle -/

theorem State.coreFault_fetchIssue {s : State} (h : s.phase = .fetchIssue) :
    s.coreFault = if s.wantsFetch && !s.stallDrawn then s.accessFault .fetch s.pc else none := by
  simp [State.coreFault, h]

theorem State.coreFault_illegal {s : State} (h : s.phase = .execute) (hd : decode s.ir = none) :
    s.coreFault = some (.illegalInstruction s.pc s.ir) := by
  simp [State.coreFault, h, hd]

theorem State.coreFault_waiting {s : State} {i : Instr} (h : s.phase = .execute) (hd : decode s.ir = some i)
    (hs : s.stalls i = true ∨ s.stallDrawn = true) : s.coreFault = none := by
  rcases hs with hs | hs <;> simp [State.coreFault, h, hd, hs]

theorem State.coreFault_data {s : State} {i : Instr} {r : MemRequest} (h : s.phase = .execute) (hd : decode s.ir = some i)
    (hs : s.stalls i = false) (hsd : s.stallDrawn = false) (hr : s.dataRequest i = some r) :
    s.coreFault = s.accessFault r.access r.addr := by
  simp [State.coreFault, h, hd, hs, hsd, hr]

theorem State.coreFault_noData {s : State} {i : Instr} (h : s.phase = .execute) (hd : decode s.ir = some i)
    (hr : s.dataRequest i = none) : s.coreFault = none := by
  cases hs : s.stalls i <;> cases hsd : s.stallDrawn <;> simp [State.coreFault, h, hd, hs, hsd, hr]

/-! ### The arbiter -/

/-- In FETCH_ISSUE, with nothing in flight and no fault, the fetch is presented. -/
theorem State.arbiter_fetch {s : State} (hw : s.wantsFetch = true) (hf : s.coreFault = none) (hm : s.mq = []) :
    s.arbiter = some { kind := .read, addr := s.pc, data := 0x00000000#32, rd := 0#5 } := by
  have hp := ((State.wantsFetch_iff s).1 hw).1
  have ha : s.acting = none := by simp [State.acting, hp]
  simp [State.arbiter, hm, Config.memDepth, State.loadStoreRequest, hf, ha, State.fetchRequest, hw]

/-- In EXECUTE, with nothing in flight and no fault, the data request of the acting instruction is presented. -/
theorem State.arbiter_data {s : State} {i : Instr} (ha : s.acting = some i) (hf : s.coreFault = none) (hm : s.mq = []) :
    s.arbiter = s.dataRequest i := by
  have hp := ((State.acting_eq_some_iff s i).1 ha).1
  have hw : s.wantsFetch = false := by simp [State.wantsFetch, hp]
  simp only [State.arbiter, hm, Config.memDepth, State.loadStoreRequest, hf, ha, State.fetchRequest, hw]
  cases s.dataRequest i <;> simp

/-- Nothing is presented while a record is in flight. -/
theorem State.arbiter_inFlight {s : State} {q : MemRecord} {rest : List MemRecord} (h : s.mq = q :: rest) :
    s.arbiter = none := by
  simp [State.arbiter, h, Config.memDepth]

theorem State.presentMemory_none {s : State} (h : s.arbiter = none) (d : Draws) (p : Phase) : s.presentMemory d p = s := by
  simp [State.presentMemory, h]

/-- A request accepted this cycle. -/
theorem State.presentMemory_ready {s : State} {r : MemRequest} {d : Draws} (h : s.arbiter = some r)
    (hr : s.memreqRdy d.stall = true) (p : Phase) :
    s.presentMemory d p =
      { s with mq := s.mq ++ [s.memRecord r], issueCtr := s.issueCtr + 1, stallDrawn := false, stallLeft := false,
               phase := p } := by
  simp [State.presentMemory, h, hr]

/-- A request stalled this cycle. -/
theorem State.presentMemory_stalled {s : State} {r : MemRequest} {d : Draws} (h : s.arbiter = some r)
    (hr : s.memreqRdy d.stall = false) (p : Phase) :
    s.presentMemory d p = { s with stallDrawn := true, stallLeft := false } := by
  simp [State.presentMemory, h, hr]

/-! ### The Accelerator Port -/

/-- What is presented is the request of the acting instruction, and there is room for it: a presented request is always taken in that
cycle (45_xcel.md R186). -/
theorem State.xcelPresented_eq_some_iff (s : State) (r : XcelRequest) :
    s.xcelPresented = some r ↔ s.xcelRequest = some r ∧ s.xq.length < s.cfg.xcelDepth := by
  by_cases h : s.xq.length < s.cfg.xcelDepth <;> simp [State.xcelPresented, State.xcelreqRdy, h]

theorem State.xcelreqRdy_of_xcelreqVal {s : State} (h : s.xcelreqVal = true) : s.xcelreqRdy = true := by
  obtain ⟨r, hr⟩ := Option.isSome_iff_exists.1 h
  exact decide_eq_true ((State.xcelPresented_eq_some_iff s r).1 hr).2

/-! ### The core's action -/

/-- Everything FETCH_ISSUE can do (70_reset_and_hazards.md R243 to R245): hold, wait for `xq` to drain, halt, or present. -/
theorem State.fetchIssueAction_cases (s : State) (d : Draws) :
    (0 < s.holdCtr ∧ s.fetchIssueAction d = { s with holdCtr := s.holdCtr - 1 }) ∨
    (s.holdCtr = 0 ∧ s.pc = s.haltPc ∧ s.xq = [] ∧ s.fetchIssueAction d = { s with phase := .halted }) ∨
    (s.holdCtr = 0 ∧ s.pc = s.haltPc ∧ s.xq ≠ [] ∧ s.fetchIssueAction d = s) ∨
    (s.holdCtr = 0 ∧ s.pc ≠ s.haltPc ∧ s.fetchIssueAction d = s.presentMemory d .fetchWait) := by
  by_cases h : s.holdCtr = 0
  · by_cases hh : s.pc = s.haltPc
    · by_cases hx : s.xq = [] <;> simp [State.fetchIssueAction, State.isHalted, h, hh, hx]
    · simp [State.fetchIssueAction, State.isHalted, h, hh]
  · left
    have : 0 < s.holdCtr := Nat.pos_of_ne_zero h
    simp [State.fetchIssueAction, this]

/-- FETCH_WAIT: the response arrives, or the core waits (R246). -/
theorem State.fetchWaitAction_eq {s : State} {q : MemRecord} {rest : List MemRecord} (h : s.mq = q :: rest) :
    s.fetchWaitAction =
      if q.readyCycle ≤ s.cyc then { s with ir := s.memRespData q, mq := rest, phase := .execute } else s := by
  simp [State.fetchWaitAction, State.memrespVal, h]

/-- MEM_WAIT: the instruction commits, or the core waits (R251). -/
theorem State.memWaitAction_eq {s : State} {q : MemRecord} {rest : List MemRecord} (h : s.mq = q :: rest) :
    s.memWaitAction =
      if q.readyCycle ≤ s.cyc then { (s.memDeliver q).setPc s.pcPlus4 with mq := rest, phase := .fetchIssue } else s := by
  simp [State.memWaitAction, State.memrespVal, h]

/-- EXECUTE of an instruction that commits at once (R248). -/
theorem State.executeAction_atOnce {s t : State} {i : Instr} (ha : s.acting = some i) (hm : s.dataRequest i = none)
    (hx : s.accelRequest i = none) (he : exec i s = .next t) (d : Draws) :
    s.executeAction d = { t with phase := .fetchIssue } := by
  cases i <;> simp [State.executeAction, ha, Instr.tag, State.executeAtOnce, he] <;>
    simp [State.dataRequest, State.accelRequest] at hm hx

/-- EXECUTE of `lw` and `sw` (R250). -/
theorem State.executeAction_data {s : State} {i : Instr} {r : MemRequest} (ha : s.acting = some i)
    (hm : s.dataRequest i = some r) (d : Draws) : s.executeAction d = s.presentMemory d .memWait := by
  cases i <;> simp [State.dataRequest] at hm <;> simp [State.executeAction, ha, Instr.tag]

/-- EXECUTE of an accelerator instruction (R249): it issues while fewer than XCEL_DEPTH records are in flight, and waits
otherwise (R237). -/
theorem State.executeAction_xcel {s : State} {i : Instr} {r : XcelRequest} (ha : s.acting = some i)
    (hx : s.accelRequest i = some r) (d : Draws) :
    s.executeAction d =
      if s.xq.length < s.cfg.xcelDepth then
        { (s.setBusy r.rd true).setPc s.pcPlus4 with
          xq := s.xq ++ [s.xcelRecord d r], issueCtr := s.issueCtr + 1, phase := .fetchIssue }
      else s := by
  have hr : s.xcelRequest = some r := by simp [State.xcelRequest, ha, hx]
  have he : s.executeAction d = s.issueXcel d := by
    cases i <;> simp [State.accelRequest] at hx <;> simp [State.executeAction, ha, Instr.tag]
  rw [he, State.issueXcel, State.xcelPresented, hr]
  by_cases h : s.xq.length < s.cfg.xcelDepth <;> simp [State.xcelreqRdy, h]

/-- EXECUTE with nothing to act: the core waits (R236). -/
theorem State.executeAction_waiting {s : State} (ha : s.acting = none) (d : Draws) : s.executeAction d = s := by
  simp [State.executeAction, ha]

/-! ### The tick -/

theorem State.tick_stopped {s : State} (h : s.stopped = true) (d : Draws) : s.tick d = s := by
  simp [State.tick, h]

/-- Every tick of a running core raises the fault of its cycle, or commits the core's action and the delivery (R242, R254). -/
theorem State.tick_cases {s : State} (h : s.stopped = false) (d : Draws) :
    (∃ f, s.coreFault = some f ∧ s.tick d = s.enterFault f) ∨
    (s.coreFault = none ∧ s.tick d = { s.deliverXcel (s.coreAction d) with cyc := s.cyc + 1 }) := by
  cases hf : s.coreFault with
  | some f => exact .inl ⟨f, rfl, by simp [State.tick, h, hf]⟩
  | none => exact .inr ⟨rfl, by simp [State.tick, h, hf]⟩

/-- The delivery of a cycle: the head of `xq`, or nothing (45_xcel.md R188). -/
theorem State.deliverXcel_cases (s t : State) :
    (∃ q rest, s.xq = q :: rest ∧ q.readyCycle ≤ s.cyc ∧ s.deliverXcel t = t.deliverHead q) ∨
    ((∀ q rest, s.xq = q :: rest → s.cyc < q.readyCycle) ∧ s.deliverXcel t = t) := by
  cases hx : s.xq with
  | nil => exact .inr ⟨by simp, by simp [State.deliverXcel, State.xcelDue, hx]⟩
  | cons q rest =>
    by_cases hq : q.readyCycle ≤ s.cyc
    · exact .inl ⟨q, rest, rfl, hq, by simp [State.deliverXcel, State.xcelDue, hx, hq]⟩
    · refine .inr ⟨fun q' r h => ?_, by simp [State.deliverXcel, State.xcelDue, hx, hq]⟩
      injection h with h1 h2
      subst h1; omega

/-! ### Runs of ticks -/

theorem State.ticks_zero (draw : Nat → Draws) (s : State) : State.ticks draw 0 s = s := rfl

theorem State.ticks_succ (draw : Nat → Draws) (n : Nat) (s : State) :
    State.ticks draw (n + 1) s = State.ticks draw n (s.tick (draw s.cyc)) := rfl

theorem State.ticks_add (draw : Nat → Draws) (n m : Nat) (s : State) :
    State.ticks draw (n + m) s = State.ticks draw m (State.ticks draw n s) := by
  induction n generalizing s with
  | zero => simp [State.ticks]
  | succ n ih => rw [Nat.succ_add, State.ticks_succ, State.ticks_succ, ih]

/-- The last tick first. -/
theorem State.ticks_succ_last (draw : Nat → Draws) (n : Nat) (s : State) :
    State.ticks draw (n + 1) s = (State.ticks draw n s).tick (draw (State.ticks draw n s).cyc) :=
  State.ticks_add draw n 1 s

/-- A stopped core stays as it is (R253, R254). -/
theorem State.ticks_stopped {s : State} (h : s.stopped = true) (draw : Nat → Draws) (n : Nat) :
    State.ticks draw n s = s := by
  induction n with
  | zero => rfl
  | succ n ih => rw [State.ticks_succ, State.tick_stopped h, ih]

end Sys2Proof.Machine
end

