-- ==== Sys2Proof/Laws/Harness.lean ====
section
/-! SUPPORT. The end-state check and the progress of a request: what each can answer. -/

namespace Sys2Proof.Machine

/-! ### End-state check (spec/70_reset_and_hazards.md R266) -/

/-- Nothing differs exactly when every predicted value is the observed one. -/
theorem differing_eq_nil_iff {ι α β : Type} [DecidableEq β] (observe : ι → β) (expect : α → β)
    (report : ι → β → α → Mismatch) (predicted : List (ι × α)) :
    differing observe expect report predicted = [] ↔ ∀ p ∈ predicted, observe p.1 = expect p.2 := by
  simp [differing, List.filterMap_eq_nil_iff]

/-- Every report names an entry that was predicted, with the observed value, which is another. -/
theorem mem_differing_iff {ι α β : Type} [DecidableEq β] (observe : ι → β) (expect : α → β)
    (report : ι → β → α → Mismatch) (predicted : List (ι × α)) (m : Mismatch) :
    m ∈ differing observe expect report predicted ↔
      ∃ p ∈ predicted, observe p.1 ≠ expect p.2 ∧ report p.1 (observe p.1) p.2 = m := by
  simp [differing]

/-- A byte is observed exactly inside the image, and is then the byte of memory. -/
theorem State.observedByte_eq_some_iff (s : State) (a : Nat) (b : Byte) :
    s.observedByte a = some b ↔ a < s.memSize ∧ s.byte a = b := by
  simp [State.observedByte]

/-- An end state has no mismatch exactly when it holds every predicted value. -/
theorem State.mismatches_eq_nil_iff (s : State) (e : Expected) :
    s.mismatches e = [] ↔ (∀ p ∈ e.regs, s.reg p.1 = p.2) ∧ (∀ p ∈ e.bytes, p.1 < s.memSize ∧ s.byte p.1 = p.2) ∧
      (∀ p ∈ e.csrs, s.csrRead p.1 = p.2) ∧ (∀ p ∈ e.xcelRegs, (s.xcelRead p.1).1 = p.2) ∧
      (∀ σ, e.xcelState = some σ → s.xcel = σ) := by
  simp only [State.mismatches, List.append_eq_nil_iff, differing_eq_nil_iff, State.observedByte_eq_some_iff, and_assoc]
  simp

/-- A run passes exactly when it is done in a state without a mismatch. -/
theorem RunOutcome.verdict_eq_pass_iff (e : Expected) (o : RunOutcome) :
    o.verdict e = .pass ↔ ∃ s, o = .done s ∧ s.mismatches e = [] := by
  cases o with
  | done s => cases h : s.mismatches e <;> simp [RunOutcome.verdict, h]
  | faulted f => simp [RunOutcome.verdict]
  | timeout => simp [RunOutcome.verdict]

/-! ### Progress (R258) -/

/-- A request is ISSUED in the cycle that first presents it, and WAITING in the second if it was stalled. -/
theorem State.memProgress_presented {s : State} {r : MemRequest} (h : s.arbiter = some r) :
    s.memProgress = some (if s.stallDrawn then .waiting else .issued) := by
  simp [State.memProgress, State.memreqVal, h]

/-- While its record is in flight a request is WAITING, the cycle of its delivery included. -/
theorem State.memProgress_inFlight {s : State} {q : MemRecord} {rest : List MemRecord} (h : s.mq = q :: rest)
    (hr : s.memrespRdy = true) : s.memProgress = some .waiting := by
  simp [State.memProgress, State.memreqVal, State.arbiter_inFlight h, hr, h]

/-- Its last cycle of WAITING is that of its ready cycle, whose tick brings the last two stages at once. -/
theorem State.memTickProgress_inFlight {s : State} {q : MemRecord} {rest : List MemRecord} (h : s.mq = q :: rest)
    (hr : s.memrespRdy = true) :
    s.memTickProgress = if q.readyCycle ≤ s.cyc then [.responseReceived, .committed] else [] := by
  simp [State.memTickProgress, State.memrespVal, h, hr]

/-- Every record of `xq` is WAITING in every cycle it is there, and an accelerator request is ISSUED in the cycle it joins. -/
theorem State.mem_xcelProgress_iff (s : State) (p : Progress) :
    p ∈ s.xcelProgress ↔ (p = .waiting ∧ s.xq ≠ []) ∨ (p = .issued ∧ s.xcelreqVal = true) := by
  simp only [State.xcelProgress, List.mem_append, List.mem_map]
  refine or_congr ⟨fun ⟨q, hq, h⟩ => ⟨h.symm, List.ne_nil_of_mem hq⟩, fun ⟨h, hq⟩ => ?_⟩ ?_
  · obtain ⟨q, hq⟩ := List.exists_mem_of_ne_nil _ hq
    exact ⟨q, hq, h.symm⟩
  · cases s.xcelreqVal <;> simp

end Sys2Proof.Machine
end

