-- ==== Sys2Proof/Tests/Slice0.lean ====
section
/-! SUPPORT. Tests: expected values come from spec/95_test_vectors.md (ids A1, B4, M9, ...), spec/40_decode_alu.md R134 and
spec/70_reset_and_hazards.md R259. Witnesses: for each statement with hypotheses, a concrete state that meets them together. -/

namespace Sys2Proof.Tests

open Sys2Proof Sys2Proof.Machine

/-! ### Helpers -/

/-- The next state of an outcome. -/
def next? : Host.Outcome State Fault Refusal → Option State
  | .next s => some s
  | .fault _ => none
  | .refused _ => none

/-- The fault of an outcome. -/
def fault? : Host.Outcome State Fault Refusal → Option Fault
  | .next _ => none
  | .fault f => some f
  | .refused _ => none

/-- The state after reset with some registers set. -/
def withRegs (regs : List (RegIdx × Word)) : State := regs.foldl (fun s p => s.setReg p.1 p.2) State.reset

/-- One step of the word `w` at 0x200, from those registers. -/
def run1 (regs : List (RegIdx × Word)) (w : Nat) : Host.Outcome State Fault Refusal :=
  step ((withRegs regs).withFetchWord 32 w)

/-- What one step leaves in register `r`. -/
def regAfter (regs : List (RegIdx × Word)) (w : Nat) (r : RegIdx) : Option Word :=
  (next? (run1 regs w)).map fun s => s.reg r

/-- What one step leaves in pc. -/
def pcAfter (regs : List (RegIdx × Word)) (w : Nat) : Option Word := (next? (run1 regs w)).map fun s => s.pc

/-! ### WellFormed: the ill-formed branch is refused -/

theorem test_wellFormed_refuses_odd_offset : ¬ (Instr.bne 1#5 0#5 0x0003#13).WellFormed := by decide
theorem test_wellFormed_accepts_even_offset :
    (Instr.bne 1#5 0#5 0x1000#13).WellFormed ∧ (Instr.bne 1#5 0#5 0x0FFE#13).WellFormed := by decide
theorem test_assemble_refuses_out_of_range :
    AsmInstr.assemble (.addi 1 0 (.signed 2048)) = none ∧ AsmInstr.assemble (.bne 1 0 3) = none ∧
      AsmInstr.assemble (.bne 1 0 4096) = none ∧ AsmInstr.assemble (.csrrwi 1 4096 0) = none ∧
      AsmInstr.assemble (.csrrwi 1 0 32) = none ∧ AsmInstr.assemble (.add 32 0 0) = none := by decide

/-! ### Decoding: words of R134 and of spec/95, one per constructor -/

theorem test_decode_add : decode 0b0000000_00010_00001_000_00011_0110011#32 = some (.add 3#5 1#5 2#5) := by decide
theorem test_decode_and : decode 0b0000000_00010_00001_111_00011_0110011#32 = some (.and 3#5 1#5 2#5) := by decide
theorem test_decode_sll : decode 0b0000000_00010_00001_001_00011_0110011#32 = some (.sll 3#5 1#5 2#5) := by decide
theorem test_decode_srl : decode 0b0000000_00010_00001_101_00011_0110011#32 = some (.srl 3#5 1#5 2#5) := by decide
theorem test_decode_addi : decode 0b111111111111_00000_000_00101_0010011#32 = some (.addi 5#5 0#5 0xFFF#12) := by decide
theorem test_decode_bne : decode 0b1_111111_00000_00001_001_1100_1_1100011#32 = some (.bne 1#5 0#5 0x1FF8#13) := by decide
/-- B5 and B6: the two ends of the branch range. -/
theorem test_decode_bne_ends : decode 0x80009063#32 = some (.bne 1#5 0#5 0x1000#13) ∧
    decode 0x7E009FE3#32 = some (.bne 1#5 0#5 0x0FFE#13) := by decide
theorem test_decode_lw : decode 0b111111111100_00001_010_00010_0000011#32 = some (.lw 2#5 1#5 0xFFC#12) := by decide
theorem test_decode_sw : decode 0b1111111_00010_00001_010_11100_0100011#32 = some (.sw 2#5 1#5 0xFFC#12) := by decide
theorem test_decode_csrrw : decode 0b011111000000_00001_001_00010_1110011#32 = some (.csrrw 2#5 0x7C0#12 1#5) := by decide
theorem test_decode_csrrwi : decode 0b011111000000_01001_101_00011_1110011#32 = some (.csrrwi 3#5 0x7C0#12 9#5) := by decide
theorem test_decode_xcelrd : decode 0b0000000_00001_00000_000_00110_0001011#32 = some (.xcelrd 6#5 1#5) := by decide
theorem test_decode_xcelwr : decode 0b0000000_00001_00010_001_00000_0001011#32 = some (.xcelwr 1#5 2#5) := by decide

/-- The illegal words of spec/95 section 2.6. -/
theorem test_decode_illegal :
    [0x00000000#32, 0xFFFFFFFF#32, 0x40208033#32, 0x02208033#32, 0x00209013#32, 0x00001003#32, 0x00000063#32, 0x00002073#32,
      0x00000073#32, 0x0000006F#32, 0x00000037#32, 0x0000000F#32, 0x0000200B#32, 0x0200000B#32, 0x0000800B#32, 0x0000108B#32,
      0x00000001#32].map decode = List.replicate 17 none := by decide

/-- The encoder writes the words of spec/95 (M9, B4, C2, X2, X3). -/
theorem test_encode_words :
    [Instr.sw 2#5 1#5 0xFFC#12, .bne 1#5 0#5 0x1FF8#13, .csrrwi 3#5 0x7C0#12 9#5, .xcelrd 6#5 1#5, .xcelwr 0#5 31#5].map encode =
      [0xFE20AE23#32, 0xFE009CE3#32, 0x7C04D1F3#32, 0x0010030B#32, 0x000F900B#32] := by decide

/-- The image of program P1 begins with the bytes 93 00 50 00. -/
theorem test_decodeBytes_little_endian :
    decodeBytes [0x93#8, 0x00#8, 0x50#8, 0x00#8, 0x13#8] = .ok (.addi 1#5 0#5 0x005#12, [0x13#8]) := by rfl

theorem test_asmText : asmText (.sw 2#5 1#5 0xFFC#12) = "sw x2,-4(x1)" := by decide

/-! ### One step of each instruction -/

/-- A3: the sum wraps. -/
theorem test_add_wraps : regAfter [(1#5, 0xFFFFFFFF#32), (2#5, 1#32)] 0x002081B3 3#5 = some 0x00000000#32 := by decide
/-- A6: x0 discards. -/
theorem test_add_to_x0 : regAfter [(1#5, 3#32), (2#5, 4#32)] 0x00208033 0#5 = some 0x00000000#32 := by decide
/-- A8. -/
theorem test_and : regAfter [(1#5, 0xC#32), (2#5, 0xA#32)] 0x0020F1B3 3#5 = some 0x00000008#32 := by decide
/-- A13, A14: bit 1 is lost; amount 32 is amount 0. -/
theorem test_sll_by_31 : regAfter [(1#5, 3#32), (2#5, 31#32)] 0x002091B3 3#5 = some 0x80000000#32 := by decide
theorem test_sll_by_32 : regAfter [(1#5, 1#32), (2#5, 32#32)] 0x002091B3 3#5 = some 0x00000001#32 := by decide
/-- A19, A20: zero fill; amount 32 is amount 0. -/
theorem test_srl_by_1 : regAfter [(1#5, 0x80000000#32), (2#5, 1#32)] 0x0020D1B3 3#5 = some 0x40000000#32 := by decide
theorem test_srl_by_32 : regAfter [(1#5, 0xFFFFFFFF#32), (2#5, 32#32)] 0x0020D1B3 3#5 = some 0xFFFFFFFF#32 := by decide
/-- A24, A25: the immediate is signed. -/
theorem test_addi_minus_1 : regAfter [] 0xFFF08093 1#5 = some 0xFFFFFFFF#32 := by decide
theorem test_addi_minus_2048 : regAfter [] 0x80000093 1#5 = some 0xFFFFF800#32 := by decide
/-- B1 and B3. -/
theorem test_bne_taken : pcAfter [(1#5, 1#32), (2#5, 2#32)] 0x00209463 = some 0x00000208#32 := by decide
theorem test_bne_same_register : pcAfter [(1#5, 0xDEADBEEF#32)] 0x00109463 = some 0x00000204#32 := by decide
/-- M4: the effective address wraps to 0; the word there is placed by a store. -/
theorem test_lw_wraps :
    (next? (exec (.lw 2#5 1#5 0x004#12) ((withRegs [(1#5, 0xFFFFFFFC#32)]).memWrite 0#32 0xDEADBEEF#32))).map
      (fun s => s.reg 2#5) = some 0xDEADBEEF#32 := by decide
/-- M17: alignment is reported before range. -/
theorem test_lw_alignment_before_range :
    fault? (run1 [(1#5, 0x00100001#32)] 0x0000A103) = some (.alignmentFault 0x200#32 0x00100001#32 .load) := by decide
/-- M9: the least significant byte lies lowest. -/
theorem test_sw_byte_order :
    (next? (run1 [(1#5, 0x104#32), (2#5, 0xA1B2C3D4#32)] 0xFE20AE23)).map
      (fun s => [s.byte 0x100, s.byte 0x101, s.byte 0x102, s.byte 0x103]) = some [0xD4#8, 0xC3#8, 0xB2#8, 0xA1#8] := by decide
/-- M14. -/
theorem test_sw_range_fault :
    fault? (run1 [(1#5, 0xFFFFFFFC#32)] 0x0010A023) = some (.memoryRangeFault 0x200#32 0xFFFFFFFC#32 .store) := by decide
/-- C3: rd and rs1 are one register; the swap reads the old value of both. -/
theorem test_csrrw_swaps :
    (next? (exec (.csrrw 1#5 0x7C0#12 1#5) ((withRegs [(1#5, 0x55#32)]).csrWrite 0x7C0#12 9#32))).map
      (fun s => (s.reg 1#5, s.csrRead 0x7C0#12)) = some (9#32, 0x55#32) := by decide
/-- C5. -/
theorem test_csrrwi_31 :
    (next? (exec (.csrrwi 3#5 0x7C0#12 31#5) (State.reset.csrWrite 0x7C0#12 0x55#32))).map
      (fun s => (s.reg 3#5, s.csrRead 0x7C0#12)) = some (0x55#32, 31#32) := by decide
/-- X6 after X3. -/
theorem test_xcelrd :
    (next? (exec (.xcelrd 7#5 0#5) (State.reset.xcelWrite 0#5 0xABCD0123#32))).map (fun s => s.reg 7#5) =
      some 0xABCD0123#32 := by decide
/-- X1. -/
theorem test_xcelwr :
    (next? (exec (.xcelwr 1#5 1#5) (withRegs [(1#5, 0x55#32)]))).map (fun s => (s.xcel.read 1#5).1) = some 0x55#32 := by decide

/-- P5e: zeros are an illegal instruction. -/
theorem test_step_illegal : fault? (step State.reset) = some (.illegalInstruction 0x200#32 0x00000000#32) := by decide

/-! ### Small cycle-level states -/

/-- A configuration in which both stall draws are possible. -/
def cfgHalf : RunConfig := { Config.resetRun with stallProbability := { num := 1, den := 2 } }

/-- A 64-byte machine with the given words from address 0, about to fetch at 0; HALT_PC = 64. -/
def small (ws : List Word) : State :=
  { State.reset with
    pc := 0x00000000#32, memSize := 64, haltPc := 0x00000040#32, cfg := cfgHalf, mem := memOfBytes 0 (ws.flatMap bytesOfWord) }

/-- The same machine with the first word in `ir`, in EXECUTE at cycle 10. -/
def executing (ws : List Word) : State := { small ws with phase := .execute, ir := (small ws).memRead 0#32, cyc := 10 }

/-- An accelerator read into x2, due in cycle 10. -/
def readX2 : XcelRecord :=
  { kind := .read, addr := 0#5, data := 0#32, issueCycle := 8, tag := 2#8, rd := 2#5, readyCycle := 9 }

/-- An accelerator write of 9 to register 0, due in cycle 10. -/
def writeXr0 : XcelRecord :=
  { kind := .write, addr := 0#5, data := 9#32, issueCycle := 5, tag := 1#8, rd := 0#5, readyCycle := 10 }

/-- `add x3,x2,x2` in EXECUTE while x2 is the destination of a read that is due (R259, cycle 11). -/
def stalledAdd : State := { (executing [0x002101B3#32]).setBusy 2#5 true with xq := [readX2] }

/-- `addi x2,x0,5` in EXECUTE while x2 is the destination of a read that is not due until cycle 11. -/
def waitingAddi : State := { (executing [0x00500113#32]).setBusy 2#5 true with xq := [{ readX2 with readyCycle := 11 }] }

/-- `xcelwr xr1,x1` in EXECUTE while a write is due. -/
def issuing : State := { executing [0x0010900B#32] with xq := [writeXr0] }

/-- A record of the Memory Port that is due in cycle 10. -/
def dueRecord (kind : ReqKind) (addr data : Word) (rd : RegIdx) : MemRecord :=
  { kind := kind, addr := addr, data := data, issueCycle := 9, tag := 0#8, rd := rd, readyCycle := 10 }

/-- `addi x1,x0,5` in FETCH_WAIT, its response due. -/
def fetching : State :=
  { small [0x00500093#32] with phase := .fetchWait, cyc := 10, mq := [dueRecord .read 0#32 0#32 0#5] }

/-- `lw x4,0(x0)` in MEM_WAIT, its response due, and a read of the accelerator into x2 due as well. -/
def loading : State :=
  { (executing [0x00002203#32]).setBusy 2#5 true with
    phase := .memWait, mq := [dueRecord .read 0#32 0#32 4#5], xq := [readX2] }

/-! ### Single ticks (R259 and the rules it works through) -/

def quiet : Draws := { stall := false, latency := 1 }
def stalling : Draws := { stall := true, latency := 3 }

/-- R245, R68: a request that is stalled stays in FETCH_ISSUE and is accepted in the next cycle. -/
theorem test_tick_fetch_accepted :
    ((small []).tick quiet).phase = .fetchWait ∧ (((small []).tick quiet).mq.map fun q => q.readyCycle) = [1] := by decide
theorem test_tick_fetch_stalled_once :
    ((small []).tick stalling).phase = .fetchIssue ∧ ((small []).tick stalling).stallDrawn = true ∧
      (((small []).tick stalling).tick stalling).phase = .fetchWait := by decide
/-- R259, cycle 11: the add stalls and the read is delivered; R236. -/
theorem test_tick_stall_and_delivery :
    (stalledAdd.tick quiet).phase = .execute ∧ (stalledAdd.tick quiet).pc = 0#32 ∧ (stalledAdd.tick quiet).xq = [] ∧
      (stalledAdd.tick quiet).isBusy 2#5 = false := by decide
/-- R249 and R252 in one tick: the head leaves, the new record joins at the tail. -/
theorem test_tick_issue_and_delivery :
    (issuing.tick stalling).phase = .fetchIssue ∧
      ((issuing.tick stalling).xq.map fun q => (q.kind, q.addr, q.readyCycle)) = [(.write, 1#5, 13)] ∧
      ((issuing.tick stalling).xcel.read 0#5).1 = 9#32 := by decide
/-- R186, R237: with `xq` full the instruction presents nothing and waits; with room it presents and is taken in that cycle. -/
theorem test_tick_xq_full :
    let full := { issuing with xq := [{ writeXr0 with readyCycle := 11 }, { writeXr0 with readyCycle := 12 }] }
    full.xcelreqVal = false ∧ full.tick quiet = { full with cyc := 11 } ∧ issuing.xcelreqVal = true ∧
      issuing.xcelreqRdy = true := by decide
/-- R254: a fault tick changes the phase and the record alone. -/
theorem test_tick_fault :
    ((executing [0x40208033#32]).tick quiet).fault = some (.illegalInstruction 0#32 0x40208033#32) ∧
      ((executing [0x40208033#32]).tick quiet).cyc = 10 := by decide

/-- R236: an instruction whose destination waits for a read that is not due changes nothing but the cycle count. -/
theorem test_tick_busy_destination :
    waitingAddi.tick quiet = { waitingAddi with cyc := 11 } := by decide

/-! ### Progress (R258) and the end-state check (R266) -/

/-- With L = 1 and a stall the fetch is ISSUED, then WAITING for s + L = 2 cycles, of which the second is that of the delivery. -/
theorem test_progress_of_a_stalled_fetch :
    let s := small [0x00500093#32]
    let t := s.tick stalling
    let u := t.tick quiet
    [s, t, u].map State.memProgress = [some .issued, some .waiting, some .waiting] ∧
      [s, t, u].map State.memTickProgress = [[], [], [.responseReceived, .committed]] := by decide

/-- An accelerator write waits in its delivery cycle, while the next request issues; that one is delivered later. -/
theorem test_progress_of_accelerator_requests :
    issuing.xcelProgress = [.waiting, .issued] ∧ issuing.xcelTickProgress = [.responseReceived, .committed] ∧
      (issuing.tick stalling).xcelProgress = [.waiting] ∧ (issuing.tick stalling).xcelTickProgress = [] := by decide

/-- Every space the harness reads is compared, and a mismatch names its index and both values; past the image no byte is observed. -/
theorem test_verdict_names_every_mismatch :
    (RunOutcome.done (withRegs [(3#5, 8#32)])).verdict
        { regs := [(0#5, 0#32), (3#5, 9#32)], bytes := [(4, 1#8), (0x100000, 0#8)], csrs := [(0x7C0#12, 5#32)], xcelRegs := [(1#5, 7#32)],
          xcelState := some (.device []) } =
      .architecturalMismatch (.register 3#5 8#32 9#32)
        [.memory 4 (some 0#8) 1#8, .memory 0x100000 none 0#8, .csr 0x7C0#12 0#32 5#32, .xcelRegister 1#5 0#32 7#32, .xcelState State.reset.xcel (.device [])] := by
  decide

/-! ### The small states meet the invariants -/

theorem small_atInstruction : (small [0x00500093#32]).AtInstruction := ⟨by decide, by decide, by decide⟩

theorem small_inv : (small [0x00500093#32]).CycleInv where
  arch := ⟨by decide, by decide, by decide, by decide, by decide⟩
  config := by decide
  phaseInv := ⟨rfl, fun h => nomatch h⟩
  noFault := by decide
  stallLeft := by decide
  stalledOnce := by decide
  xqDepth := by decide
  scoreboard := by decide
  oneEach := by decide
  xqShape := by decide
  xqIssued := by decide

/-- The same machine with its fetch stalled once. -/
def smallStalled : State := { small [0x00500093#32] with stallDrawn := true, cyc := 1 }

theorem smallStalled_inv : smallStalled.CycleInv where
  arch := ⟨by decide, by decide, by decide, by decide, by decide⟩
  config := by decide
  phaseInv := ⟨rfl, fun _ => ⟨by decide, by decide, by decide⟩⟩
  noFault := by decide
  stallLeft := by decide
  stalledOnce := by decide
  xqDepth := by decide
  scoreboard := by decide
  oneEach := by decide
  xqShape := by decide
  xqIssued := by decide

theorem fetching_inv : fetching.CycleInv where
  arch := ⟨by decide, by decide, by decide, by decide, by decide⟩
  config := by decide
  phaseInv := ⟨⟨by decide, by decide, by decide⟩, by decide, _, rfl, ⟨rfl, rfl, rfl, rfl⟩, by decide⟩
  noFault := by decide
  stallLeft := by decide
  stalledOnce := by decide
  xqDepth := by decide
  scoreboard := by decide
  oneEach := by decide
  xqShape := by decide
  xqIssued := by decide

/-- Any of the EXECUTE states below meets the invariant, by its own finite checks. -/
theorem executing_inv_of {s : State} (hp : s.phase = .execute)
    (h : (Memory.wf s.memSize s.mem = true ∧ sparseWf 0x00000000#32 4096 s.csr = true ∧ validMemSize s.memSize = true ∧
        s.pc.getLsbD 0 = false ∧ s.x[0] = 0x00000000#32) ∧ s.cfg.valid = true ∧
      (s.pc ≠ s.haltPc ∧ s.accessFault .fetch s.pc = none ∧ s.holdCtr = 0) ∧ s.mq = [] ∧ s.ir = s.memRead s.pc ∧
      s.stallDrawn = false ∧ s.fault = none ∧ s.stallLeft = false ∧ s.xq.length ≤ s.cfg.xcelDepth)
    (hx : (∀ r : RegIdx, r ≠ 0#5 → s.isBusy r = s.xq.any (·.holds r)) ∧
      (s.xq.Pairwise fun p q => p.kind = .read → p.rd ≠ 0#5 → q.holds p.rd = false) ∧
      (∀ q ∈ s.xq, (q.kind = .write → q.rd = 0#5) ∧ (q.kind = .read → q.data = 0x00000000#32)) ∧
      ∀ q ∈ s.xq, q.issueCycle < s.cyc ∧ q.issueCycle < q.readyCycle) : s.CycleInv := by
  obtain ⟨⟨a1, a2, a3, a4, a5⟩, b, ⟨c1, c2, c3⟩, d, e, f, g, i, j⟩ := h
  obtain ⟨k, l, m, n⟩ := hx
  refine ⟨⟨a1, a2, a3, a4, a5⟩, b, ?_, fun _ => g, i, fun h => by simp [f] at h, j, k, l, m, n⟩
  unfold State.PhaseInv
  rw [hp]
  exact ⟨⟨c1, c2, c3⟩, d, e, fun h => by simp [f] at h⟩

theorem executing_addi_inv : (executing [0x00500093#32]).CycleInv := executing_inv_of rfl (by decide) (by decide)
theorem executing_lw_inv : (executing [0x00002203#32]).CycleInv := executing_inv_of rfl (by decide) (by decide)
theorem executing_illegal_inv : (executing [0x40208033#32]).CycleInv := executing_inv_of rfl (by decide) (by decide)
theorem stalledAdd_inv : stalledAdd.CycleInv := executing_inv_of rfl (by decide) (by decide)
theorem issuing_inv : issuing.CycleInv := executing_inv_of rfl (by decide) (by decide)

theorem loading_inv : loading.CycleInv where
  arch := ⟨by decide, by decide, by decide, by decide, by decide⟩
  config := by decide
  phaseInv := ⟨⟨by decide, by decide, by decide⟩, by decide, by decide, _, rfl,
    ⟨.lw 4#5 0#5 0x000#12, by decide, by decide, _, rfl, by decide, rfl, by decide, rfl, rfl⟩, by decide⟩
  noFault := by decide
  stallLeft := by decide
  stalledOnce := by decide
  xqDepth := by decide
  scoreboard := by decide
  oneEach := by decide
  xqShape := by decide
  xqIssued := by decide

/-- At HALT_PC with nothing left to do, and the state it halts in. -/
def halting : State := { small [] with pc := 0x00000040#32 }
def halted : State := { halting with phase := .halted }

theorem halted_inv : halted.CycleInv where
  arch := ⟨by decide, by decide, by decide, by decide, by decide⟩
  config := by decide
  phaseInv := ⟨rfl, rfl, rfl, rfl⟩
  noFault := by decide
  stallLeft := by decide
  stalledOnce := by decide
  xqDepth := by decide
  scoreboard := by decide
  oneEach := by decide
  xqShape := by decide
  xqIssued := by decide

/-! ### Witnesses: for each statement with hypotheses, a state and operands that meet them -/

theorem witness_DecodeOfEncodeIsIdentity :
    (Instr.bne 31#5 31#5 0x1000#13).WellFormed ∧ (Instr.addi 31#5 0#5 0x800#12).WellFormed := by decide

theorem witness_LegalWordHasNoIgnoredBits : decode 0xFE20AE23#32 = some (.sw 2#5 1#5 0xFFC#12) := by decide

theorem witness_DecodeIsTheUniqueMatchingRow :
    Row.bne ∈ rows ∧ Row.bne.matches 0xFE009CE3#32 = true ∧ decode 0x40208033#32 = none :=
  ⟨by simp [rows], by decide, by decide⟩

/-- One word for each alternative of the hypothesis, in its order. -/
theorem witness_ListedReservedEncodingsAreIllegal :
    (0x00000001#32).extractLsb' 0 2 ≠ 3#2 ∧
    ((0x40208033#32).extractLsb' 0 7 = 0x33#7 ∧ (0x40208033#32).extractLsb' 25 7 ≠ 0#7) ∧
    ((0x00002033#32).extractLsb' 0 7 = 0x33#7 ∧ (0x00002033#32).extractLsb' 12 3 = 2#3) ∧
    ((0x00209013#32).extractLsb' 0 7 = 0x13#7 ∧ (0x00209013#32).extractLsb' 12 3 ≠ 0#3) ∧
    ((0x00001003#32).extractLsb' 0 7 = 0x03#7 ∧ (0x00001003#32).extractLsb' 12 3 ≠ 2#3) ∧
    ((0x00001023#32).extractLsb' 0 7 = 0x23#7 ∧ (0x00001023#32).extractLsb' 12 3 ≠ 2#3) ∧
    ((0x00000063#32).extractLsb' 0 7 = 0x63#7 ∧ (0x00000063#32).extractLsb' 12 3 ≠ 1#3) ∧
    ((0x00002073#32).extractLsb' 0 7 = 0x73#7 ∧ (0x00002073#32).extractLsb' 12 3 ∉ [1#3, 5#3]) ∧
    (0x0000006F#32).extractLsb' 0 7 ∈ [0x37#7, 0x17#7, 0x6F#7, 0x67#7, 0x0F#7] ∧
    ((0x0000200B#32).extractLsb' 0 7 = 0x0B#7 ∧ (0x0000200B#32).extractLsb' 12 3 ∉ [0#3, 1#3]) ∧
    ((0x0000800B#32).extractLsb' 12 3 = 0#3 ∧ (0x0000800B#32).extractLsb' 15 5 ≠ 0#5) ∧
    ((0x0000108B#32).extractLsb' 12 3 = 1#3 ∧ (0x0000108B#32).extractLsb' 7 5 ≠ 0#5) := by decide

/-- A word of every row. -/
theorem witness_EveryRowDecodesItsOperandFields :
    [0x002081B3#32, 0x0020F1B3#32, 0x002091B3#32, 0x0020D1B3#32].map (· &&& 0xFE00707F#32) =
      [0x00000033#32, 0x00007033#32, 0x00001033#32, 0x00005033#32] ∧
    [0x00500093#32, 0xFE009CE3#32, 0x10002103#32, 0xFE20AE23#32, 0x7C009173#32, 0x7C04D1F3#32].map (· &&& 0x0000707F#32) =
      [0x00000013#32, 0x00001063#32, 0x00002003#32, 0x00002023#32, 0x00001073#32, 0x00005073#32] ∧
    0x0010030B#32 &&& 0xFE0FF07F#32 = 0x0000000B#32 ∧ 0x0010900B#32 &&& 0xFE007FFF#32 = 0x0000100B#32 := by decide

theorem witness_BytesDecodeLittleEndian :
    (0x00500093#32).toNat = (0x93#8).toNat + 256 * (0x00#8).toNat + 65536 * (0x50#8).toNat + 16777216 * (0x00#8).toNat ∧
      decode 0x00500093#32 = some (.addi 1#5 0#5 0x005#12) ∧ decode 0x00500092#32 = none := by decide

theorem witness_WrittenOperandsOutOfRangeAreRefused :
    AsmInstr.assemble (.bne 1 0 (-4096)) = some (.bne 1#5 0#5 0x1000#13) ∧
      AsmInstr.assemble (.bne 1 0 4094) = some (.bne 1#5 0#5 0x0FFE#13) ∧
      AsmInstr.assemble (.addi 31 31 (.signed (-2048))) = some (.addi 31#5 31#5 0x800#12) ∧
      AsmInstr.assemble (.csrrwi 31 4095 31) = some (.csrrwi 31#5 0xFFF#12 31#5) := by decide

/-- The last word of the image, at its boundary. -/
theorem witness_StepRunsTheInstructionAtPc :
    let s := { small [] with pc := 60#32, mem := memSetWord [] 60 0x00500093#32 }
    s.pc ≠ s.haltPc ∧ s.pc.toNat % 4 = 0 ∧ s.pc.toNat + 4 ≤ s.memSize ∧
      decode (wordOfBytes (s.byte s.pc.toNat) (s.byte (s.pc.toNat + 1)) (s.byte (s.pc.toNat + 2)) (s.byte (s.pc.toNat + 3))) =
        some (.addi 1#5 0#5 0x005#12) := by decide

theorem witness_HaltedStateStaysAsItIs : halting.pc = halting.haltPc := by decide

/-- An instruction that waits, and a step for each way it can fault: fetch alignment, fetch range, the decoder, `lw` and `sw`
misaligned and out of range. -/
theorem witness_StepFaultsByPriority :
    (stalledAdd.phase = .execute ∧ decode stalledAdd.ir = some (.add 3#5 2#5 2#5) ∧ stalledAdd.stalls (.add 3#5 2#5 2#5) = true) ∧
    fault? (step { small [] with pc := 62#32 }) = some (.alignmentFault 62#32 62#32 .fetch) ∧
    fault? (step { small [] with pc := 64#32, haltPc := 0#32 }) = some (.memoryRangeFault 64#32 64#32 .fetch) ∧
    fault? (step (small [0x40208033#32])) = some (.illegalInstruction 0#32 0x40208033#32) ∧
    fault? (step (small [0x00102103#32])) = some (.alignmentFault 0#32 1#32 .load) ∧
    fault? (step (small [0x04002103#32])) = some (.memoryRangeFault 0#32 64#32 .load) ∧
    fault? (step (small [0x00202123#32])) = some (.alignmentFault 0#32 2#32 .store) ∧
    fault? (step (small [0x04202023#32])) = some (.memoryRangeFault 0#32 64#32 .store) := by decide

theorem witness_PlacedWordIsRunByTheNextStep : decode 0x002081B3#32 = some (.add 3#5 1#5 2#5) := by decide

theorem witness_BneCompletesWithRedirectedPc :
    (withRegs [(1#5, 1#32)]).reg 1#5 ≠ (withRegs [(1#5, 1#32)]).reg 2#5 ∧ State.reset.reg 1#5 = State.reset.reg 2#5 := by decide

/-- Misaligned; the first address out of range; the last word of memory; a read presented for x0; a misaligned and an out-of-range
`lw` in EXECUTE. -/
theorem witness_LwAndSwComplete :
    (1#32 = BitVec.ofInt 32 (((small []).reg 0#5).toNat + (0x001#12).toInt) ∧ (1#32).toNat % 4 ≠ 0) ∧
    (64#32 = BitVec.ofInt 32 (((small []).reg 0#5).toNat + (0x040#12).toInt) ∧ (64#32).toNat % 4 = 0 ∧
      (small []).memSize < (64#32).toNat + 4) ∧
    (60#32 = BitVec.ofInt 32 (((small []).reg 0#5).toNat + (0x03C#12).toInt) ∧ (60#32).toNat % 4 = 0 ∧
      (60#32).toNat + 4 ≤ (small []).memSize) ∧
    (let s := executing [0x03C02003#32];
      60#32 = BitVec.ofInt 32 ((s.reg 0#5).toNat + (0x03C#12).toInt) ∧ s.phase = .execute ∧
        decode s.ir = some (.lw 0#5 0#5 0x03C#12) ∧
        (∀ r, r ∈ (Instr.lw 0#5 0#5 0x03C#12).reads ∨ r ∈ (Instr.lw 0#5 0#5 0x03C#12).writes → s.isBusy r = false) ∧
        s.mq = [] ∧ s.memreqMsg.isSome = true) ∧
    (let s := executing [0x00102103#32];
      1#32 = BitVec.ofInt 32 ((s.reg 0#5).toNat + (0x001#12).toInt) ∧ decode s.ir = some (.lw 2#5 0#5 0x001#12) ∧
        s.phase = .execute ∧ s.stallDrawn = false ∧ (1#32).toNat % 4 ≠ 0) ∧
    (let s := executing [0x04002103#32];
      64#32 = BitVec.ofInt 32 ((s.reg 0#5).toNat + (0x040#12).toInt) ∧ decode s.ir = some (.lw 2#5 0#5 0x040#12) ∧
        s.phase = .execute ∧ s.stallDrawn = false ∧ s.memSize < (64#32).toNat + 4) := by decide

/-- The other CSR indices of `csrrw` and `csrrwi`, and the other accelerator registers. -/
theorem witness_OtherIndices : (0x7C0#12 ≠ 0xFFF#12) ∧ (0x000#12 ≠ 0xFFF#12) ∧ (31#5 ≠ 0#5) := by decide

theorem witness_RegisterAndBranchInstructionsFrame :
    (next? (exec (.add 3#5 1#5 2#5) State.reset)).isSome = true ∧ (next? (exec (.and 3#5 1#5 2#5) State.reset)).isSome = true ∧
    (next? (exec (.sll 3#5 1#5 2#5) State.reset)).isSome = true ∧ (next? (exec (.srl 3#5 1#5 2#5) State.reset)).isSome = true ∧
    (next? (exec (.addi 3#5 1#5 5#12) State.reset)).isSome = true ∧ (next? (exec (.lw 3#5 1#5 8#12) State.reset)).isSome = true ∧
    (next? (exec (.bne 1#5 2#5 8#13) State.reset)).isSome = true := by decide

/-- `sw` to the last word of memory and to the first. -/
theorem witness_StoreFrame :
    (next? (exec (.sw 2#5 0#5 60#12) (small []))).isSome = true ∧ (next? (exec (.sw 2#5 0#5 0#12) (small []))).isSome = true := by
  decide

theorem witness_CsrInstructionsFrame :
    (next? (exec (.csrrw 3#5 0xFFF#12 1#5) State.reset)).isSome = true ∧
      (next? (exec (.csrrwi 3#5 0x000#12 31#5) State.reset)).isSome = true := by decide

theorem witness_AcceleratorInstructionsFrame :
    (next? (exec (.xcelrd 3#5 31#5) State.reset)).isSome = true ∧ (next? (exec (.xcelwr 0#5 1#5) State.reset)).isSome = true := by
  decide

theorem witness_RegisterZeroReadsZeroAndDiscardsWrites :
    (next? (exec (.add 0#5 1#5 2#5) (withRegs [(1#5, 3#32), (2#5, 4#32)]))).isSome = true ∧
      (Instr.add 0#5 1#5 2#5).writes = [0#5] := by decide

/-- Two states that differ in a register `addi` does not read. -/
theorem witness_ReadsAndWritesColumnsBoundTheEffect :
    let s := State.reset
    let s' := withRegs [(7#5, 1#32)]
    s.pc = s'.pc ∧ s.csr = s'.csr ∧ s.mem = s'.mem ∧ s.xcel = s'.xcel ∧ s.memSize = s'.memSize ∧
      (∀ r ∈ (Instr.addi 3#5 1#5 5#12).reads, s.reg r = s'.reg r) ∧ s.reg 7#5 ≠ s'.reg 7#5 ∧
      (next? (exec (.addi 3#5 1#5 5#12) s)).isSome = true ∧ (next? (exec (.addi 3#5 1#5 5#12) s')).isSome = true ∧
      (7#5) ∉ (Instr.addi 3#5 1#5 5#12).writes := by decide

/-- A taken branch, a branch not taken, another instruction, and a fault. -/
theorem witness_OnlyTakenBranchRedirectsPc :
    ((next? (exec (.bne 1#5 2#5 8#13) (withRegs [(1#5, 1#32)]))).map fun s => s.pc) = some 0x208#32 ∧
    ((next? (exec (.bne 1#5 2#5 8#13) State.reset)).map fun s => s.pc) = some 0x204#32 ∧
    ((next? (exec (.addi 1#5 0#5 8#12) State.reset)).map fun s => s.pc) = some 0x204#32 ∧
    (fault? (step State.reset)).isSome = true := by decide

/-- A store, a CSR write and an accelerator write that change their spaces. -/
theorem witness_OnlyItsInstructionsChangeEachSpace :
    let s := withRegs [(1#5, 1#32)]
    ((next? (exec (.sw 1#5 0#5 0#12) s)).map fun t => decide (t.mem ≠ s.mem)) = some true ∧
    ((next? (exec (.csrrw 0#5 0#12 1#5) s)).map fun t => decide (t.csr ≠ s.csr)) = some true ∧
    ((next? (exec (.xcelwr 0#5 1#5) s)).map fun t => decide (t.xcel ≠ s.xcel)) = some true := by decide

/-- A store of an instruction word; the word beside it; a target that is not HALT_PC. -/
theorem witness_LoadAndFetchSeeTheMostRecentStore :
    let s := (small []).setReg 2#5 0x00500093#32
    (next? (exec (.sw 2#5 0#5 8#12) s)).isSome = true ∧ (12#32).toNat % 4 = 0 ∧ 12#32 ≠ s.effectiveAddress 0#5 8#12 ∧
      decode (s.reg 2#5) = some (.addi 1#5 0#5 5#12) ∧ s.effectiveAddress 0#5 8#12 ≠ s.haltPc := by decide

theorem witness_CsrReadAfterWriteSeesTheNewValue :
    ((next? (exec (.csrrw 2#5 0x7C0#12 1#5) State.reset)).bind fun t => next? (exec (.csrrwi 3#5 0x7C0#12 9#5) t)).isSome =
      true ∧ ((next? (exec (.csrrwi 2#5 0x7C0#12 1#5) State.reset)).bind fun t =>
        next? (exec (.csrrw 3#5 0x7C0#12 0#5) t)).isSome = true ∧ (3#5) ≠ (0#5) := by decide

theorem witness_StepNeitherReadsNorChangesHiddenState : (next? (step (small [0x00500093#32]))).isSome = true := by decide

theorem witness_StepKeepsArchitecturalInvariant :
    (small [0x00500093#32]).ArchInv ∧ (next? (step (small [0x00500093#32]))).isSome = true :=
  ⟨small_inv.arch, by decide⟩

/-- A four-byte image that `load` accepts. -/
def tiny : List Byte := bytesOfWord 0x00500093#32

/-- The statements about `load`: an accepted image, and a byte of it. -/
theorem witness_Load :
    (∃ s, State.load tiny 0x00000000#32 0x00000004#32 cfgHalf .defaultStore = .ok s) ∧ 3 < tiny.length :=
  ⟨⟨_, rfl⟩, by decide⟩

theorem witness_ControlTableEngineEqualsExec :
    decode 0x7C04D1F3#32 = some (.csrrwi 3#5 0x7C0#12 9#5) ∧ decode 0x0000800B#32 = none := by decide

/-- Both stall draws are admitted. -/
theorem witness_admitted :
    quiet.admitted (small [0x00500093#32]).cfg = true ∧ stalling.admitted (small [0x00500093#32]).cfg = true := by decide

/-- Ticks out of every running phase, under both draws. -/
theorem witness_TickKeepsCycleInvariant :
    (small [0x00500093#32]).CycleInv ∧ smallStalled.CycleInv ∧ fetching.CycleInv ∧ stalledAdd.CycleInv ∧ issuing.CycleInv ∧
      loading.CycleInv ∧ halted.CycleInv :=
  ⟨small_inv, smallStalled_inv, fetching_inv, stalledAdd_inv, issuing_inv, loading_inv, halted_inv⟩

/-- A tick that faults, one that completes an instruction, one that does neither. -/
theorem witness_TickRefinesStep :
    ((executing [0x40208033#32]).CycleInv ∧ ((executing [0x40208033#32]).tick quiet).phase = .faulted) ∧
    ((executing [0x00500093#32]).CycleInv ∧ ((executing [0x00500093#32]).tick quiet).phase = .fetchIssue) ∧
    (fetching.CycleInv ∧ (fetching.tick quiet).phase = .execute ∧ fetching.stopped = false) :=
  ⟨⟨executing_illegal_inv, by decide⟩, ⟨executing_addi_inv, by decide⟩, fetching_inv, by decide, by decide⟩

/-- `addi x1,x0,1; bne x1,x0,0`: after the first step every step answers the same state. -/
def looping : State :=
  State.loaded (bytesOfWord 0x00100093#32 ++ bytesOfWord 0x00009063#32) 0x00000000#32 0x00000008#32 cfgHalf .defaultStore

def loopState : State := { looping with x := looping.x.set 1 1#32, pc := 0x00000004#32 }

theorem run_loopState (n : Nat) : core.run n loopState = .next loopState := by
  induction n with
  | zero => rfl
  | succ n ih =>
    have h : step loopState = .next loopState := by
      rw [step_eq_exec (i := .bne 1#5 0#5 0#13) (by decide) (by decide) (by decide), exec_bne_taken (by decide)]
      rfl
    rw [core_run_succ_of_next h, ih]

/-- A run that halts, one that faults, and one that runs forever, with draws the configuration admits. -/
theorem witness_TimingInvariance :
    (∃ s, State.load tiny 0x00000000#32 0x00000000#32 cfgHalf .defaultStore = .ok s ∧ core.run 0 s = .next s ∧
      s.pc = s.haltPc) ∧
    (∃ s f, State.load (bytesOfWord 0#32) 0x00000000#32 0x00000004#32 cfgHalf .device = .ok s ∧ core.run 1 s = .fault f) ∧
    (State.load (bytesOfWord 0x00100093#32 ++ bytesOfWord 0x00009063#32) 0x00000000#32 0x00000008#32 cfgHalf .defaultStore =
        .ok looping ∧ ∀ n, ∃ S : State, core.run n looping = .next S ∧ S.pc ≠ S.haltPc) ∧
    ∀ c : Nat, ((fun _ : Nat => stalling) c).admitted cfgHalf = true := by
  refine ⟨⟨_, rfl, rfl, by decide⟩, ⟨_, _, rfl, rfl⟩, ⟨rfl, fun n => ?_⟩, fun _ => rfl⟩
  cases n with
  | zero => exact ⟨looping, rfl, by decide⟩
  | succ n => exact ⟨loopState, (core_run_succ_of_next (t := loopState) rfl n).trans (run_loopState n), by decide⟩

/-- A core about to halt, a halted one, and one that runs. -/
theorem witness_CoreHaltsWhenDrainedAndStaysHalted :
    (halting.stopped = false ∧ (halting.tick quiet).phase = .halted) ∧ (halted.CycleInv ∧ halted.stopped = true) ∧
      ((small []).stopped = false ∧ ((small []).tick quiet).phase ≠ .halted) :=
  ⟨by decide, ⟨halted_inv, by decide⟩, by decide⟩

/-- An illegal word, a misaligned fetch, a load past the end. -/
theorem witness_FaultTickCommitsOnlyTheFault :
    ((executing [0x40208033#32]).tick quiet).phase = .faulted ∧ (executing [0x40208033#32]).stopped = false ∧
    (executing [0x40208033#32]).coreFault = some (.illegalInstruction 0#32 0x40208033#32) ∧
    ({ small [] with pc := 62#32 }.tick quiet).phase = .faulted ∧
    ((executing [0x04002103#32]).tick quiet).phase = .faulted := by decide

/-- A request taken, one stalled, a response taken. -/
theorem witness_MemoryPortHandshake :
    ((small [0x00500093#32]).CycleInv ∧ (small [0x00500093#32]).memreqVal = true ∧
      (small [0x00500093#32]).memreqRdy quiet.stall = true ∧ (small [0x00500093#32]).memreqRdy stalling.stall = false) ∧
    (fetching.CycleInv ∧ fetching.memrespVal = true ∧ fetching.memrespRdy = true) :=
  ⟨⟨small_inv, by decide, by decide, by decide⟩, fetching_inv, by decide, by decide⟩

/-- A request in its second cycle, a request accepted in its first, a response in its cycle. -/
theorem witness_MemoryRequestStallAndLatency :
    (smallStalled.CycleInv ∧ smallStalled.stallDrawn = true ∧ smallStalled.arbiter.isSome = true) ∧
    ((executing [0x00002203#32]).CycleInv ∧ (executing [0x00002203#32]).arbiter.isSome = true ∧
      (executing [0x00002203#32]).memreqRdy quiet.stall = true) ∧
    (loading.CycleInv ∧ ∃ q, loading.mq = [q] ∧ q.readyCycle = loading.cyc) :=
  ⟨⟨smallStalled_inv, by decide, by decide⟩, ⟨executing_lw_inv, by decide, by decide⟩, loading_inv, _, rfl, by decide⟩

theorem witness_PresentedMemoryRequestIsLegal :
    (executing [0x00002203#32]).CycleInv ∧ (executing [0x00002203#32]).memreqMsg.isSome = true :=
  ⟨executing_lw_inv, by decide⟩

/-- A head that is taken while a record is added; an empty queue with no request. -/
theorem witness_AcceleratorPortIsAFifo :
    (issuing.stopped = false ∧ issuing.coreFault = none ∧ issuing.xcelRequest.isSome = true ∧
      issuing.xq.length < issuing.cfg.xcelDepth) ∧
    ((small [0x00500093#32]).stopped = false ∧ (small [0x00500093#32]).coreFault = none ∧
      (small [0x00500093#32]).xq = []) := by decide

/-- A read that is due, a write that is due in its first possible cycle, and nothing due. -/
theorem witness_DeliveryPerformsTheHead :
    (stalledAdd.CycleInv ∧ stalledAdd.stopped = false ∧ stalledAdd.coreFault = none ∧ stalledAdd.xq = [readX2] ∧
      readX2.readyCycle ≤ stalledAdd.cyc ∧ readX2.kind = .read ∧ readX2.rd ≠ 0#5) ∧
    (issuing.CycleInv ∧ issuing.coreFault = none ∧ issuing.xq = [writeXr0] ∧ writeXr0.readyCycle = issuing.cyc ∧
      writeXr0.kind = .write) ∧
    ((small [0x00500093#32]).CycleInv ∧ (small [0x00500093#32]).coreFault = none ∧ (small [0x00500093#32]).xq = []) :=
  ⟨⟨stalledAdd_inv, by decide, by decide, rfl, by decide, rfl, by decide⟩,
    ⟨issuing_inv, by decide, rfl, by decide, rfl⟩, small_inv, by decide, rfl⟩

/-- The read into x2 is due while `addi x1,x0,5` acts, and while a load into x4 commits. -/
theorem witness_WritePortsNeverCollide :
    (∃ s : State, s.CycleInv ∧ s.xcelDue = some readX2 ∧ s.acting = some (.addi 1#5 0#5 5#12)) ∧
    (loading.CycleInv ∧ loading.xcelDue = some readX2 ∧ loading.phase = .memWait ∧
      loading.mq = [dueRecord .read 0#32 0#32 4#5] ∧ readX2.kind = .read ∧ readX2.rd ≠ 0#5) :=
  ⟨⟨{ (executing [0x00500093#32]).setBusy 2#5 true with xq := [readX2] }, executing_inv_of rfl (by decide) (by decide),
      by decide, by decide⟩, loading_inv, by decide, rfl, rfl, rfl, by decide⟩

/-- A busy source whose read is due; a busy destination whose read is not due; a busy destination behind a write that is due. -/
theorem witness_BusyRegisterStallsTheInstruction :
    (stalledAdd.phase = .execute ∧ decode stalledAdd.ir = some (.add 3#5 2#5 2#5) ∧ 2#5 ∈ (Instr.add 3#5 2#5 2#5).reads ∧
      stalledAdd.isBusy 2#5 = true ∧ stalledAdd.xq = [readX2] ∧ readX2.readyCycle ≤ stalledAdd.cyc ∧ readX2.kind = .read) ∧
    (waitingAddi.phase = .execute ∧ decode waitingAddi.ir = some (.addi 2#5 0#5 5#12) ∧
      2#5 ∈ (Instr.addi 2#5 0#5 5#12).writes ∧ waitingAddi.isBusy 2#5 = true ∧ waitingAddi.xq ≠ [] ∧
      (∀ q ∈ waitingAddi.xq, waitingAddi.cyc < q.readyCycle)) ∧
    (let s := { waitingAddi with xq := writeXr0 :: waitingAddi.xq };
      s.isBusy 2#5 = true ∧ writeXr0.readyCycle ≤ s.cyc ∧ writeXr0.kind = .write) := by decide

/-- An instruction about to be fetched, with draws that stall nothing and with draws that stall every request. -/
theorem witness_InstructionTakesItsCycles :
    ((small [0x00500093#32]).CycleInv ∧ (small [0x00500093#32]).phase = .fetchIssue ∧ (small [0x00500093#32]).holdCtr = 0 ∧
      (small [0x00500093#32]).stallDrawn = false ∧ (small [0x00500093#32]).xq = [] ∧
      (small [0x00500093#32]).pc ≠ (small [0x00500093#32]).haltPc ∧
      decode ((small [0x00500093#32]).memRead (small [0x00500093#32]).pc) = some (.addi 1#5 0#5 5#12) ∧
      (next? (step (small [0x00500093#32]))).isSome = true) ∧
    (∀ c : Nat, ((fun _ : Nat => quiet) c).admitted (small [0x00500093#32]).cfg = true) ∧
    (∀ c : Nat, ((fun _ : Nat => stalling) c).admitted (small [0x00500093#32]).cfg = true) :=
  ⟨⟨small_inv, rfl, rfl, rfl, rfl, by decide, by decide, by decide⟩, fun _ => rfl, fun _ => rfl⟩

theorem witness_EveryStallEnds :
    stalledAdd.CycleInv ∧ (∀ c : Nat, ((fun _ : Nat => stalling) c).admitted stalledAdd.cfg = true) ∧
      stalledAdd.stopped = false :=
  ⟨stalledAdd_inv, fun _ => rfl, by decide⟩

/-- A run for each way the harness ends. -/
theorem witness_HarnessEndsAtDoneFaultOrTimeout :
    (∃ t, State.harnessRun (fun _ => quiet) halted = .done t) ∧
    (∃ f, State.harnessRun (fun _ => quiet)
      { small [] with cfg := { cfgHalf with maxCycles := 3 } } = .faulted f) ∧
    State.harnessRun (fun _ => quiet) { small [0x00500093#32] with cfg := { cfgHalf with maxCycles := 2 } } = .timeout :=
  ⟨⟨_, rfl⟩, ⟨_, rfl⟩, rfl⟩

end Sys2Proof.Tests
end

section
/-! What an instruction can do, said once: the form of every next state, the pc a fault records, the branch target. -/

namespace Sys2Proof.Machine

/-- The next states `exec` can answer, by the space the instruction writes. The six instructions whose one result is a register
share a form; `exec_add` to `exec_lw_ok` say which value `v` each of them writes. -/
inductive ExecNext (s : State) : Instr → State → Prop
  | reg {i : Instr} {rd : RegIdx} (v : Word) (hw : i.writes = [rd]) : ExecNext s i ((s.setReg rd v).setPc s.pcPlus4)
  | taken {rs1 rs2 : RegIdx} {off : BitVec 13} (hne : s.reg rs1 ≠ s.reg rs2) :
      ExecNext s (.bne rs1 rs2 off) (s.setPc (s.branchTarget off))
  | notTaken {rs1 rs2 : RegIdx} {off : BitVec 13} (heq : s.reg rs1 = s.reg rs2) :
      ExecNext s (.bne rs1 rs2 off) (s.setPc s.pcPlus4)
  | store {rs2 rs1 : RegIdx} {imm : BitVec 12} (hok : s.accessFault .store (s.effectiveAddress rs1 imm) = none) :
      ExecNext s (.sw rs2 rs1 imm) ((s.memWrite (s.effectiveAddress rs1 imm) (s.reg rs2)).setPc s.pcPlus4)
  | csrrw {rd : RegIdx} {k : CsrIdx} {rs1 : RegIdx} :
      ExecNext s (.csrrw rd k rs1) (((s.csrWrite k (s.reg rs1)).setReg rd (s.csrRead k)).setPc s.pcPlus4)
  | csrrwi {rd : RegIdx} {k : CsrIdx} {uimm : BitVec 5} :
      ExecNext s (.csrrwi rd k uimm) (((s.csrWrite k (uimmOperand uimm)).setReg rd (s.csrRead k)).setPc s.pcPlus4)
  | xcelrd {rd : RegIdx} {r : XcelIdx} :
      ExecNext s (.xcelrd rd r) (((s.xcelRead r).2.setReg rd (s.xcelRead r).1).setPc s.pcPlus4)
  | xcelwr {r : XcelIdx} {rs1 : RegIdx} :
      ExecNext s (.xcelwr r rs1) ((s.xcelWrite r (s.reg rs1)).setPc s.pcPlus4)

theorem execNext_of_exec {i : Instr} {s t : State} (h : exec i s = .next t) : ExecNext s i t := by
  cases i with
  | add => rw [exec_add] at h; cases h; exact .reg _ rfl
  | and => rw [exec_and] at h; cases h; exact .reg _ rfl
  | sll => rw [exec_sll] at h; cases h; exact .reg _ rfl
  | srl => rw [exec_srl] at h; cases h; exact .reg _ rfl
  | addi => rw [exec_addi] at h; cases h; exact .reg _ rfl
  | bne rs1 rs2 off =>
    by_cases hr : s.reg rs1 = s.reg rs2
    · rw [exec_bne_not_taken hr] at h; cases h; exact .notTaken hr
    · rw [exec_bne_taken hr] at h; cases h; exact .taken hr
  | lw rd rs1 imm =>
    cases ha : s.accessFault .load (s.effectiveAddress rs1 imm) with
    | none => rw [exec_lw_ok ha] at h; cases h; exact .reg _ rfl
    | some f => rw [exec_lw_fault ha] at h; cases h
  | sw rs2 rs1 imm =>
    cases ha : s.accessFault .store (s.effectiveAddress rs1 imm) with
    | none => rw [exec_sw_ok ha] at h; cases h; exact .store ha
    | some f => rw [exec_sw_fault ha] at h; cases h
  | csrrw => rw [exec_csrrw] at h; cases h; exact .csrrw
  | csrrwi => rw [exec_csrrwi] at h; cases h; exact .csrrwi
  | xcelrd => rw [exec_xcelrd] at h; cases h; exact .xcelrd
  | xcelwr => rw [exec_xcelwr] at h; cases h; exact .xcelwr

/-- A step that answers a next state stayed in a halted state or ran a decoded instruction (spec/10_state.md R40, R41). -/
theorem step_next_cases {s t : State} (h : step s = .next t) :
    t = s ∨ s.accessFault .fetch s.pc = none ∧ ∃ i, decode (s.memRead s.pc) = some i ∧ ExecNext s i t := by
  rcases step_cases s with ⟨-, hs⟩ | ⟨-, f, -, hs⟩ | ⟨-, -, -, hs⟩ | ⟨-, hf, i, hd, hs⟩ <;> rw [hs] at h
  · cases h; exact .inl rfl
  · cases h
  · cases h
  · exact .inr ⟨hf, i, hd, execNext_of_exec h⟩

/-! ### The pc of a fault record (60_exceptions.md R210) -/

theorem State.accessFault_pc {s : State} {k : Access} {a : Word} {f : Fault} (h : s.accessFault k a = some f) :
    f.pc = s.pc := by
  rcases (State.accessFault_some_iff s k a f).1 h with ⟨-, rfl⟩ | ⟨-, -, rfl⟩ <;> rfl

theorem exec_fault_pc {i : Instr} {s : State} {f : Fault} (h : exec i s = .fault f) : f.pc = s.pc := by
  cases i with
  | add | and | sll | srl | addi | csrrw | csrrwi | xcelrd | xcelwr => cases h
  | bne rs1 rs2 off =>
    by_cases hr : s.reg rs1 = s.reg rs2
    · rw [exec_bne_not_taken hr] at h; cases h
    · rw [exec_bne_taken hr] at h; cases h
  | lw rd rs1 imm =>
    cases ha : s.accessFault .load (s.effectiveAddress rs1 imm) with
    | none => rw [exec_lw_ok ha] at h; cases h
    | some g => rw [exec_lw_fault ha] at h; cases h; exact State.accessFault_pc ha
  | sw rs2 rs1 imm =>
    cases ha : s.accessFault .store (s.effectiveAddress rs1 imm) with
    | none => rw [exec_sw_ok ha] at h; cases h
    | some g => rw [exec_sw_fault ha] at h; cases h; exact State.accessFault_pc ha

theorem step_fault_pc {s : State} {f : Fault} (h : step s = .fault f) : f.pc = s.pc := by
  rcases step_cases s with ⟨-, hs⟩ | ⟨-, g, hg, hs⟩ | ⟨-, -, -, hs⟩ | ⟨-, -, i, -, hs⟩ <;> rw [hs] at h
  · cases h
  · cases h; exact State.accessFault_pc hg
  · cases h; rfl
  · exact exec_fault_pc h

/-! ### pc arithmetic (R26, 42_branch.md R150) -/

theorem State.pcPlus4_eq_ofNat (s : State) : s.pcPlus4 = BitVec.ofNat 32 (s.pc.toNat + 4) := by
  simp [State.pcPlus4, BitVec.ofNat_add]

theorem State.branchTarget_eq_ofInt (s : State) (off : BitVec 13) :
    s.branchTarget off = BitVec.ofInt 32 (s.pc.toNat + off.toInt) := by
  simp [State.branchTarget, offsetOperand, sext32, BitVec.signExtend, BitVec.ofInt_add]

/-- Bit 0 of a sum takes no carry in. -/
theorem getLsbD_zero_add (a b : Word) : (a + b).getLsbD 0 = (a.getLsbD 0 ^^ b.getLsbD 0) := by
  rw [BitVec.getLsbD_add (by decide)]; simp

theorem State.pcPlus4_even {s : State} (h : s.pc.getLsbD 0 = false) : s.pcPlus4.getLsbD 0 = false := by
  rw [State.pcPlus4, getLsbD_zero_add, h]; rfl

theorem State.branchTarget_even {s : State} {off : BitVec 13} (h : s.pc.getLsbD 0 = false) (ho : evenOffset off = true) :
    (s.branchTarget off).getLsbD 0 = false := by
  have hb : off.getLsbD 0 = false := by simpa [evenOffset] using ho
  have hs : (offsetOperand off).getLsbD 0 = false := by
    simpa [offsetOperand, sext32, BitVec.getElem_signExtend] using hb
  rw [State.branchTarget, getLsbD_zero_add, h, hs]; rfl

/-! ### The registers an instruction leaves alone (R22) -/

theorem ExecNext.reg_of_not_mem_writes {s t : State} {i : Instr} (h : ExecNext s i t) {r : RegIdx} (hr : r ∉ i.writes) :
    t.reg r = s.reg r := by
  cases h with
  | reg v hw =>
    rw [State.reg_setPc, State.reg_setReg_of_ne _ (by simpa [hw] using hr)]
  | taken | notTaken | store | xcelwr => rfl
  | csrrw | csrrwi | xcelrd =>
    rw [State.reg_setPc, State.reg_setReg_of_ne _ (by simpa [Instr.writes] using hr)]; rfl

end Sys2Proof.Machine
end

section
/-! The architectural invariant under each update. -/

namespace Sys2Proof.Machine

theorem State.setReg_x0 (s : State) (rd : RegIdx) (v : Word) : (s.setReg rd v).x[0] = s.x[0] := by
  by_cases h : rd = 0#5
  · subst h; rfl
  · have hn : rd.toNat ≠ 0 := fun e => h (BitVec.eq_of_toNat_eq e)
    simp [State.setReg_x h, hn]

theorem State.ArchInv.setReg {s : State} (h : s.ArchInv) (rd : RegIdx) (v : Word) : (s.setReg rd v).ArchInv where
  memWf := by simpa using h.memWf
  csrWf := by simpa using h.csrWf
  memSizeValid := by simpa using h.memSizeValid
  pcEven := by simpa using h.pcEven
  x0 := (State.setReg_x0 s rd v).trans h.x0

theorem State.ArchInv.setPc {s : State} (h : s.ArchInv) {t : Word} (ht : t.getLsbD 0 = false) : (s.setPc t).ArchInv where
  memWf := h.memWf
  csrWf := h.csrWf
  memSizeValid := h.memSizeValid
  pcEven := ht
  x0 := h.x0

theorem State.ArchInv.csrWrite {s : State} (h : s.ArchInv) (k : CsrIdx) (v : Word) : (s.csrWrite k v).ArchInv where
  memWf := h.memWf
  csrWf := csrWf_csrWrite h.csrWf k v
  memSizeValid := h.memSizeValid
  pcEven := h.pcEven
  x0 := h.x0

theorem State.ArchInv.memWrite {s : State} (h : s.ArchInv) {a : Word} (ha : a.toNat + 4 ≤ s.memSize) (v : Word) :
    (s.memWrite a v).ArchInv where
  memWf := memWf_memSetWord h.memWf ha v
  csrWf := h.csrWf
  memSizeValid := h.memSizeValid
  pcEven := h.pcEven
  x0 := h.x0

theorem State.ArchInv.xcelRead {s : State} (h : s.ArchInv) (r : XcelIdx) : (s.xcelRead r).2.ArchInv :=
  ⟨h.memWf, h.csrWf, h.memSizeValid, h.pcEven, h.x0⟩

theorem State.ArchInv.xcelWrite {s : State} (h : s.ArchInv) (r : XcelIdx) (v : Word) : (s.xcelWrite r v).ArchInv :=
  ⟨h.memWf, h.csrWf, h.memSizeValid, h.pcEven, h.x0⟩

/-- An instruction keeps the invariant. Well-formedness is what keeps a branch target even (R27). -/
theorem ExecNext.archInv {s t : State} {i : Instr} (h : ExecNext s i t) (hs : s.ArchInv) (hi : i.WellFormed) :
    t.ArchInv := by
  have hpc := State.pcPlus4_even hs.pcEven
  cases h with
  | reg v => exact (hs.setReg _ v).setPc hpc
  | taken => exact hs.setPc (State.branchTarget_even hs.pcEven hi)
  | notTaken => exact hs.setPc hpc
  | store hok => exact (hs.memWrite ((State.accessFault_none_iff ..).1 hok).2 _).setPc hpc
  | csrrw | csrrwi => exact ((hs.csrWrite _ _).setReg _ _).setPc hpc
  | xcelrd => exact ((hs.xcelRead _).setReg _ _).setPc hpc
  | xcelwr => exact (hs.xcelWrite _ _).setPc hpc

end Sys2Proof.Machine

open Sys2Proof Sys2Proof.Machine

/-- Settles O38: a decoded instruction is well formed, and every form of next state keeps each part of the invariant. -/
theorem stepKeepsArchitecturalInvariant : Obligations.StepKeepsArchitecturalInvariant := by
  intro s t hs h
  rcases step_next_cases h with rfl | ⟨-, i, hd, ht⟩
  · exact hs
  · exact ht.archInv hs (wellFormed_of_decode hd)

/-- Settles O31: x0 reads 0 in every state, and only the registers of the `writes` column change. -/
theorem registerZeroReadsZeroAndDiscardsWrites : Obligations.RegisterZeroReadsZeroAndDiscardsWrites := by
  intro i s t h
  refine ⟨State.reg_zero t, fun hw r => ?_⟩
  by_cases hr : r = 0#5
  · subst hr; rfl
  · exact (execNext_of_exec h).reg_of_not_mem_writes (by simpa [hw] using hr)

/-- Settles O33, by the form of the next state and, for a fault, of its record. -/
theorem onlyTakenBranchRedirectsPc : Obligations.OnlyTakenBranchRedirectsPc := by
  refine ⟨fun i s t h => ?_, fun s f => step_fault_pc⟩
  rw [← State.pcPlus4_eq_ofNat]
  cases execNext_of_exec h with
  | taken hne => exact .inl ⟨_, _, _, rfl, hne, State.branchTarget_eq_ofInt s _⟩
  | notTaken heq => exact .inr ⟨fun _ _ _ e => (by cases e; exact heq), rfl⟩
  | reg v hw => exact .inr ⟨fun _ _ _ e => (by subst e; cases hw), rfl⟩
  | store | csrrw | csrrwi | xcelrd | xcelwr => exact .inr ⟨nofun, rfl⟩

/-- Settles O34, by the form of the next state: the spaces a form does not write are unchanged. -/
theorem onlyItsInstructionsChangeEachSpace : Obligations.OnlyItsInstructionsChangeEachSpace := by
  intro i s t h
  cases execNext_of_exec h with
  | reg | taken | notTaken => simp
  | store => simp
  | csrrw | csrrwi => simp
  | xcelrd | xcelwr => simp
end

section
/-! The step from a halted state, and the step that fetches a word placed or read at pc (spec/10_state.md R40, R41). -/

namespace Sys2Proof.Machine

theorem alignDown4_toNat_mod (a : Word) : (alignDown4 a).toNat % 4 = 0 := by
  rw [← aligned4_iff, aligned4, decide_eq_true_iff, alignDown4, BitVec.extractLsb'_and]
  exact BitVec.and_zero

theorem State.readyToFetch_pc_ne_haltPc (s : State) : s.readyToFetch.pc ≠ s.readyToFetch.haltPc := by
  show alignDown4 s.pc ≠ if s.haltPc = alignDown4 s.pc then alignDown4 s.pc + 4#32 else s.haltPc
  split
  · simp
  · next h => exact Ne.symm h

theorem State.readyToFetch_accessFault (s : State) : s.readyToFetch.accessFault .fetch s.readyToFetch.pc = none := by
  rw [State.accessFault_none_iff]
  exact ⟨alignDown4_toNat_mod s.pc, Nat.le_max_right ..⟩

theorem State.withFetchWord_toNat (s : State) (w : Word) :
    s.withFetchWord 32 w.toNat = s.readyToFetch.memWrite s.readyToFetch.pc w := by
  simp [State.withFetchWord, Nat.mod_eq_of_lt w.isLt]

theorem step_halted {s : State} (h : s.pc = s.haltPc) : step s = .next s := by
  simp [step, (State.isHalted_iff s).2 h]

theorem core_run_halted {s : State} (h : s.pc = s.haltPc) (n : Nat) : core.run n s = .next s := by
  induction n with
  | zero => exact core_run_zero s
  | succ n ih => exact (core_run_succ_of_next (step_halted h) n).trans ih

end Sys2Proof.Machine

open Sys2Proof Sys2Proof.Machine

/-- Settles O13: `readyToFetch` makes pc a place to fetch from, and the word read there is the word just written. -/
theorem placedWordIsRunByTheNextStep : Obligations.PlacedWordIsRunByTheNextStep := by
  intro s w i hd
  rw [State.withFetchWord_toNat]
  refine step_eq_exec s.readyToFetch_pc_ne_haltPc ?_ ?_
  · exact (State.accessFault_congr rfl rfl _ _).trans s.readyToFetch_accessFault
  · rwa [State.memWrite_pc, State.memRead_memWrite_same]

/-- Settles O9: the two bounds are the access check's, and the four bytes are the word fetched. -/
theorem stepRunsTheInstructionAtPc : Obligations.StepRunsTheInstructionAtPc :=
  fun s _ hh ha hr hd => step_eq_exec hh ((State.accessFault_none_iff s _ _).2 ⟨ha, hr⟩) hd

/-- Settles O10, by induction on the number of steps. -/
theorem haltedStateStaysAsItIs : Obligations.HaltedStateStaysAsItIs :=
  fun _ h => ⟨step_halted h, core_run_halted h⟩
end

section
/-! The architectural step and the hidden state (spec/10_state.md R42): every accessor reads the same, and every update commutes,
when another state's hidden state and configuration stand in their place. -/

namespace Sys2Proof.Machine

variable (s h : State)

@[simp] theorem State.withHiddenOf_pc : (s.withHiddenOf h).pc = s.pc := rfl
@[simp] theorem State.withHiddenOf_haltPc : (s.withHiddenOf h).haltPc = s.haltPc := rfl
@[simp] theorem State.withHiddenOf_pcPlus4 : (s.withHiddenOf h).pcPlus4 = s.pcPlus4 := rfl
@[simp] theorem State.withHiddenOf_branchTarget (off : BitVec 13) :
    (s.withHiddenOf h).branchTarget off = s.branchTarget off := rfl
@[simp] theorem State.withHiddenOf_reg (r : RegIdx) : (s.withHiddenOf h).reg r = s.reg r := rfl
@[simp] theorem State.withHiddenOf_csrRead (k : CsrIdx) : (s.withHiddenOf h).csrRead k = s.csrRead k := rfl
@[simp] theorem State.withHiddenOf_memRead (a : Word) : (s.withHiddenOf h).memRead a = s.memRead a := rfl
@[simp] theorem State.withHiddenOf_effectiveAddress (rs1 : RegIdx) (imm : BitVec 12) :
    (s.withHiddenOf h).effectiveAddress rs1 imm = s.effectiveAddress rs1 imm := rfl
@[simp] theorem State.withHiddenOf_accessFault (k : Access) (a : Word) :
    (s.withHiddenOf h).accessFault k a = s.accessFault k a := rfl
@[simp] theorem State.withHiddenOf_xcelRead_fst (r : XcelIdx) :
    ((s.withHiddenOf h).xcelRead r).1 = (s.xcelRead r).1 := rfl

@[simp] theorem State.withHiddenOf_setPc (t : Word) :
    (s.withHiddenOf h).setPc t = (s.setPc t).withHiddenOf h := rfl
@[simp] theorem State.withHiddenOf_csrWrite (k : CsrIdx) (v : Word) :
    (s.withHiddenOf h).csrWrite k v = (s.csrWrite k v).withHiddenOf h := rfl
@[simp] theorem State.withHiddenOf_memWrite (a v : Word) :
    (s.withHiddenOf h).memWrite a v = (s.memWrite a v).withHiddenOf h := rfl
@[simp] theorem State.withHiddenOf_xcelRead_snd (r : XcelIdx) :
    ((s.withHiddenOf h).xcelRead r).2 = (s.xcelRead r).2.withHiddenOf h := rfl
@[simp] theorem State.withHiddenOf_xcelWrite (r : XcelIdx) (v : Word) :
    (s.withHiddenOf h).xcelWrite r v = (s.xcelWrite r v).withHiddenOf h := rfl
@[simp] theorem State.withHiddenOf_setReg (i : RegIdx) (v : Word) :
    (s.withHiddenOf h).setReg i v = (s.setReg i v).withHiddenOf h := by
  unfold State.setReg; split <;> rfl

/-- A state with its own hidden state and configuration is itself. -/
theorem State.withHiddenOf_self : s.withHiddenOf s = s := rfl

/-- What stands in the place of the hidden state is there afterwards. -/
theorem State.withHiddenOf_sameHidden : (s.withHiddenOf h).SameHidden h :=
  ⟨rfl, rfl, rfl, rfl, rfl, rfl, rfl, rfl, rfl, rfl, rfl⟩

theorem State.withHiddenOf_cfg : (s.withHiddenOf h).cfg = h.cfg := rfl

theorem exec_withHiddenOf (i : Instr) : exec i (s.withHiddenOf h) = mapNext (·.withHiddenOf h) (exec i s) := by
  cases i with
  | add => simp [exec_add, mapNext]
  | and => simp [exec_and, mapNext]
  | sll => simp [exec_sll, mapNext]
  | srl => simp [exec_srl, mapNext]
  | addi => simp [exec_addi, mapNext]
  | bne rs1 rs2 off =>
    by_cases hr : s.reg rs1 = s.reg rs2
    · rw [exec_bne_not_taken hr, exec_bne_not_taken (s := s.withHiddenOf h) hr]; rfl
    · rw [exec_bne_taken hr, exec_bne_taken (s := s.withHiddenOf h) hr]; rfl
  | lw rd rs1 imm =>
    cases ha : s.accessFault .load (s.effectiveAddress rs1 imm) with
    | none => rw [exec_lw_ok ha, exec_lw_ok (s := s.withHiddenOf h) ha]; simp [mapNext]
    | some f => rw [exec_lw_fault ha, exec_lw_fault (s := s.withHiddenOf h) ha]; rfl
  | sw rs2 rs1 imm =>
    cases ha : s.accessFault .store (s.effectiveAddress rs1 imm) with
    | none => rw [exec_sw_ok ha, exec_sw_ok (s := s.withHiddenOf h) ha]; rfl
    | some f => rw [exec_sw_fault ha, exec_sw_fault (s := s.withHiddenOf h) ha]; rfl
  | csrrw => simp [exec_csrrw, mapNext]
  | csrrwi => simp [exec_csrrwi, mapNext]
  | xcelrd => simp [exec_xcelrd, mapNext]
  | xcelwr => simp [exec_xcelwr, mapNext]

theorem step_withHiddenOf : step (s.withHiddenOf h) = mapNext (·.withHiddenOf h) (step s) := by
  by_cases hh : s.pc = s.haltPc
  · rw [step_halted hh, step_halted (s := s.withHiddenOf h) hh]; rfl
  · have hn : s.isHalted = false := by simp [State.isHalted, hh]
    have hn' : (s.withHiddenOf h).isHalted = false := hn
    have hf : (s.withHiddenOf h).fetchDecode = s.fetchDecode := rfl
    simp only [step, hn, hn', hf]
    cases s.fetchDecode with
    | error f => rfl
    | ok i => exact exec_withHiddenOf s h i

/-- No instruction changes MEM_SIZE or HALT_PC (log entry 8). -/
theorem ExecNext.memSize_haltPc {s t : State} {i : Instr} (h : ExecNext s i t) :
    t.memSize = s.memSize ∧ t.haltPc = s.haltPc := by
  cases h with
  | reg | taken | notTaken | store | csrrw | csrrwi | xcelrd | xcelwr => simp

/-- A step that reads no hidden state also changes none: run it on the state with its own hidden state in place. -/
theorem step_next_withHiddenOf {s t : State} (h : step s = .next t) : t.withHiddenOf s = t := by
  have hs := step_withHiddenOf s s
  rw [State.withHiddenOf_self, h] at hs
  injection hs with hs
  exact hs.symm

theorem step_sameParams_sameHidden {s t : State} (h : step s = .next t) : t.SameParams s ∧ t.SameHidden s := by
  have ht := step_next_withHiddenOf h
  have hp : t.memSize = s.memSize ∧ t.haltPc = s.haltPc := by
    rcases step_next_cases h with rfl | ⟨-, i, -, hi⟩
    · exact ⟨rfl, rfl⟩
    · exact hi.memSize_haltPc
  have hc : t.cfg = s.cfg := by rw [← ht]; rfl
  exact ⟨⟨hp.1, hp.2, hc⟩, ht ▸ State.withHiddenOf_sameHidden t s⟩

end Sys2Proof.Machine

open Sys2Proof Sys2Proof.Machine

/-- Settles O37: the step commutes with putting another hidden state in place, from which its own follows to be unchanged. -/
theorem stepNeitherReadsNorChangesHiddenState : Obligations.StepNeitherReadsNorChangesHiddenState :=
  ⟨step_withHiddenOf, fun _ _ => step_sameParams_sameHidden⟩
end

section
/-! Load and reset (spec/10_state.md R43): what `load` leaves, and that it meets both invariants. -/

namespace Sys2Proof.Machine

theorem getLsbD_zero_of_aligned4 {a : Word} (h : aligned4 a = true) : a.getLsbD 0 = false := by
  have := (aligned4_iff a).1 h
  rw [BitVec.getLsbD, Nat.testBit_zero, decide_eq_false_iff_not]
  omega

/-- A key that is not listed reads the default. -/
theorem sparseGet_of_not_listed {α : Type} (dflt : α) {l : List (Nat × α)} {k : Nat} (h : ∀ p ∈ l, p.1 ≠ k) :
    sparseGet dflt l k = dflt := by
  induction l with
  | nil => rfl
  | cons p l ih =>
    obtain ⟨hp, hl⟩ := List.forall_mem_cons.1 h
    rw [sparseGet_cons, if_neg (Ne.symm hp), ih hl]

/-- The image of a load lists only addresses it covers, and no unlisted byte. -/
theorem bounds_of_mem_memOfBytes {bs : List Byte} {a : Nat} {p : Host.Cell} (h : p ∈ memOfBytes a bs) :
    a ≤ p.1 ∧ p.1 < a + bs.length ∧ p.2 ≠ unlistedByte := by
  induction bs generalizing a with
  | nil => cases h
  | cons b bs ih =>
    rw [memOfBytes] at h
    split at h
    · obtain ⟨h1, h2, h3⟩ := ih h
      exact ⟨by omega, by simp; omega, h3⟩
    · next hb =>
      rcases List.mem_cons.1 h with rfl | h
      · exact ⟨le_refl _, by simp, hb⟩
      · obtain ⟨h1, h2, h3⟩ := ih h
        exact ⟨by omega, by simp; omega, h3⟩

theorem sparseRising_memOfBytes (bs : List Byte) (a : Nat) : sparseRising (memOfBytes a bs) = true := by
  induction bs generalizing a with
  | nil => rfl
  | cons b bs ih =>
    rw [memOfBytes]
    split
    · exact ih _
    · exact sparseRising_cons.2 ⟨fun p hp => (bounds_of_mem_memOfBytes hp).1, ih _⟩

theorem memWf_memOfBytes (image : List Byte) : Memory.wf image.length (memOfBytes 0 image) = true :=
  (sparseWf_iff unlistedByte).2 ⟨sparseRising_memOfBytes image 0, fun p hp => by
    obtain ⟨-, hlt, hne⟩ := bounds_of_mem_memOfBytes hp
    exact ⟨by simpa using hlt, hne⟩⟩

/-- Every byte of a loaded image reads back, an unlisted one as the default. -/
theorem sparseGet_memOfBytes (bs : List Byte) (a k : Nat) (hk : k < bs.length) :
    sparseGet unlistedByte (memOfBytes a bs) (a + k) = bs[k] := by
  induction bs generalizing a k with
  | nil => cases hk
  | cons b bs ih =>
    cases k with
    | zero =>
      rw [memOfBytes]
      split
      · next hb =>
        rw [sparseGet_of_not_listed _ fun p hp => by have := (bounds_of_mem_memOfBytes hp).1; omega]
        exact hb.symm
      · exact if_pos rfl
    | succ k =>
      have hrest := ih (a + 1) k (Nat.lt_of_succ_lt_succ hk)
      rw [Nat.add_right_comm] at hrest
      rw [memOfBytes]
      split
      · exact hrest
      · rw [sparseGet_cons, if_neg (by omega)]; exact hrest

/-- An image of unlisted bytes is the empty list. -/
theorem memOfBytes_replicate (n a : Nat) : memOfBytes a (List.replicate n unlistedByte) = [] := by
  induction n generalizing a with
  | zero => rfl
  | succ n ih => rw [List.replicate_succ, memOfBytes, if_pos rfl, ih]

/-- `load` accepts exactly what passes its three checks, and leaves `State.loaded`. -/
theorem State.load_eq_ok_iff {image : List Byte} {entry haltPc : Word} {cfg : RunConfig} {accel : XcelChoice} {s : State} :
    State.load image entry haltPc cfg accel = .ok s ↔
      validMemSize image.length = true ∧ aligned4 entry = true ∧ cfg.valid = true ∧
        State.loaded image entry haltPc cfg accel = s := by
  unfold State.load
  cases validMemSize image.length <;> cases aligned4 entry <;> cases cfg.valid <;> simp

section Loaded

variable {image : List Byte} {entry haltPc : Word} {cfg : RunConfig} {accel : XcelChoice}

theorem State.loaded_reg (r : RegIdx) : (State.loaded image entry haltPc cfg accel).reg r = 0x00000000#32 := by
  simp [State.reg, State.loaded]

theorem State.loaded_isBusy (r : RegIdx) : (State.loaded image entry haltPc cfg accel).isBusy r = false := by
  simp [State.isBusy, State.loaded]

theorem State.loaded_byte {a : Nat} (ha : a < image.length) :
    (State.loaded image entry haltPc cfg accel).byte a = image[a] := by
  have h := sparseGet_memOfBytes image 0 a ha
  rwa [Nat.zero_add] at h

theorem State.loaded_archInv (hm : validMemSize image.length = true) (he : aligned4 entry = true) :
    (State.loaded image entry haltPc cfg accel).ArchInv where
  memWf := memWf_memOfBytes image
  csrWf := rfl
  memSizeValid := hm
  pcEven := getLsbD_zero_of_aligned4 he
  x0 := by simp [State.loaded]

theorem State.loaded_cycleInv (hm : validMemSize image.length = true) (he : aligned4 entry = true)
    (hc : cfg.valid = true) : (State.loaded image entry haltPc cfg accel).CycleInv where
  arch := State.loaded_archInv hm he
  config := hc
  phaseInv := ⟨rfl, nofun⟩
  noFault _ := rfl
  stallLeft := rfl
  stalledOnce := nofun
  xqDepth := Nat.zero_le _
  scoreboard r _ := State.loaded_isBusy r
  oneEach := List.Pairwise.nil
  xqShape := nofun
  xqIssued := nofun

end Loaded

end Sys2Proof.Machine

open Sys2Proof Sys2Proof.Machine

/-- Settles O39: the loaded state has the table's values, and its image reads back byte by byte. -/
theorem loadLeavesTheResetTable : Obligations.LoadLeavesTheResetTable := by
  intro image entry haltPc cfg accel s h
  obtain ⟨-, -, -, rfl⟩ := State.load_eq_ok_iff.1 h
  exact ⟨State.loaded_reg, rfl, fun _ => rfl, rfl, rfl, rfl, fun _ => State.loaded_byte,
    rfl, rfl, rfl, State.loaded_isBusy, rfl, rfl, rfl, rfl, rfl, rfl, rfl⟩

/-- Settles O45, by the three checks of `load`. -/
theorem loadMeetsCycleInvariant : Obligations.LoadMeetsCycleInvariant := by
  intro image entry haltPc cfg accel s h
  obtain ⟨hm, he, hc, rfl⟩ := State.load_eq_ok_iff.1 h
  exact State.loaded_cycleInv hm he hc

/-- Settles O41: the three checks pass, and an image of zero bytes lists nothing. -/
theorem resetIsALoad : Obligations.ResetIsALoad := by
  have hlen : (List.replicate 0x100000 (0x00#8 : Byte)).length = 0x100000 := List.length_replicate
  refine State.load_eq_ok_iff.2 ⟨by rw [hlen]; decide, by decide, by decide, ?_⟩
  have hmem : memOfBytes 0 (List.replicate 0x100000 0x00#8) = [] := memOfBytes_replicate 0x100000 0
  rw [State.loaded, hlen, hmem]
  rfl

/-- Settles O42: reset is a load, and what a load leaves meets both invariants. -/
theorem resetMeetsTheInvariants : Obligations.ResetMeetsTheInvariants :=
  have h := loadMeetsCycleInvariant _ _ _ _ _ _ resetIsALoad
  ⟨h.arch, h⟩
end

section
/-! The two register write ports (spec/10_state.md R24): a register an `xcelrd` in flight will write is busy, and neither an
acting instruction nor one with a data request in flight names a busy register. -/

namespace Sys2Proof.Machine

theorem State.mem_xq_of_xcelDue {s : State} {p : XcelRecord} (h : s.xcelDue = some p) : p ∈ s.xq := by
  unfold State.xcelDue at h
  split at h
  · next q rest hx =>
    split at h
    · cases h; rw [hx]; exact List.mem_cons_self
    · cases h
  · cases h

theorem State.CycleInv.isBusy_of_mem_xq {s : State} (hs : s.CycleInv) {p : XcelRecord} (hp : p ∈ s.xq) (hk : p.kind = .read)
    (h0 : p.rd ≠ 0#5) : s.isBusy p.rd = true := by
  rw [hs.scoreboard _ h0, List.any_eq_true]
  exact ⟨p, hp, by simp [XcelRecord.holds, hk]⟩

/-- The destination of a data request is x0 or a register the instruction writes. -/
theorem State.dataRequest_rd {s : State} {i : Instr} {r : MemRequest} (h : s.dataRequest i = some r) :
    r.rd = 0#5 ∨ r.rd ∈ i.writes := by
  cases i with
  | lw => cases h; exact .inr (List.mem_singleton_self _)
  | sw => cases h; exact .inl rfl
  | add | and | sll | srl | addi | bne | csrrw | csrrwi | xcelrd | xcelwr => cases h

theorem State.not_mem_writes_of_busy {s : State} {i : Instr} {r : RegIdx} (hi : s.stalls i = false)
    (hr : s.isBusy r = true) : r ∉ i.writes := fun hm => by
  rw [(State.stalls_false_iff s i).1 hi r (.inr hm)] at hr
  cases hr

theorem State.CycleInv.dataInFlight {s : State} (hs : s.CycleInv) (hp : s.phase = .memWait) {q : MemRecord}
    (hq : s.mq = [q]) : s.DataInFlight q := by
  have h := hs.phaseInv
  unfold State.PhaseInv at h
  rw [hp] at h
  obtain ⟨-, -, -, q', hq', hd, -⟩ := h
  rw [hq] at hq'
  cases hq'
  exact hd

/-- The destination of a data request in flight is never a busy register (70_reset_and_hazards.md R236). -/
theorem State.DataInFlight.rd_ne_of_busy {s : State} {q : MemRecord} (h : s.DataInFlight q) {r : RegIdx}
    (hr : s.isBusy r = true) (h0 : r ≠ 0#5) : r ≠ q.rd := by
  obtain ⟨i, -, hi, m, hm, -, -, -, -, hrd⟩ := h.request
  rintro rfl
  rcases State.dataRequest_rd hm with hz | hw
  · exact h0 (hrd.trans hz)
  · exact State.not_mem_writes_of_busy hi hr (hrd ▸ hw)

end Sys2Proof.Machine

open Sys2Proof Sys2Proof.Machine

/-- Settles O56: the destination is busy, and no instruction that commits writes a busy register. -/
theorem writePortsNeverCollide : Obligations.WritePortsNeverCollide := by
  intro s p hs hp hk h0
  have hb : s.isBusy p.rd = true := hs.isBusy_of_mem_xq (State.mem_xq_of_xcelDue hp) hk h0
  refine ⟨fun i hi => ?_, fun q hph hq => (hs.dataInFlight hph hq).rd_ne_of_busy hb h0⟩
  obtain ⟨-, -, hst⟩ := (State.acting_eq_some_iff s i).1 hi
  exact State.not_mem_writes_of_busy hst hb
end

section
/-! A store, then a load and a fetch (spec/20_memory.md R80, R82): after a store the word at its address is the datum, and every
other aligned word is as it was. -/

namespace Sys2Proof.Machine

@[simp] theorem State.memRead_setPc (s : State) (p a : Word) : (s.setPc p).memRead a = s.memRead a := rfl

/-- A store leaves every other aligned word alone: two aligned words are one or apart. -/
theorem State.memRead_memWrite_of_ne (s : State) {a b : Word} (v : Word) (ha : a.toNat % 4 = 0) (hb : b.toNat % 4 = 0)
    (h : b ≠ a) : (s.memWrite a v).memRead b = s.memRead b := by
  have hn : b.toNat ≠ a.toNat := fun e => h (BitVec.eq_of_toNat_eq e)
  exact State.memRead_memWrite_of_apart s a b v (by omega)

@[simp] theorem State.effectiveAddress_setPc (s : State) (p : Word) (rs1 : RegIdx) (imm : BitVec 12) :
    (s.setPc p).effectiveAddress rs1 imm = s.effectiveAddress rs1 imm := rfl

@[simp] theorem State.effectiveAddress_memWrite (s : State) (a v : Word) (rs1 : RegIdx) (imm : BitVec 12) :
    (s.memWrite a v).effectiveAddress rs1 imm = s.effectiveAddress rs1 imm := rfl

/-- An address legal for one access is legal for every access, in every state of the same MEM_SIZE. -/
theorem State.accessFault_none_of_memSize_eq {s t : State} {k : Access} {a : Word} (h : s.accessFault k a = none)
    (hm : s.memSize = t.memSize) (k' : Access) : t.accessFault k' a = none := by
  rw [State.accessFault_none_iff] at h ⊢
  rwa [← hm]

end Sys2Proof.Machine

open Sys2Proof Sys2Proof.Machine

/-- Settles O35: the access check a store has passed is the one the load and the fetch make, and each reads the word stored. -/
theorem loadAndFetchSeeTheMostRecentStore : Obligations.LoadAndFetchSeeTheMostRecentStore := by
  intro rs2 rs1 imm s t h
  cases execNext_of_exec h with
  | reg _ hw => cases hw
  | store hok =>
    refine ⟨fun rd => ?_, fun a ha hne => ?_, fun i hd hne => ?_⟩
    · rw [exec_lw_ok]
      · simp [State.pcPlus4_eq_ofNat]
      · exact State.accessFault_none_of_memSize_eq hok (by simp) .load
    · have hea := ((State.accessFault_none_iff ..).1 hok).1
      rw [State.memRead_setPc, State.memRead_memWrite_of_ne s _ hea ha hne]
    · refine step_eq_exec hne (State.accessFault_none_of_memSize_eq hok (by simp) .fetch) ?_
      simpa using hd
end

section
/-! The message layouts (spec/20_memory.md R66, R67; 45_xcel.md R184, R185): fields that lie side by side come apart as they were put
together, and the fields of a bit string put together again are the bit string. -/

namespace Sys2Proof

/-- Two neighbouring slices of a bit string, put back at their places, are the slice that spans both. -/
theorem place_slice_or_place_slice {m p q k n : Nat} (hq : q = p + k) (b : BitVec m) :
    place m q (b.extractLsb' q n) ||| place m p (b.extractLsb' p k) = place m p (b.extractLsb' p (k + n)) := by
  subst hq
  apply BitVec.eq_of_getLsbD_eq
  intro i hi
  simp only [BitVec.getLsbD_or, getLsbD_place, BitVec.getLsbD_extractLsb', hi, decide_true, Bool.true_and]
  by_cases h1 : p + k ≤ i
  · have e1 : p + k + (i - (p + k)) = i := by omega
    have e2 : p + (i - p) = i := by omega
    have h2 : p ≤ i := by omega
    have h3 : ¬ i - p < k := by omega
    have h4 : i - (p + k) < n ↔ i - p < k + n := by omega
    simp [h1, h2, h3, h4, e1, e2]
  · have h4 : p ≤ i → i - p < k ∧ i - p < k + n := by omega
    by_cases h2 : p ≤ i
    · simp [h1, h2, h4 h2]
    · simp [h1, h2]

/-- The slice that spans the whole bit string is the bit string. -/
theorem place_slice_whole {m : Nat} (b : BitVec m) : place m 0 (b.extractLsb' 0 m) = b := by
  simp [place]

end Sys2Proof

namespace Sys2Proof.Machine

@[simp] theorem ReqKind.ofBit_bit (k : ReqKind) : ReqKind.ofBit k.bit = k := by cases k <;> rfl

@[simp] theorem ReqKind.bit_ofBit (b : BitVec 1) : (ReqKind.ofBit b).bit = b := by
  rcases BitVec.eq_zero_or_eq_one b with rfl | rfl <;> rfl

theorem ReqKind.bit_eq_ite (k : ReqKind) : k.bit = if k = .write then 1#1 else 0#1 := by cases k <;> rfl

theorem MemReqMsg.unpack_pack (m : MemReqMsg) : MemReqMsg.unpack m.pack = m := by
  simp (disch := omega) only [MemReqMsg.unpack, MemReqMsg.pack, extract_or, extract_place, extract_place_apart,
    BitVec.or_zero, BitVec.zero_or, ReqKind.ofBit_bit]

theorem MemRespMsg.unpack_pack (m : MemRespMsg) : MemRespMsg.unpack m.pack = m := by
  simp (disch := omega) only [MemRespMsg.unpack, MemRespMsg.pack, extract_or, extract_place, extract_place_apart,
    BitVec.or_zero, BitVec.zero_or, ReqKind.ofBit_bit]

theorem XcelReqMsg.unpack_pack (m : XcelReqMsg) : XcelReqMsg.unpack m.pack = m := by
  simp (disch := omega) only [XcelReqMsg.unpack, XcelReqMsg.pack, extract_or, extract_place, extract_place_apart,
    BitVec.or_zero, BitVec.zero_or, ReqKind.ofBit_bit]

theorem XcelRespMsg.unpack_pack (m : XcelRespMsg) : XcelRespMsg.unpack m.pack = m := by
  simp (disch := omega) only [XcelRespMsg.unpack, XcelRespMsg.pack, extract_or, extract_place, extract_place_apart,
    BitVec.or_zero, BitVec.zero_or, ReqKind.ofBit_bit]

theorem MemReqMsg.pack_unpack (b : BitVec 76) : (MemReqMsg.unpack b).pack = b := by
  simp (disch := omega) only [MemReqMsg.unpack, MemReqMsg.pack, ReqKind.bit_ofBit, place_slice_or_place_slice,
    Nat.reduceAdd, place_slice_whole]

theorem MemRespMsg.pack_unpack (b : BitVec 41) : (MemRespMsg.unpack b).pack = b := by
  simp (disch := omega) only [MemRespMsg.unpack, MemRespMsg.pack, ReqKind.bit_ofBit, place_slice_or_place_slice,
    Nat.reduceAdd, place_slice_whole]

theorem XcelReqMsg.pack_unpack (b : BitVec 46) : (XcelReqMsg.unpack b).pack = b := by
  simp (disch := omega) only [XcelReqMsg.unpack, XcelReqMsg.pack, ReqKind.bit_ofBit, place_slice_or_place_slice,
    Nat.reduceAdd, place_slice_whole]

theorem XcelRespMsg.pack_unpack (b : BitVec 41) : (XcelRespMsg.unpack b).pack = b := by
  simp (disch := omega) only [XcelRespMsg.unpack, XcelRespMsg.pack, ReqKind.bit_ofBit, place_slice_or_place_slice,
    Nat.reduceAdd, place_slice_whole]

/-- The bit that stands for the kind `k`, read off an unpacked kind. -/
theorem ReqKind.eq_ite_of_ofBit_eq {b : BitVec 1} {k : ReqKind} (h : ReqKind.ofBit b = k) :
    b = if k = .write then 1#1 else 0#1 := by
  rw [← ReqKind.bit_eq_ite, ← h, ReqKind.bit_ofBit]

end Sys2Proof.Machine

open Sys2Proof Sys2Proof.Machine

/-- Settles O44: the fields that `unpack` reads stand at the bits of the tables, and `pack` and `unpack` are inverse to each other. -/
theorem messagesRoundTrip : Obligations.MessagesRoundTrip := by
  refine ⟨fun m => ?_, fun m => ?_, fun m => ?_, fun m => ?_, MemReqMsg.unpack_pack, MemReqMsg.pack_unpack,
    MemRespMsg.unpack_pack, MemRespMsg.pack_unpack, XcelReqMsg.unpack_pack, XcelReqMsg.pack_unpack,
    XcelRespMsg.unpack_pack, XcelRespMsg.pack_unpack⟩
  · have h := m.unpack_pack
    exact ⟨ReqKind.eq_ite_of_ofBit_eq (congrArg MemReqMsg.kind h), congrArg MemReqMsg.tag h, congrArg MemReqMsg.addr h,
      congrArg MemReqMsg.size h, congrArg MemReqMsg.data h⟩
  · have h := m.unpack_pack
    exact ⟨ReqKind.eq_ite_of_ofBit_eq (congrArg MemRespMsg.kind h), congrArg MemRespMsg.tag h, congrArg MemRespMsg.data h⟩
  · have h := m.unpack_pack
    exact ⟨ReqKind.eq_ite_of_ofBit_eq (congrArg XcelReqMsg.dir h), congrArg XcelReqMsg.tag h, congrArg XcelReqMsg.raddr h,
      congrArg XcelReqMsg.data h⟩
  · have h := m.unpack_pack
    exact ⟨ReqKind.eq_ite_of_ofBit_eq (congrArg XcelRespMsg.dir h), congrArg XcelRespMsg.tag h,
      congrArg XcelRespMsg.data h⟩
end

section
/-! What a tick does to `mq` (spec/20_memory.md R65 to R71): a request is presented by the fetch unit or by the acting instruction,
joins `mq` when it is accepted, and leaves it in its ready cycle; otherwise `mq` stays. -/

namespace Sys2Proof.Machine

/-! ### The phase invariant, phase by phase -/

theorem State.CycleInv.of_fetchIssue {s : State} (hs : s.CycleInv) (hp : s.phase = .fetchIssue) :
    s.mq = [] ∧ (s.stallDrawn = true → s.AtInstruction) := by
  simpa only [State.PhaseInv, hp] using hs.phaseInv

theorem State.CycleInv.of_execute {s : State} (hs : s.CycleInv) (hp : s.phase = .execute) :
    s.AtInstruction ∧ s.mq = [] ∧ s.ir = s.memRead s.pc ∧ (s.stallDrawn = true → s.DataPresented) := by
  simpa only [State.PhaseInv, hp] using hs.phaseInv

/-- A running core with a record in flight waits for that record alone, which is not overdue. -/
theorem State.CycleInv.of_inFlight {s : State} (hs : s.CycleInv) (hst : s.stopped = false) {q : MemRecord}
    {rest : List MemRecord} (hq : s.mq = q :: rest) :
    rest = [] ∧ (s.phase = .fetchWait ∨ s.phase = .memWait) ∧ s.cyc ≤ q.readyCycle := by
  have h := hs.phaseInv
  obtain ⟨hh, hf⟩ := (State.stopped_eq_false_iff s).1 hst
  cases hp : s.phase with
  | fetchIssue => simp [(hs.of_fetchIssue hp).1] at hq
  | execute => simp [(hs.of_execute hp).2.1] at hq
  | halted => exact absurd hp hh
  | faulted => exact absurd hp hf
  | fetchWait =>
    simp only [State.PhaseInv, hp] at h
    obtain ⟨-, -, q', hq', -, hc⟩ := h
    cases hq.symm.trans hq'
    exact ⟨rfl, .inl rfl, hc⟩
  | memWait =>
    simp only [State.PhaseInv, hp] at h
    obtain ⟨-, -, -, q', hq', -, hc⟩ := h
    cases hq.symm.trans hq'
    exact ⟨rfl, .inr rfl, hc⟩

/-! ### Who presents a request -/

/-- A presented request is the fetch, or the data request of the acting instruction; nothing is in flight and no fault is raised. -/
theorem State.arbiter_some_cases {s : State} {r : MemRequest} (h : s.arbiter = some r) :
    s.mq = [] ∧ s.coreFault = none ∧
      ((s.wantsFetch = true ∧ r = { kind := .read, addr := s.pc, data := 0x00000000#32, rd := 0#5 }) ∨
        ∃ i, s.acting = some i ∧ s.dataRequest i = some r) := by
  have hm : s.mq = [] := by
    cases hq : s.mq with
    | nil => rfl
    | cons q rest => simp [State.arbiter_inFlight hq] at h
  have hf : s.coreFault = none := by
    cases hc : s.coreFault with
    | none => rfl
    | some f => simp [State.arbiter, State.loadStoreRequest, State.fetchRequest, hc] at h
  refine ⟨hm, hf, ?_⟩
  cases ha : s.acting with
  | some i => exact .inr ⟨i, rfl, (State.arbiter_data ha hf hm).symm.trans h⟩
  | none =>
    cases hw : s.wantsFetch with
    | true => exact .inl ⟨rfl, Option.some.inj (h.symm.trans (State.arbiter_fetch hw hf hm))⟩
    | false => simp [State.arbiter, State.loadStoreRequest, State.fetchRequest, ha, hw] at h

/-- The core's action in a cycle that presents a request is to present it. -/
theorem State.coreAction_of_arbiter {s : State} {r : MemRequest} (h : s.arbiter = some r) (d : Draws) :
    ∃ waiting, s.coreAction d = s.presentMemory d waiting := by
  obtain ⟨-, -, ⟨hw, -⟩ | ⟨i, ha, hi⟩⟩ := State.arbiter_some_cases h
  · obtain ⟨hp, hh, hne⟩ := (State.wantsFetch_iff s).1 hw
    exact ⟨.fetchWait, by simp [State.coreAction, State.fetchIssueAction, State.isHalted, hp, hh, hne]⟩
  · have hp := ((State.acting_eq_some_iff s i).1 ha).1
    exact ⟨.memWait, by simp [State.coreAction, hp, State.executeAction_data ha hi]⟩

/-! ### Actions that leave `mq` alone -/

theorem ExecNext.mq {s t : State} {i : Instr} (h : ExecNext s i t) : t.mq = s.mq := by
  cases h with
  | reg | taken | notTaken | store | csrrw | csrrwi | xcelrd | xcelwr => simp

theorem State.executeAtOnce_mq (s : State) (i : Instr) : (s.executeAtOnce i).mq = s.mq := by
  unfold State.executeAtOnce
  split
  · next h => exact (execNext_of_exec h).mq
  · rfl
  · rfl

theorem State.issueXcel_mq (s : State) (d : Draws) : (s.issueXcel d).mq = s.mq := by
  unfold State.issueXcel
  split
  · rfl
  · simp

theorem State.executeAction_mq_of_noData {s : State} {i : Instr} (ha : s.acting = some i) (hi : s.dataRequest i = none)
    (d : Draws) : (s.executeAction d).mq = s.mq := by
  cases i with
  | lw | sw => cases hi
  | xcelrd | xcelwr => simpa [State.executeAction, ha, Instr.tag] using s.issueXcel_mq d
  | add | and | sll | srl | addi | bne | csrrw | csrrwi =>
    simpa [State.executeAction, ha, Instr.tag] using s.executeAtOnce_mq _

/-- With nothing in flight and nothing presented, the core's action leaves `mq` empty. -/
theorem State.coreAction_mq_of_idle {s : State} (hf : s.coreFault = none) (ha : s.arbiter = none) (hm : s.mq = [])
    (d : Draws) : (s.coreAction d).mq = [] := by
  cases hp : s.phase with
  | fetchIssue =>
    rw [State.coreAction, hp]
    rcases s.fetchIssueAction_cases d with ⟨-, h⟩ | ⟨-, -, -, h⟩ | ⟨-, -, -, h⟩ | ⟨-, -, h⟩
    · simp [h, hm]
    · simp [h, hm]
    · simp [h, hm]
    · simp [h, hm, State.presentMemory_none ha]
  | fetchWait => simp [State.coreAction, hp, State.fetchWaitAction, hm]
  | memWait => simp [State.coreAction, hp, State.memWaitAction, hm]
  | halted | faulted => simp [State.coreAction, hp, hm]
  | execute =>
    rw [State.coreAction, hp]
    cases hi : s.acting with
    | none => simp [State.executeAction_waiting hi, hm]
    | some i => exact (State.executeAction_mq_of_noData hi ((State.arbiter_data hi hf hm).symm.trans ha) d).trans hm

/-! ### The delivery of the Accelerator Port, seen from the Memory Port -/

section Delivery

variable (s t : State)

@[simp] theorem State.deliverXcel_pc : (s.deliverXcel t).pc = t.pc := by unfold State.deliverXcel; split <;> simp
@[simp] theorem State.deliverXcel_haltPc : (s.deliverXcel t).haltPc = t.haltPc := by unfold State.deliverXcel; split <;> simp
@[simp] theorem State.deliverXcel_mq : (s.deliverXcel t).mq = t.mq := by unfold State.deliverXcel; split <;> simp
@[simp] theorem State.deliverXcel_phase : (s.deliverXcel t).phase = t.phase := by unfold State.deliverXcel; split <;> simp
@[simp] theorem State.deliverXcel_ir : (s.deliverXcel t).ir = t.ir := by unfold State.deliverXcel; split <;> simp
@[simp] theorem State.deliverXcel_holdCtr : (s.deliverXcel t).holdCtr = t.holdCtr := by unfold State.deliverXcel; split <;> simp
@[simp] theorem State.deliverXcel_issueCtr : (s.deliverXcel t).issueCtr = t.issueCtr := by unfold State.deliverXcel; split <;> simp
@[simp] theorem State.deliverXcel_stallDrawn : (s.deliverXcel t).stallDrawn = t.stallDrawn := by unfold State.deliverXcel; split <;> simp

variable {s t}

/-- A delivery makes no register busy. -/
theorem State.isBusy_deliverXcel_of_not_busy {r : RegIdx} (h : t.isBusy r = false) : (s.deliverXcel t).isBusy r = false := by
  rcases State.deliverXcel_cases s t with ⟨q, -, -, -, hd⟩ | ⟨-, hd⟩
  · rw [hd, State.isBusy_congr (State.deliverHead_busy t q), State.isBusy_setBusy]
    simp [h]
  · rwa [hd]

/-- A delivery writes busy registers only (10_state.md R37). -/
theorem State.CycleInv.reg_deliverXcel {r : RegIdx} (hs : s.CycleInv) (h : s.isBusy r = false) :
    (s.deliverXcel t).reg r = t.reg r := by
  by_cases h0 : r = 0#5
  · subst h0; rfl
  rcases State.deliverXcel_cases s t with ⟨q, rest, hx, -, hd⟩ | ⟨-, hd⟩
  · have hq : q.holds r = false := by
      rw [hs.scoreboard r h0, List.any_eq_false] at h
      simpa using h q (hx ▸ List.mem_cons_self)
    rw [hd, State.reg_congr (State.deliverHead_x t q), State.reg_performXcel_of_not_holds hq]
  · rw [hd]

end Delivery

/-! ### `mq` after a tick -/

theorem State.tick_of_noFault {s : State} (hst : s.stopped = false) (hf : s.coreFault = none) (d : Draws) :
    s.tick d = { s.deliverXcel (s.coreAction d) with cyc := s.cyc + 1 } := by
  simp [State.tick, hst, hf]

theorem State.tick_mq_of_accepted {s : State} (hst : s.stopped = false) {r : MemRequest} {d : Draws}
    (h : s.arbiter = some r) (hr : s.memreqRdy d.stall = true) : (s.tick d).mq = [s.memRecord r] := by
  obtain ⟨hm, hf, -⟩ := State.arbiter_some_cases h
  obtain ⟨p, hp⟩ := State.coreAction_of_arbiter h d
  simp [State.tick_of_noFault hst hf, hp, State.presentMemory_ready h hr, hm]

/-- A request that is not taken costs the cycle: beside the delivery and the cycle count, the draw alone is noted (R68). -/
theorem State.tick_of_stalled {s : State} (hst : s.stopped = false) {r : MemRequest} {d : Draws}
    (h : s.arbiter = some r) (hr : s.memreqRdy d.stall = false) :
    s.tick d = { s.deliverXcel { s with stallDrawn := true, stallLeft := false } with cyc := s.cyc + 1 } := by
  obtain ⟨-, hf, -⟩ := State.arbiter_some_cases h
  obtain ⟨p, hp⟩ := State.coreAction_of_arbiter h d
  rw [State.tick_of_noFault hst hf, hp, State.presentMemory_stalled h hr]

theorem State.tick_mq_of_idle {s : State} (hst : s.stopped = false) (h : s.arbiter = none) (hm : s.mq = []) (d : Draws) :
    (s.tick d).mq = [] := by
  rcases State.tick_cases hst d with ⟨f, -, ht⟩ | ⟨hf, ht⟩
  · simp [ht, hm]
  · simp [ht, State.coreAction_mq_of_idle hf h hm]

/-- The record in flight leaves `mq` in its ready cycle and in no other (R69, R71). -/
theorem State.CycleInv.tick_mq_of_inFlight {s : State} (hs : s.CycleInv) (hst : s.stopped = false) {q : MemRecord}
    (hq : s.mq = [q]) (d : Draws) : (s.tick d).mq = if q.readyCycle = s.cyc then [] else [q] := by
  obtain ⟨-, hp, hc⟩ := hs.of_inFlight hst hq
  have hle : q.readyCycle ≤ s.cyc ↔ q.readyCycle = s.cyc := by omega
  have hf : s.coreFault = none := by rcases hp with hp | hp <;> simp [State.coreFault, hp]
  rw [State.tick_of_noFault hst hf]
  rcases hp with hp | hp
  · simp only [State.coreAction, hp, State.fetchWaitAction_eq hq, hle, State.deliverXcel_mq]
    split <;> simp [hq]
  · simp only [State.coreAction, hp, State.memWaitAction_eq hq, hle, State.deliverXcel_mq]
    split <;> simp [hq]

end Sys2Proof.Machine
end

section
/-! The Memory Port (spec/20_memory.md R65 to R71): legality of what is presented, the handshake, the stall and the latency. -/

namespace Sys2Proof.Machine

/-! ### What is presented is legal -/

theorem State.dataRequest_data_of_read {s : State} {i : Instr} {r : MemRequest} (h : s.dataRequest i = some r)
    (hk : r.kind = .read) : r.data = 0x00000000#32 := by
  cases i with
  | lw => cases h; rfl
  | sw => cases h; cases hk
  | add | and | sll | srl | addi | bne | csrrw | csrrwi | xcelrd | xcelwr => cases h

/-- The checks of a request are made in its first cycle; in its second the invariant keeps their result (70_reset_and_hazards.md
R245, R250). -/
theorem State.CycleInv.accessFault_of_arbiter {s : State} (hs : s.CycleInv) {r : MemRequest} (h : s.arbiter = some r) :
    ∃ k, s.accessFault k r.addr = none := by
  obtain ⟨-, hf, ⟨hw, rfl⟩ | ⟨i, ha, hi⟩⟩ := State.arbiter_some_cases h
  · have hp := ((State.wantsFetch_iff s).1 hw).1
    refine ⟨.fetch, ?_⟩
    cases hd : s.stallDrawn with
    | true => exact ((hs.of_fetchIssue hp).2 hd).fetchOk
    | false => simpa [State.coreFault_fetchIssue hp, hw, hd] using hf
  · obtain ⟨hp, hdec, hst⟩ := (State.acting_eq_some_iff s i).1 ha
    refine ⟨r.access, ?_⟩
    cases hd : s.stallDrawn with
    | false => exact (State.coreFault_data hp hdec hst hd hi).symm.trans hf
    | true =>
      obtain ⟨-, -, -, hpres⟩ := hs.of_execute hp
      obtain ⟨j, hj, -, r', hr', hok⟩ := (hpres hd).request
      cases hdec.symm.trans hj
      cases hi.symm.trans hr'
      exact hok

theorem State.arbiter_data_of_read {s : State} {r : MemRequest} (h : s.arbiter = some r) (hk : r.kind = .read) :
    r.data = 0x00000000#32 := by
  obtain ⟨-, -, ⟨-, rfl⟩ | ⟨i, -, hi⟩⟩ := State.arbiter_some_cases h
  · rfl
  · exact State.dataRequest_data_of_read hi hk

/-! ### A stalled request is presented again -/

/-- A data request depends on no register outside the `reads` column (40_decode_alu.md R123). -/
theorem State.dataRequest_congr {s t : State} {i : Instr} (h : ∀ r ∈ i.reads, t.reg r = s.reg r) :
    t.dataRequest i = s.dataRequest i := by
  cases i with
  | lw rd rs1 imm =>
    have h1 : t.reg rs1 = s.reg rs1 := h rs1 (by simp [Instr.reads])
    simp [State.dataRequest, State.effectiveAddress, h1]
  | sw rs2 rs1 imm =>
    have h1 : t.reg rs1 = s.reg rs1 := h rs1 (by simp [Instr.reads])
    have h2 : t.reg rs2 = s.reg rs2 := h rs2 (by simp [Instr.reads])
    simp [State.dataRequest, State.effectiveAddress, h1, h2]
  | add | and | sll | srl | addi | bne | csrrw | csrrwi | xcelrd | xcelwr => rfl

/-- The delivery of a stalled cycle reaches only busy registers, and the instruction that presents names none of them. -/
theorem State.CycleInv.arbiter_tick_of_stalled {s : State} (hs : s.CycleInv) (hst : s.stopped = false) {r : MemRequest}
    {d : Draws} (h : s.arbiter = some r) (hr : s.memreqRdy d.stall = false) : (s.tick d).arbiter = some r := by
  have ht := State.tick_of_stalled hst h hr
  obtain ⟨hm, -, ⟨hw, rfl⟩ | ⟨i, ha, hi⟩⟩ := State.arbiter_some_cases h
  · obtain ⟨hp, hh, hne⟩ := (State.wantsFetch_iff s).1 hw
    rw [State.arbiter_fetch]
    · simp [ht]
    · simp [State.wantsFetch_iff, ht, hp, hh, hne]
    · rw [State.coreFault_fetchIssue (by simp [ht, hp])]
      simp [ht]
    · simp [ht, hm]
  · obtain ⟨hp, hdec, hnb⟩ := (State.acting_eq_some_iff s i).1 ha
    rw [State.stalls_false_iff] at hnb
    have hp' : (s.tick d).phase = .execute := by simp [ht, hp]
    have hdec' : decode (s.tick d).ir = some i := by simp [ht, hdec]
    have hnb' : (s.tick d).stalls i = false := by
      rw [State.stalls_false_iff]
      exact fun q hq => ht ▸ State.isBusy_deliverXcel_of_not_busy (s := s) (hnb q hq)
    rw [State.arbiter_data ((State.acting_eq_some_iff ..).2 ⟨hp', hdec', hnb'⟩), State.dataRequest_congr, hi]
    · exact fun q hq => ht ▸ hs.reg_deliverXcel (hnb q (.inl hq))
    · exact State.coreFault_waiting hp' hdec' (.inr (by simp [ht]))
    · simp [ht, hm]

/-! ### Ready in the second cycle -/

theorem State.CycleInv.memreqRdy_of_stallDrawn {s : State} (hs : s.CycleInv) (h : s.stallDrawn = true) (b : Bool) :
    s.memreqRdy b = true := by
  simp [State.memreqRdy, h, hs.stallLeft]

/-- The issue cycle of a record is the first cycle of presentation (R70; log entry 17). -/
theorem State.CycleInv.memRecord_issueCycle {s : State} (hs : s.CycleInv) (r : MemRequest) :
    (s.memRecord r).issueCycle + (if s.stallDrawn then 1 else 0) = s.cyc := by
  cases h : s.stallDrawn with
  | false => simp [State.memRecord, h]
  | true =>
    have := hs.stalledOnce h
    simp only [State.memRecord, h, if_true]
    omega

/-! ### The response channel -/

/-- A response is taken exactly in the cycle the record in flight leaves `mq`. -/
theorem State.CycleInv.memresp_iff {s : State} (hs : s.CycleInv) (hst : s.stopped = false) (d : Draws) :
    (s.mq ≠ [] ∧ (s.tick d).mq = []) ↔ (s.memrespVal = true ∧ s.memrespRdy = true) := by
  cases hq : s.mq with
  | nil => simp [State.memrespVal, hq]
  | cons q rest =>
    obtain ⟨rfl, hp, hc⟩ := hs.of_inFlight hst hq
    have hrdy : s.memrespRdy = true := by simpa [State.memrespRdy] using hp
    have hle : q.readyCycle ≤ s.cyc ↔ q.readyCycle = s.cyc := by omega
    rw [hs.tick_mq_of_inFlight hst hq d]
    simp [State.memrespVal, hq, hrdy, hle]

/-- A request is taken exactly in the cycle its record joins `mq`. -/
theorem State.memreq_iff {s : State} (hst : s.stopped = false) (d : Draws) :
    (s.mq = [] ∧ (s.tick d).mq ≠ []) ↔ (s.memreqVal = true ∧ s.memreqRdy d.stall = true) := by
  cases ha : s.arbiter with
  | none =>
    have hidle := fun hm => State.tick_mq_of_idle hst ha hm d
    simpa [State.memreqVal, ha] using hidle
  | some r =>
    have hm := (State.arbiter_some_cases ha).1
    cases hr : s.memreqRdy d.stall with
    | true => simp [State.memreqVal, ha, hm, State.tick_mq_of_accepted hst ha hr]
    | false => simp [hm, State.tick_of_stalled hst ha hr]

end Sys2Proof.Machine

open Sys2Proof Sys2Proof.Machine

/-- Settles O51: the two channels by what a tick does to `mq`; a stalled request by the frame of the delivery. -/
theorem memoryPortHandshake : Obligations.MemoryPortHandshake := by
  intro s d hs _ hst
  refine ⟨State.memreq_iff hst d, hs.memresp_iff hst d, fun hv hr => ?_⟩
  obtain ⟨r, ha⟩ := Option.isSome_iff_exists.1 hv
  have ha' := hs.arbiter_tick_of_stalled hst ha hr
  have hctr : (s.tick d).issueCtr = s.issueCtr := by simp [State.tick_of_stalled hst ha hr]
  simp [State.memreqVal, State.memreqMsg, ha, ha', hctr]

/-- Settles O52: no stall is owed in the second cycle, an accepted request leaves its record, and the record leaves in its ready
cycle. -/
theorem memoryRequestStallAndLatency : Obligations.MemoryRequestStallAndLatency := by
  intro s d hs _ hst
  refine ⟨fun h => hs.memreqRdy_of_stallDrawn h _, fun r ha hr => ?_, fun q hq => ?_⟩
  · exact ⟨s.memRecord r, State.tick_mq_of_accepted hst ha hr, rfl, rfl, hs.memRecord_issueCycle r, rfl, rfl, rfl⟩
  · rw [hs.tick_mq_of_inFlight hst hq d]
    simp

/-- Settles O53: a presented request has passed the access check, and a read carries no datum. -/
theorem presentedMemoryRequestIsLegal : Obligations.PresentedMemoryRequestIsLegal := by
  intro s m hs hm
  obtain ⟨r, ha, rfl⟩ := Option.map_eq_some_iff.1 hm
  obtain ⟨k, hok⟩ := hs.accessFault_of_arbiter ha
  obtain ⟨hal, hin⟩ := (State.accessFault_none_iff ..).1 hok
  exact ⟨rfl, hal, hin, State.arbiter_data_of_read ha⟩
end

section
/-! Fields of a word put back where they were read, and fields written next to each other (spec/30_encoding.md R91, R98, R99). -/

namespace Sys2Proof

/-- A field put back at its own place is the word with every other bit cleared. -/
theorem place_extract {m : Nat} (pos n : Nat) (w : BitVec m) :
    place m pos (w.extractLsb' pos n) = w &&& place m pos (BitVec.allOnes n) := by
  simpa using (place_and m pos (BitVec.allOnes n) w).symm.trans (BitVec.and_comm ..)

theorem place_at_zero {n : Nat} (v : BitVec n) : place n 0 v = v := by
  simp [place]

/-- Two fields written next to each other are placed one above the other. -/
theorem place_append {n k : Nat} (m pos : Nat) (u : BitVec n) (v : BitVec k) :
    place m pos (u ++ v) = place m (k + pos) u ||| place m pos v := by
  simp [place, BitVec.setWidth_append_eq_shiftLeft_setWidth_or, BitVec.shiftLeft_or_distrib, BitVec.shiftLeft_add]

theorem fieldImmS_eq_append (w : Word) : fieldImmS w = w.extractLsb' 25 7 ++ w.extractLsb' 7 5 := by
  rw [← place_at_zero (w.extractLsb' 25 7 ++ w.extractLsb' 7 5), place_append]; rfl

theorem fieldImmB_eq_append (w : Word) :
    fieldImmB w =
      w.extractLsb' 31 1 ++ w.extractLsb' 7 1 ++ w.extractLsb' 25 6 ++ w.extractLsb' 8 4 ++ 0#1 := by
  rw [← place_at_zero (_ ++ 0#1)]
  simp only [place_append, place_zero, BitVec.or_zero]
  rfl

end Sys2Proof
end

section
/-! The word of an instruction: each format's operands are read back from the fields they were written to (R92 to R99). -/

namespace Sys2Proof

theorem fields_encodeR (f : BitVec 3) (rd rs1 rs2 : RegIdx) :
    fieldRd (encodeR f rd rs1 rs2) = rd ∧ fieldRs1 (encodeR f rd rs1 rs2) = rs1 ∧ fieldRs2 (encodeR f rd rs1 rs2) = rs2 := by
  simp (disch := omega) [fieldRd, fieldRs1, fieldRs2, encodeR, extract_or, extract_place, extract_place_apart]

theorem fields_encodeI (op : BitVec 7) (f : BitVec 3) (rd rs1 : RegIdx) (imm : BitVec 12) :
    fieldRd (encodeI op f rd rs1 imm) = rd ∧ fieldRs1 (encodeI op f rd rs1 imm) = rs1 ∧
      fieldImmI (encodeI op f rd rs1 imm) = imm := by
  simp (disch := omega) [fieldRd, fieldRs1, fieldImmI, encodeI, extract_or, extract_place, extract_place_apart]

theorem fields_encodeS (rs2 rs1 : RegIdx) (imm : BitVec 12) :
    fieldRs2 (encodeS rs2 rs1 imm) = rs2 ∧ fieldRs1 (encodeS rs2 rs1 imm) = rs1 ∧ fieldImmS (encodeS rs2 rs1 imm) = imm := by
  have himm := place_or_place (n := 12) (k := 5) (by decide) imm
  simp (disch := omega) [fieldRs1, fieldRs2, fieldImmS, encodeS, extract_or, extract_place, extract_place_apart, himm]

/-- The four parts of a branch offset, put together, are the offset without its bit 0. -/
theorem offset_parts (off : BitVec 13) :
    place 13 12 (off.extractLsb' 12 1) ||| place 13 11 (off.extractLsb' 11 1) ||| place 13 5 (off.extractLsb' 5 6) |||
      place 13 1 (off.extractLsb' 1 4) = off &&& 0x1FFE#13 := by
  simp only [place_extract, ← BitVec.and_or_distrib_left]
  rfl

theorem and_evenMask_of_evenOffset {off : BitVec 13} (h : evenOffset off = true) : off &&& 0x1FFE#13 = off := by
  have hbit : off &&& 1#13 = 0#13 := by
    have hb : off.getLsbD 0 = false := by simpa [evenOffset] using h
    simp [BitVec.and_one_eq_setWidth_ofBool_getLsbD, hb, -BitVec.getLsbD_eq_getElem]
  calc off &&& 0x1FFE#13
      = off &&& 0x1FFE#13 ||| off &&& 1#13 := by rw [hbit, BitVec.or_zero]
    _ = off &&& BitVec.allOnes 13 := by rw [← BitVec.and_or_distrib_left]; rfl
    _ = off := BitVec.and_allOnes

theorem fields_encodeB (rs1 rs2 : RegIdx) {off : BitVec 13} (h : evenOffset off = true) :
    fieldRs1 (encodeB rs1 rs2 off) = rs1 ∧ fieldRs2 (encodeB rs1 rs2 off) = rs2 ∧ fieldImmB (encodeB rs1 rs2 off) = off := by
  have hoff := (offset_parts off).trans (and_evenMask_of_evenOffset h)
  simp (disch := omega) [fieldRs1, fieldRs2, fieldImmB, encodeB, extract_or, extract_place, extract_place_apart, hoff]

theorem fields_encodeC (f : BitVec 3) (rd : RegIdx) (csr : CsrIdx) (src : BitVec 5) :
    fieldRd (encodeC f rd csr src) = rd ∧ fieldCsr (encodeC f rd csr src) = csr ∧ fieldRs1 (encodeC f rd csr src) = src := by
  simp (disch := omega) [fieldRd, fieldRs1, fieldCsr, encodeC, extract_or, extract_place, extract_place_apart]

theorem fields_encodeX (f : BitVec 3) (rd rs1 : RegIdx) (xr : XcelIdx) :
    fieldRd (encodeX f rd rs1 xr) = rd ∧ fieldRs1 (encodeX f rd rs1 xr) = rs1 ∧ fieldXr (encodeX f rd rs1 xr) = xr := by
  simp (disch := omega) [fieldRd, fieldRs1, fieldXr, encodeX, extract_or, extract_place, extract_place_apart]

end Sys2Proof
end

section
/-! Encode and decode are inverse to each other (R100 to R103). -/

namespace Sys2Proof

/-- The word of an instruction matches the instruction's own row. -/
theorem row_matches_encode (i : Instr) : i.row.matches (encode i) = true := by
  have h : Laws.RowMatch.Statement i := by
    cases i with
    | add => exact Laws.RowMatch.add ..
    | and => exact Laws.RowMatch.and ..
    | sll => exact Laws.RowMatch.sll ..
    | srl => exact Laws.RowMatch.srl ..
    | addi => exact Laws.RowMatch.addi ..
    | bne => exact Laws.RowMatch.bne ..
    | lw => exact Laws.RowMatch.lw ..
    | sw => exact Laws.RowMatch.sw ..
    | csrrw => exact Laws.RowMatch.csrrw ..
    | csrrwi => exact Laws.RowMatch.csrrwi ..
    | xcelrd => exact Laws.RowMatch.xcelrd ..
    | xcelwr => exact Laws.RowMatch.xcelwr ..
  exact decide_eq_true h

/-- The row of a well-formed instruction rebuilds it from its word. -/
theorem row_build_encode {i : Instr} (hi : i.WellFormed) : i.row.build (encode i) = i := by
  cases i with
  | add rd rs1 rs2 | and rd rs1 rs2 | sll rd rs1 rs2 | srl rd rs1 rs2 =>
    simp [Instr.row, Row.add, Row.and, Row.sll, Row.srl, encode, fields_encodeR]
  | addi rd rs1 imm | lw rd rs1 imm => simp [Instr.row, Row.addi, Row.lw, encode, fields_encodeI]
  | sw rs2 rs1 imm => simp [Instr.row, Row.sw, encode, fields_encodeS]
  | bne rs1 rs2 off => simp [Instr.row, Row.bne, encode, fields_encodeB rs1 rs2 hi]
  | csrrw rd csr src | csrrwi rd csr src =>
    simp [Instr.row, Row.csrrw, Row.csrrwi, encode, fields_encodeC, show fieldUimm = fieldRs1 from rfl]
  | xcelrd rd xr | xcelwr xr rs1 => simp [Instr.row, Row.xcelrd, Row.xcelwr, encode, fields_encodeX]

theorem decode_encode {i : Instr} (hi : i.WellFormed) : decode (encode i) = some i := by
  rw [decode_of_matches (row_mem_rows i) (row_matches_encode i), row_build_encode hi]

/-! ### A word's own fields, encoded again -/

/-- The `n` bits of a word from bit `pos` up. -/
def fieldBits (pos n : Nat) : Word := place 32 pos (BitVec.allOnes n)

theorem place_extract_eq_and_fieldBits (pos n : Nat) (w : Word) : place 32 pos (w.extractLsb' pos n) = w &&& fieldBits pos n :=
  place_extract pos n w

theorem encodeR_fields (f : BitVec 3) (w : Word) :
    encodeR f (fieldRd w) (fieldRs1 w) (fieldRs2 w) =
      encodeR f 0#5 0#5 0#5 ||| (w &&& (fieldBits 20 5 ||| fieldBits 15 5 ||| fieldBits 7 5)) := by
  simp only [encodeR, fieldRd, fieldRs1, fieldRs2, place_extract_eq_and_fieldBits, BitVec.and_or_distrib_left, place_zero,
    BitVec.or_zero, BitVec.zero_or]
  ac_rfl

theorem encodeI_fields (op : BitVec 7) (f : BitVec 3) (w : Word) :
    encodeI op f (fieldRd w) (fieldRs1 w) (fieldImmI w) =
      encodeI op f 0#5 0#5 0#12 ||| (w &&& (fieldBits 20 12 ||| fieldBits 15 5 ||| fieldBits 7 5)) := by
  simp only [encodeI, fieldRd, fieldRs1, fieldImmI, place_extract_eq_and_fieldBits, BitVec.and_or_distrib_left, place_zero,
    BitVec.zero_or]
  ac_rfl

theorem extract_fieldImmS (w : Word) :
    (fieldImmS w).extractLsb' 5 7 = w.extractLsb' 25 7 ∧ (fieldImmS w).extractLsb' 0 5 = w.extractLsb' 7 5 := by
  simp (disch := omega) [fieldImmS, extract_or, extract_place, extract_place_apart]

theorem encodeS_fields (w : Word) :
    encodeS (fieldRs2 w) (fieldRs1 w) (fieldImmS w) =
      encodeS 0#5 0#5 0#12 ||| (w &&& (fieldBits 25 7 ||| fieldBits 20 5 ||| fieldBits 15 5 ||| fieldBits 7 5)) := by
  obtain ⟨h5, h0⟩ := extract_fieldImmS w
  simp only [encodeS, fieldRs1, fieldRs2, h5, h0, place_extract_eq_and_fieldBits, BitVec.and_or_distrib_left, place_zero,
    BitVec.extractLsb'_zero, BitVec.zero_or]
  ac_rfl

theorem extract_fieldImmB (w : Word) :
    (fieldImmB w).extractLsb' 12 1 = w.extractLsb' 31 1 ∧ (fieldImmB w).extractLsb' 11 1 = w.extractLsb' 7 1 ∧
      (fieldImmB w).extractLsb' 5 6 = w.extractLsb' 25 6 ∧ (fieldImmB w).extractLsb' 1 4 = w.extractLsb' 8 4 := by
  simp (disch := omega) [fieldImmB, extract_or, extract_place, extract_place_apart]

theorem encodeB_fields (w : Word) :
    encodeB (fieldRs1 w) (fieldRs2 w) (fieldImmB w) =
      encodeB 0#5 0#5 0#13 |||
        (w &&& (fieldBits 31 1 ||| fieldBits 25 6 ||| fieldBits 20 5 ||| fieldBits 15 5 ||| fieldBits 8 4 ||| fieldBits 7 1)) := by
  obtain ⟨h12, h11, h5, h1⟩ := extract_fieldImmB w
  simp only [encodeB, fieldRs1, fieldRs2, h12, h11, h5, h1, place_extract_eq_and_fieldBits, BitVec.and_or_distrib_left, place_zero,
    BitVec.extractLsb'_zero, BitVec.zero_or, BitVec.or_zero]
  ac_rfl

theorem encodeC_fields (f : BitVec 3) (w : Word) :
    encodeC f (fieldRd w) (fieldCsr w) (fieldRs1 w) =
      encodeC f 0#5 0#12 0#5 ||| (w &&& (fieldBits 20 12 ||| fieldBits 15 5 ||| fieldBits 7 5)) :=
  encodeI_fields 0x73#7 f w

theorem encodeX_fields_read (w : Word) :
    encodeX 0#3 (fieldRd w) 0#5 (fieldXr w) = encodeX 0#3 0#5 0#5 0#5 ||| (w &&& (fieldBits 20 5 ||| fieldBits 7 5)) := by
  simp only [encodeX, fieldRd, fieldXr, place_extract_eq_and_fieldBits, BitVec.and_or_distrib_left, place_zero, BitVec.or_zero,
    BitVec.zero_or]
  ac_rfl

theorem encodeX_fields_write (w : Word) :
    encodeX 1#3 0#5 (fieldRs1 w) (fieldXr w) = encodeX 1#3 0#5 0#5 0#5 ||| (w &&& (fieldBits 20 5 ||| fieldBits 15 5)) := by
  simp only [encodeX, fieldRs1, fieldXr, place_extract_eq_and_fieldBits, BitVec.and_or_distrib_left, place_zero, BitVec.or_zero,
    BitVec.zero_or]
  ac_rfl

/-- The word of the instruction a row builds from `w` has the row's fixed bits, and every other bit from `w` (R103). -/
theorem encode_build {r : Row} (hr : r ∈ rows) (w : Word) : encode (r.build w) = r.pattern ||| (w &&& ~~~r.mask) := by
  simp only [rows, List.mem_cons, List.not_mem_nil, or_false] at hr
  rcases hr with rfl | rfl | rfl | rfl | rfl | rfl | rfl | rfl | rfl | rfl | rfl | rfl
  case inl | inr.inl | inr.inr.inl | inr.inr.inr.inl => exact encodeR_fields _ w
  · exact encodeI_fields _ _ w
  · exact encodeB_fields w
  · exact encodeI_fields _ _ w
  · exact encodeS_fields w
  · exact encodeC_fields _ w
  · exact encodeC_fields _ w
  · exact encodeX_fields_read w
  · exact encodeX_fields_write w

theorem encode_of_decode {w : Word} {i : Instr} (h : decode w = some i) : encode i = w := by
  obtain ⟨hm, hb⟩ := decode_some h
  calc encode i
      = encode (i.row.build w) := by rw [hb]
    _ = (w &&& i.row.mask) ||| (w &&& ~~~i.row.mask) := by rw [encode_build (row_mem_rows i), hm]
    _ = w := by rw [← BitVec.and_or_distrib_left, BitVec.or_not_self, BitVec.and_allOnes]

end Sys2Proof

open Sys2Proof

/-- Settles O2: the word matches the instruction's row, and the row reads every operand back. -/
theorem decodeOfEncodeIsIdentity : Obligations.DecodeOfEncodeIsIdentity :=
  fun _ => decode_encode

/-- Settles O3: encoding again keeps the bits the row fixes and the bits its operands hold, which together are all bits. -/
theorem legalWordHasNoIgnoredBits : Obligations.LegalWordHasNoIgnoredBits :=
  fun _ _ h => ⟨wellFormed_of_decode h, encode_of_decode h⟩
end

section
/-! The opcode map: one row at most matches a word, what each row decodes to, and the words that match none (R100 to R104). -/

namespace Sys2Proof

/-- Two rows that match one word are the same row: each is the row the decoder finds (R102). -/
theorem row_eq_of_matches {r q : Row} {w : Word} (hr : r ∈ rows) (hq : q ∈ rows) (hrw : r.matches w = true)
    (hqw : q.matches w = true) : r = q :=
  Option.some.inj ((find?_matches_of_mem rows_disjoint hr hrw).symm.trans (find?_matches_of_mem rows_disjoint hq hqw))

theorem Row.matches_iff (r : Row) (w : Word) : r.matches w = true ↔ w &&& r.mask = r.pattern := by
  simp [Row.matches]

/-- A word with the fixed bits of the row of `i` decodes by that row, whatever the operands of `i` are. -/
theorem decode_by_row_of (i : Instr) {w : Word} (hw : w &&& i.row.mask = i.row.pattern) : decode w = some (i.row.build w) :=
  decode_of_matches (row_mem_rows i) ((i.row.matches_iff w).2 hw)

/-- Where a row fixes a whole field, a word that matches it has that field of the row's pattern. -/
theorem Row.extract_of_matches {r : Row} {w : Word} (h : r.matches w = true) {p k : Nat}
    (hm : r.mask.extractLsb' p k = BitVec.allOnes k) : w.extractLsb' p k = r.pattern.extractLsb' p k := by
  rw [← (r.matches_iff w).1 h, BitVec.extractLsb'_and, hm, BitVec.and_allOnes]

end Sys2Proof

open Sys2Proof

/-- Settles O4: at most one row matches, so the first that matches is any that matches. -/
theorem decodeIsTheUniqueMatchingRow : Obligations.DecodeIsTheUniqueMatchingRow := by
  refine ⟨fun w r hr q hq hrw hqw => ?_, fun w r => decode_of_matches, fun w => ?_⟩
  · cases row_eq_of_matches hr hq hrw hqw; exact ⟨rfl, rfl⟩
  · simp only [decode_none_iff, Row.matches, decide_eq_false_iff_not, ne_eq]

/-- Settles O5, row by row; the parts of the S and B immediates lie next to each other. -/
theorem everyRowDecodesItsOperandFields : Obligations.EveryRowDecodesItsOperandFields := by
  intro w
  rw [← fieldImmS_eq_append, ← fieldImmB_eq_append]
  exact ⟨decode_by_row_of (.add 0 0 0), decode_by_row_of (.and 0 0 0), decode_by_row_of (.sll 0 0 0), decode_by_row_of (.srl 0 0 0),
    decode_by_row_of (.addi 0 0 0), decode_by_row_of (.bne 0 0 0), decode_by_row_of (.lw 0 0 0), decode_by_row_of (.sw 0 0 0),
    decode_by_row_of (.csrrw 0 0 0), decode_by_row_of (.csrrwi 0 0 0), decode_by_row_of (.xcelrd 0 0), decode_by_row_of (.xcelwr 0 0)⟩
end

section
/-! The codes of the words that match a row, and with them the words that match none (R104). -/

namespace Sys2Proof

/-- What the rows of R100 fix in a word, by opcode: the opcode (bits 6:0), the function code (14:12) and the fields that are zero. -/
inductive LegalCodes (w : Word) : Prop
  | register (opcode : w.extractLsb' 0 7 = 0x33#7) (funct3 : w.extractLsb' 12 3 ∈ [0#3, 1#3, 5#3, 7#3])
      (funct7 : w.extractLsb' 25 7 = 0#7)
  | addi (opcode : w.extractLsb' 0 7 = 0x13#7) (funct3 : w.extractLsb' 12 3 = 0#3)
  | bne (opcode : w.extractLsb' 0 7 = 0x63#7) (funct3 : w.extractLsb' 12 3 = 1#3)
  | lw (opcode : w.extractLsb' 0 7 = 0x03#7) (funct3 : w.extractLsb' 12 3 = 2#3)
  | sw (opcode : w.extractLsb' 0 7 = 0x23#7) (funct3 : w.extractLsb' 12 3 = 2#3)
  | csr (opcode : w.extractLsb' 0 7 = 0x73#7) (funct3 : w.extractLsb' 12 3 ∈ [1#3, 5#3])
  | xcelrd (opcode : w.extractLsb' 0 7 = 0x0B#7) (funct3 : w.extractLsb' 12 3 = 0#3) (funct7 : w.extractLsb' 25 7 = 0#7)
      (rs1 : w.extractLsb' 15 5 = 0#5)
  | xcelwr (opcode : w.extractLsb' 0 7 = 0x0B#7) (funct3 : w.extractLsb' 12 3 = 1#3) (funct7 : w.extractLsb' 25 7 = 0#7)
      (rd : w.extractLsb' 7 5 = 0#5)

theorem legalCodes_of_matches {r : Row} {w : Word} (hr : r ∈ rows) (h : r.matches w = true) : LegalCodes w := by
  have fixed := @Row.extract_of_matches r w h
  simp only [rows, List.mem_cons, List.not_mem_nil, or_false] at hr
  rcases hr with rfl | rfl | rfl | rfl | rfl | rfl | rfl | rfl | rfl | rfl | rfl | rfl
  case inl | inr.inl | inr.inr.inl | inr.inr.inr.inl =>
    exact .register (fixed rfl) (by rw [fixed (p := 12) (k := 3) rfl]; decide) (fixed rfl)
  · exact .addi (fixed rfl) (fixed rfl)
  · exact .bne (fixed rfl) (fixed rfl)
  · exact .lw (fixed rfl) (fixed rfl)
  · exact .sw (fixed rfl) (fixed rfl)
  · exact .csr (fixed rfl) (by rw [fixed (p := 12) (k := 3) rfl]; decide)
  · exact .csr (fixed rfl) (by rw [fixed (p := 12) (k := 3) rfl]; decide)
  · exact .xcelrd (fixed rfl) (fixed rfl) (fixed rfl) (fixed rfl)
  · exact .xcelwr (fixed rfl) (fixed rfl) (fixed rfl) (fixed rfl)

theorem legalCodes_of_decode_ne_none {w : Word} (h : decode w ≠ none) : LegalCodes w := by
  obtain ⟨i, hi⟩ := Option.ne_none_iff_exists'.1 h
  exact legalCodes_of_matches (row_mem_rows i) ((i.row.matches_iff w).2 (decode_some hi).1)

theorem LegalCodes.low_bits {w : Word} (h : LegalCodes w) : w.extractLsb' 0 2 = 3#2 := by
  have hlow : w.extractLsb' 0 2 = (w.extractLsb' 0 7).extractLsb' 0 2 := by simp [BitVec.extractLsb'_extractLsb'_of_le]
  rw [hlow]
  cases h with
  | register opcode | addi opcode | bne opcode | lw opcode | sw opcode | csr opcode | xcelrd opcode | xcelwr opcode =>
    rw [opcode]; rfl

end Sys2Proof

open Sys2Proof

/-- Settles O6: none of the listed codes is among those of a word that matches a row. -/
theorem listedReservedEncodingsAreIllegal : Obligations.ListedReservedEncodingsAreIllegal := by
  intro w h
  by_contra hd
  have hc := legalCodes_of_decode_ne_none hd
  rcases h with h | rfl | h
  · exact h hc.low_bits
  · exact hd (by decide)
  · cases hc with
    | register opcode funct3 funct7 =>
      have hf : w.extractLsb' 12 3 ∈ [2#3, 3#3, 4#3, 6#3] := by simpa [opcode, funct7] using h
      exact (show ∀ f : BitVec 3, f ∈ [0#3, 1#3, 5#3, 7#3] → f ∉ [2#3, 3#3, 4#3, 6#3] by decide) _ funct3 hf
    | addi opcode funct3 | bne opcode funct3 | lw opcode funct3 | sw opcode funct3 => simp [opcode, funct3] at h
    | csr opcode funct3 => exact absurd funct3 (by simpa [opcode] using h)
    | xcelrd opcode funct3 funct7 rs1 => simp [opcode, funct3, funct7, rs1] at h
    | xcelwr opcode funct3 funct7 rd => simp [opcode, funct3, funct7, rd] at h
end

section
/-! Instruction words in bytes (R90), and written operands (R111, R112). -/

namespace Sys2Proof

theorem bytesOfWord_wordOfBytes (b0 b1 b2 b3 : Byte) : bytesOfWord (wordOfBytes b0 b1 b2 b3) = [b0, b1, b2, b3] := by
  obtain ⟨h0, h1, h2, h3⟩ := wordByte_wordOfBytes b0 b1 b2 b3
  simp [bytesOfWord, h0, h1, h2, h3]

namespace Machine

/-! ### A form whose operands are each checked: it is there exactly when every operand is -/

section
variable {α β γ δ : Type} {a : Option α} {b : Option β} {c : Option γ}

theorem isSome_do_two {f : α → β → δ} :
    (do return f (← a) (← b) : Option δ).isSome = true ↔ a.isSome = true ∧ b.isSome = true := by
  cases a <;> cases b <;> simp

theorem isSome_do_three {f : α → β → γ → δ} :
    (do return f (← a) (← b) (← c) : Option δ).isSome = true ↔ a.isSome = true ∧ b.isSome = true ∧ c.isSome = true := by
  cases a <;> cases b <;> cases c <;> simp

theorem exists_of_do_two {f : α → β → δ} {r : δ} (h : (do return f (← a) (← b)) = some r) : ∃ x y, f x y = r := by
  obtain ⟨x, -, h⟩ := Option.bind_eq_some_iff.1 h
  obtain ⟨y, -, h⟩ := Option.bind_eq_some_iff.1 h
  exact ⟨x, y, Option.some.inj h⟩

theorem exists_of_do_three {f : α → β → γ → δ} {r : δ} (h : (do return f (← a) (← b) (← c)) = some r) :
    ∃ x y z, c = some z ∧ f x y z = r := by
  obtain ⟨x, -, h⟩ := Option.bind_eq_some_iff.1 h
  obtain ⟨y, -, h⟩ := Option.bind_eq_some_iff.1 h
  obtain ⟨z, hz, h⟩ := Option.bind_eq_some_iff.1 h
  exact ⟨x, y, z, hz, Option.some.inj h⟩
end

theorem isSome_unsignedField (n v : Nat) : (unsignedField n v).isSome = true ↔ v < 2 ^ n := by
  simp [unsignedField]

theorem isSome_unsignedField_five (v : Nat) : (unsignedField 5 v).isSome = true ↔ v ≤ 31 :=
  (isSome_unsignedField 5 v).trans Nat.lt_succ_iff

theorem isSome_unsignedField_twelve (v : Nat) : (unsignedField 12 v).isSome = true ↔ v ≤ 4095 :=
  (isSome_unsignedField 12 v).trans Nat.lt_succ_iff

theorem isSome_toField_signed (v : Int) : (AsmImm.signed v).toField.isSome = true ↔ -2048 ≤ v ∧ v ≤ 2047 := by
  simp [AsmImm.toField]

theorem isSome_toField_field (v : Nat) : (AsmImm.field v).toField.isSome = true ↔ v ≤ 4095 :=
  isSome_unsignedField_twelve v

theorem isSome_branchField (v : Int) : (branchField v).isSome = true ↔ -4096 ≤ v ∧ v ≤ 4094 ∧ v % 2 = 0 := by
  simp [branchField]

theorem evenOffset_of_branchField {v : Int} {off : BitVec 13} (h : branchField v = some off) : evenOffset off = true := by
  obtain ⟨⟨-, -, heven⟩, rfl⟩ : (-4096 ≤ v ∧ v ≤ 4094 ∧ v % 2 = 0) ∧ BitVec.ofInt 13 v = off := by
    simpa [branchField] using h
  have hnat : (v % 8192).toNat % 2 = 0 := by omega
  simp [evenOffset, BitVec.getLsbD, Nat.testBit_zero, hnat]

/-- What assembles is well formed: the written branch offset is even (R98, R112). -/
theorem wellFormed_of_assemble {a : AsmInstr} {i : Instr} (h : a.assemble = some i) : i.WellFormed := by
  cases a with
  | bne =>
    obtain ⟨_, _, _, hoff, rfl⟩ := exists_of_do_three h
    exact evenOffset_of_branchField hoff
  | add | and | sll | srl | addi | lw | sw | csrrw | csrrwi =>
    obtain ⟨_, _, _, -, rfl⟩ := exists_of_do_three h
    rfl
  | xcelrd | xcelwr =>
    obtain ⟨_, _, rfl⟩ := exists_of_do_two h
    rfl

end Machine
end Sys2Proof

open Sys2Proof Sys2Proof.Machine

/-- Settles O7: a word is fixed by its value, so `w` is the little-endian word of the four bytes. -/
theorem bytesDecodeLittleEndian : Obligations.BytesDecodeLittleEndian := by
  intro b0 b1 b2 b3 rest w hw
  obtain rfl : w = wordOfBytes b0 b1 b2 b3 := BitVec.eq_of_toNat_eq (hw.trans (toNat_wordOfBytes b0 b1 b2 b3).symm)
  have hbytes : b0 :: b1 :: b2 :: b3 :: rest = bytesOfWord (wordOfBytes b0 b1 b2 b3) ++ rest := by
    rw [bytesOfWord_wordOfBytes]; rfl
  rw [hbytes]
  exact ⟨fun i hi => decodeBytes_of_some hi rest, fun hn => decodeBytes_of_none hn rest, rfl⟩

/-- Settles O8: a form assembles exactly when each operand has its field, by the range of that field; what it gives is well formed. -/
theorem writtenOperandsOutOfRangeAreRefused : Obligations.WrittenOperandsOutOfRangeAreRefused := by
  refine ⟨fun rd rs1 rs2 => ?_, fun r r' v => ?_, fun r r' v => ?_, fun rs1 rs2 v => ?_, fun rd csr v => ?_, fun r r' => ?_,
    fun a i h => decode_encode (wellFormed_of_assemble h)⟩
  · simp only [List.forall_mem_cons, List.not_mem_nil, false_implies, implies_true, and_self, AsmInstr.assemble,
      isSome_do_three, isSome_unsignedField_five]
  · simp only [List.forall_mem_cons, List.not_mem_nil, false_implies, implies_true, and_self, AsmInstr.assemble,
      isSome_do_three, isSome_unsignedField_five, isSome_toField_signed]
  · simp only [List.forall_mem_cons, List.not_mem_nil, false_implies, implies_true, and_self, AsmInstr.assemble,
      isSome_do_three, isSome_unsignedField_five, isSome_toField_field]
  · exact isSome_do_three.trans (by rw [isSome_unsignedField_five, isSome_unsignedField_five, isSome_branchField])
  · simp only [List.forall_mem_cons, List.not_mem_nil, false_implies, implies_true, and_self, AsmInstr.assemble,
      isSome_do_three, isSome_unsignedField_five, isSome_unsignedField_twelve]
  · simp only [List.forall_mem_cons, List.not_mem_nil, false_implies, implies_true, and_self, AsmInstr.assemble,
      isSome_do_two, isSome_unsignedField_five]
end

section
/-! No instruction is without a meaning (R100, R101). -/

namespace Sys2Proof.Machine

theorem exec_ne_refused (i : Instr) (s : State) (r : Refusal) : exec i s ≠ .refused r := by
  cases i with
  | add | and | sll | srl | addi | csrrw | csrrwi | xcelrd | xcelwr => exact nofun
  | bne rs1 rs2 off =>
    by_cases h : s.reg rs1 = s.reg rs2
    · simp [exec_bne_not_taken h]
    · simp [exec_bne_taken h]
  | lw rd rs1 imm =>
    cases h : s.accessFault .load (s.effectiveAddress rs1 imm) with
    | none => simp [exec_lw_ok h]
    | some f => simp [exec_lw_fault h]
  | sw rs2 rs1 imm =>
    cases h : s.accessFault .store (s.effectiveAddress rs1 imm) with
    | none => simp [exec_sw_ok h]
    | some f => simp [exec_sw_fault h]

theorem step_ne_refused (s : State) (r : Refusal) : step s ≠ .refused r := by
  rcases step_cases s with ⟨-, hs⟩ | ⟨-, f, -, hs⟩ | ⟨-, -, -, hs⟩ | ⟨-, -, i, -, hs⟩ <;> rw [hs]
  · exact nofun
  · exact nofun
  · exact nofun
  · exact exec_ne_refused i s r

end Sys2Proof.Machine

open Sys2Proof.Machine

/-- Settles O12: `exec` arm by arm; a step adds only the halted state and the faults of its fetch and decoder. -/
theorem nothingIsRefused : Obligations.NothingIsRefused :=
  ⟨exec_ne_refused, step_ne_refused⟩
end

section
/-! The worked examples of the decoder (R134). -/

open Sys2Proof Sys2Proof.Machine

/-- Settles O1: ten words are the encodings of the table's instructions; the other two match none of the twelve rows. -/
theorem workedDecodeExamples : Obligations.WorkedDecodeExamples := by
  have legal {w : Word} (i : Instr) (hw : w = encode i) (hi : i.WellFormed) : decode w = some i := hw ▸ decode_encode hi
  exact ⟨legal _ rfl rfl, legal _ rfl rfl, legal _ rfl rfl, legal _ rfl rfl, legal _ rfl rfl, legal _ rfl rfl, legal _ rfl rfl,
    legal _ rfl rfl, legal _ rfl rfl, legal _ rfl rfl, decode_none_iff.2 (by decide), decode_none_iff.2 (by decide), rfl, rfl⟩
end

section
/-! The `reads` and `writes` columns (40_decode_alu.md R123): two states that agree on what an instruction reads have outcomes that
agree on what it writes. -/

namespace Sys2Proof.Machine

/-- The same pc, CSRs, memory, accelerator and MEM_SIZE, and the same value in every register of `rs`. -/
structure State.AgreesOn (rs : List RegIdx) (s s' : State) : Prop where
  pc      : s.pc = s'.pc
  csr     : s.csr = s'.csr
  mem     : s.mem = s'.mem
  xcel    : s.xcel = s'.xcel
  memSize : s.memSize = s'.memSize
  reg     : ∀ r ∈ rs, s.reg r = s'.reg r

/-- The same fault, or next states that agree on `rs`. -/
inductive OutcomesAgree (rs : List RegIdx) :
    Host.Outcome State Fault Refusal → Host.Outcome State Fault Refusal → Prop
  | next {t t' : State} (h : t.AgreesOn rs t') : OutcomesAgree rs (.next t) (.next t')
  | fault (f : Fault) : OutcomesAgree rs (.fault f) (.fault f)

theorem OutcomesAgree.fault_iff {rs : List RegIdx} {o o' : Host.Outcome State Fault Refusal} (h : OutcomesAgree rs o o')
    (f : Fault) : o = .fault f ↔ o' = .fault f := by
  cases h with
  | next => simp
  | fault => exact Iff.rfl

theorem OutcomesAgree.agreesOn {rs : List RegIdx} {t t' : State} (h : OutcomesAgree rs (.next t) (.next t')) :
    t.AgreesOn rs t' := by
  cases h with
  | next h => exact h

namespace State.AgreesOn
variable {rs : List RegIdx} {s s' : State}

/-! ### What is read from agreeing states -/

theorem pcPlus4 (h : s.AgreesOn rs s') : s.pcPlus4 = s'.pcPlus4 := congrArg (· + 4#32) h.pc

theorem csrRead (h : s.AgreesOn rs s') (k : CsrIdx) : s.csrRead k = s'.csrRead k :=
  congrArg (sparseGet 0x00000000#32 · k.toNat) h.csr

theorem xcelRead (h : s.AgreesOn rs s') (r : XcelIdx) : (s.xcelRead r).1 = (s'.xcelRead r).1 :=
  congrArg (fun x => (x.read r).1) h.xcel

theorem effectiveAddress (h : s.AgreesOn rs s') {rs1 : RegIdx} (hr : rs1 ∈ rs) (imm : BitVec 12) :
    s.effectiveAddress rs1 imm = s'.effectiveAddress rs1 imm :=
  congrArg (· + immOperand imm) (h.reg rs1 hr)

theorem accessFault (h : s.AgreesOn rs s') {rs1 : RegIdx} (hr : rs1 ∈ rs) (imm : BitVec 12) (k : Access) :
    s.accessFault k (s.effectiveAddress rs1 imm) = s'.accessFault k (s'.effectiveAddress rs1 imm) := by
  rw [h.effectiveAddress hr, State.accessFault_congr h.pc h.memSize]

/-! ### What is written to agreeing states -/

/-- One value written to one register of both: they agree on that register, whatever they agreed on before. -/
theorem setReg (h : s.AgreesOn rs s') (rd : RegIdx) (v : Word) : (s.setReg rd v).AgreesOn [rd] (s'.setReg rd v) where
  pc := by simp [h.pc]
  csr := by simp [h.csr]
  mem := by simp [h.mem]
  xcel := by simp [h.xcel]
  memSize := by simp [h.memSize]
  reg r hr := by simp [State.reg_setReg, List.mem_singleton.1 hr]

theorem setPc (h : s.AgreesOn rs s') (p : Word) : (s.setPc p).AgreesOn rs (s'.setPc p) :=
  { h with pc := rfl }

theorem csrWrite (h : s.AgreesOn rs s') (k : CsrIdx) (v : Word) : (s.csrWrite k v).AgreesOn rs (s'.csrWrite k v) :=
  { h with csr := congrArg (sparseSet 0x00000000#32 · k.toNat v) h.csr }

theorem memWrite (h : s.AgreesOn rs s') (a v : Word) : (s.memWrite a v).AgreesOn rs (s'.memWrite a v) :=
  { h with mem := congrArg (memSetWord · a.toNat v) h.mem }

theorem xcelWrite (h : s.AgreesOn rs s') (r : XcelIdx) (v : Word) : (s.xcelWrite r v).AgreesOn rs (s'.xcelWrite r v) :=
  { h with xcel := congrArg (·.write r v) h.xcel }

theorem xcelRead_snd (h : s.AgreesOn rs s') (r : XcelIdx) : (s.xcelRead r).2.AgreesOn rs (s'.xcelRead r).2 :=
  { h with xcel := congrArg (fun x => (x.read r).2) h.xcel }

/-- An instruction that goes on in sequence keeps the agreement. -/
theorem commit (h : s.AgreesOn rs s') : OutcomesAgree rs s.commit s'.commit := by
  rw [State.commit_eq, State.commit_eq, h.pcPlus4]
  exact .next (h.setPc _)

/-- An instruction that ends in a register write makes its states agree on that register. -/
theorem commitReg (h : s.AgreesOn rs s') (rd : RegIdx) {v v' : Word} (hv : v = v') :
    OutcomesAgree [rd] (s.commitReg rd v) (s'.commitReg rd v') :=
  hv ▸ (h.setReg rd v).commit

theorem csrSwap (h : s.AgreesOn rs s') (rd : RegIdx) (k : CsrIdx) {v v' : Word} (hv : v = v') :
    OutcomesAgree [rd] (s.csrSwap rd k v) (s'.csrSwap rd k v') :=
  hv ▸ (h.csrWrite k v).commitReg rd (h.csrRead k)

theorem mono {qs : List RegIdx} (h : s.AgreesOn rs s') (hq : qs ⊆ rs) : s.AgreesOn qs s' :=
  { h with reg := fun r hr => h.reg r (hq hr) }

end State.AgreesOn

/-- The effect of an instruction depends on no register outside its `reads` column. -/
theorem exec_agree {i : Instr} {s s' : State} (h : s.AgreesOn i.reads s') :
    OutcomesAgree i.writes (exec i s) (exec i s') := by
  have hnil : s.AgreesOn [] s' := h.mono (List.nil_subset _)
  cases i with
  | add rd rs1 rs2 | and rd rs1 rs2 | sll rd rs1 rs2 | srl rd rs1 rs2 =>
    have h1 : s.reg rs1 = s'.reg rs1 := h.reg rs1 (by simp [Instr.reads])
    have h2 : s.reg rs2 = s'.reg rs2 := h.reg rs2 (by simp [Instr.reads])
    exact h.commitReg rd (by rw [h1, h2])
  | addi rd rs1 imm =>
    have h1 : s.reg rs1 = s'.reg rs1 := h.reg rs1 (by simp [Instr.reads])
    exact h.commitReg rd (by rw [h1])
  | bne rs1 rs2 off =>
    have h1 : s.reg rs1 = s'.reg rs1 := h.reg rs1 (by simp [Instr.reads])
    have h2 : s.reg rs2 = s'.reg rs2 := h.reg rs2 (by simp [Instr.reads])
    by_cases he : s.reg rs1 = s.reg rs2
    · rw [exec_bne_not_taken he, exec_bne_not_taken (h1 ▸ h2 ▸ he)]
      exact hnil.commit
    · rw [exec_bne_taken he, exec_bne_taken (h1 ▸ h2 ▸ he), State.branchTarget, State.branchTarget, h.pc]
      exact .next (hnil.setPc _)
  | lw rd rs1 imm =>
    have hr : rs1 ∈ (Instr.lw rd rs1 imm).reads := by simp [Instr.reads]
    have ha := h.accessFault hr imm .load
    cases hc : s.accessFault .load (s.effectiveAddress rs1 imm) with
    | some f =>
      rw [exec_lw_fault hc, exec_lw_fault (ha.symm.trans hc)]
      exact .fault f
    | none =>
      rw [exec_lw_ok hc, exec_lw_ok (ha.symm.trans hc), ← State.commitReg_eq, ← State.commitReg_eq]
      exact h.commitReg rd (by rw [h.effectiveAddress hr, State.memRead_congr h.mem])
  | sw rs2 rs1 imm =>
    have hr : rs1 ∈ (Instr.sw rs2 rs1 imm).reads := by simp [Instr.reads]
    have h2 : s.reg rs2 = s'.reg rs2 := h.reg rs2 (by simp [Instr.reads])
    have ha := h.accessFault hr imm .store
    cases hc : s.accessFault .store (s.effectiveAddress rs1 imm) with
    | some f =>
      rw [exec_sw_fault hc, exec_sw_fault (ha.symm.trans hc)]
      exact .fault f
    | none =>
      rw [exec_sw_ok hc, exec_sw_ok (ha.symm.trans hc), h.effectiveAddress hr, h2]
      exact (hnil.memWrite _ _).commit
  | csrrw rd k rs1 =>
    have h1 : s.reg rs1 = s'.reg rs1 := h.reg rs1 (by simp [Instr.reads])
    exact h.csrSwap rd k h1
  | csrrwi rd k uimm => exact h.csrSwap rd k rfl
  | xcelrd rd r => exact (h.xcelRead_snd r).commitReg rd (h.xcelRead r)
  | xcelwr r rs1 =>
    have h1 : s.reg rs1 = s'.reg rs1 := h.reg rs1 (by simp [Instr.reads])
    rw [exec_xcelwr, exec_xcelwr, h1]
    exact (hnil.xcelWrite r _).commit

end Sys2Proof.Machine

open Sys2Proof Sys2Proof.Machine

/-- Settles O32: an instruction leaves every register outside its `writes` column alone, and states that agree on the `reads` column
have outcomes that agree on the `writes` column. -/
theorem readsAndWritesColumnsBoundTheEffect : Obligations.ReadsAndWritesColumnsBoundTheEffect := by
  refine ⟨fun i s t h r hr => (execNext_of_exec h).reg_of_not_mem_writes hr, fun i s s' hp hc hm hx hn hr => ?_⟩
  have h : OutcomesAgree i.writes (exec i s) (exec i s') := exec_agree ⟨hp, hc, hm, hx, hn, hr⟩
  refine ⟨h.fault_iff, fun t t' ht ht' => ?_⟩
  rw [ht, ht'] at h
  obtain ⟨hpc, hcsr, hmem, hxcel, -, hreg⟩ := h.agreesOn
  exact ⟨hpc, hcsr, hmem, hxcel, hreg⟩
end

section
/-! The decoder block and the control table (R120 to R124, R133): what the block's outputs carry for a decoded word, and what the
engine makes of outputs that carry an instruction. -/

namespace Sys2Proof

/-- The bits a row fixes stand in every word that matches it. -/
theorem Row.getLsbD_of_matches {r : Row} {w : Word} (h : w &&& r.mask = r.pattern) {k : Nat} (hk : r.mask.getLsbD k = true) :
    w.getLsbD k = r.pattern.getLsbD k := by
  rw [← h, BitVec.getLsbD_and, hk, Bool.and_true]

namespace Machine

/-- The decoder's outputs carry the instruction `i` (R121, R122): the tag, the flags that tell two forms of one tag apart, and the
immediate; the other operands are the register, CSR and accelerator outputs themselves. -/
inductive DecoderOut.Carries (d : DecoderOut) : Instr → Prop
  | add (tag : d.tag = .add) : d.Carries (.add d.rd d.rs1 d.rs2)
  | and (tag : d.tag = .and) : d.Carries (.and d.rd d.rs1 d.rs2)
  | sll (tag : d.tag = .sll) : d.Carries (.sll d.rd d.rs1 d.rs2)
  | srl (tag : d.tag = .srl) : d.Carries (.srl d.rd d.rs1 d.rs2)
  | addi {imm : BitVec 12} (tag : d.tag = .addi) (himm : d.imm = immOperand imm) : d.Carries (.addi d.rd d.rs1 imm)
  | bne {off : BitVec 13} (tag : d.tag = .bne) (himm : d.imm = offsetOperand off) : d.Carries (.bne d.rs1 d.rs2 off)
  | lw {imm : BitVec 12} (tag : d.tag = .lw) (himm : d.imm = immOperand imm) : d.Carries (.lw d.rd d.rs1 imm)
  | sw {imm : BitVec 12} (tag : d.tag = .sw) (himm : d.imm = immOperand imm) : d.Carries (.sw d.rs2 d.rs1 imm)
  | csrrw (tag : d.tag = .csrrw) (csrImm : d.csrImm = false) : d.Carries (.csrrw d.rd d.csr d.rs1)
  | csrrwi {uimm : BitVec 5} (tag : d.tag = .csrrw) (csrImm : d.csrImm = true) (himm : d.imm = uimmOperand uimm) :
      d.Carries (.csrrwi d.rd d.csr uimm)
  | xcelrd (tag : d.tag = .xcel) (xdir : d.xdir = false) : d.Carries (.xcelrd d.rd d.xr)
  | xcelwr (tag : d.tag = .xcel) (xdir : d.xdir = true) : d.Carries (.xcelwr d.xr d.rs1)

/-! ### The decoder block -/

theorem decoderBlock_illegal (w : Word) : (decoderBlock w).illegal = (decode w).isNone := rfl

theorem tagOut_of_decode {w : Word} {i : Instr} (h : decode w = some i) : tagOut w = i.tag := by
  simp [tagOut, h]

theorem xdirOut_of_tagOut {w : Word} (h : tagOut w = .xcel) : xdirOut w = w.getLsbD 12 := by
  rw [xdirOut, decide_eq_true h, Bool.true_and]

/-- The row of the decoded instruction says where its operands stand in the word, and that is where the block's outputs come from. -/
theorem decoderBlock_carries {w : Word} {i : Instr} (h : decode w = some i) : (decoderBlock w).Carries i := by
  obtain ⟨hmatch, hbuild⟩ := decode_some h
  have ht : (decoderBlock w).tag = i.tag := tagOut_of_decode h
  cases i with
  | add => cases hbuild; exact .add ht
  | and => cases hbuild; exact .and ht
  | sll => cases hbuild; exact .sll ht
  | srl => cases hbuild; exact .srl ht
  | addi => cases hbuild; exact .addi ht (by simp [decoderBlock, immOut, tagOut_of_decode h, Instr.tag])
  | bne => cases hbuild; exact .bne ht (by simp [decoderBlock, immOut, tagOut_of_decode h, Instr.tag])
  | lw => cases hbuild; exact .lw ht (by simp [decoderBlock, immOut, tagOut_of_decode h, Instr.tag])
  | sw => cases hbuild; exact .sw ht (by simp [decoderBlock, immOut, tagOut_of_decode h, Instr.tag])
  | csrrw => cases hbuild; exact .csrrw ht (by simp [decoderBlock, csrImmOut, h])
  | csrrwi =>
    have hu : csrImmOut w = true := by simp [csrImmOut, h]
    cases hbuild
    exact .csrrwi ht hu (by simp [decoderBlock, immOut, tagOut_of_decode h, Instr.tag, hu])
  | xcelrd =>
    have hbit : w.getLsbD 12 = false := (Row.getLsbD_of_matches (r := .xcelrd) hmatch (by decide)).trans (by decide)
    cases hbuild
    exact .xcelrd ht ((xdirOut_of_tagOut ht).trans hbit)
  | xcelwr =>
    have hbit : w.getLsbD 12 = true := (Row.getLsbD_of_matches (r := .xcelwr) hmatch (by decide)).trans (by decide)
    cases hbuild
    exact .xcelwr ht ((xdirOut_of_tagOut ht).trans hbit)

/-! ### The control table and the engine -/

theorem DecoderOut.Carries.tag_eq {d : DecoderOut} {i : Instr} (h : d.Carries i) : d.tag = i.tag := by
  cases h <;> assumption

theorem DecoderOut.Carries.reads_eq {d : DecoderOut} {i : Instr} (h : d.Carries i) : (controlOf d).reads = i.reads := by
  cases h <;> simp [controlOf, Instr.reads, *]

theorem DecoderOut.Carries.writes_eq {d : DecoderOut} {i : Instr} (h : d.Carries i) : (controlOf d).writes = i.writes := by
  cases h <;> simp [controlOf, Instr.writes, *]

theorem engine_of_illegal {d : DecoderOut} (h : d.illegal = true) (w : Word) (s : State) :
    engine d w s = .fault (.illegalInstruction s.pc w) := by
  simp [engine, h]

/-- Each row of the control table steers the engine to the instruction's own next state or fault. -/
theorem engine_of_carries {d : DecoderOut} {i : Instr} (h : d.Carries i) (hl : d.illegal = false) (w : Word) (s : State) :
    engine d w s = exec i s := by
  simp only [engine, hl, engineFault, engineWrites, engineXcelRead, writeBack, nextPc, aluY, Bool.false_eq_true, if_false]
  cases h with
  | add tag => simp [controlOf, tag, State.setReg?, exec_add]
  | and tag => simp [controlOf, tag, State.setReg?, exec_and]
  | sll tag => simp [controlOf, tag, State.setReg?, exec_sll]
  | srl tag => simp [controlOf, tag, State.setReg?, exec_srl]
  | addi tag himm => simp [controlOf, tag, himm, State.setReg?, exec_addi]
  | bne tag himm =>
    by_cases hr : s.reg d.rs1 = s.reg d.rs2
    · simp [controlOf, tag, State.setReg?, exec_bne_not_taken hr, aluNe, hr]
    · simp [controlOf, tag, himm, State.setReg?, exec_bne_taken hr, aluNe, hr, State.branchTarget]
  | @lw imm tag himm =>
    have hy : s.reg d.rs1 + d.imm = s.effectiveAddress d.rs1 imm := by rw [himm]; rfl
    cases ha : s.accessFault .load (s.effectiveAddress d.rs1 imm) with
    | none => simp [controlOf, tag, State.setReg?, hy, ha, exec_lw_ok ha]
    | some f => simp [controlOf, tag, hy, ha, exec_lw_fault ha]
  | @sw imm tag himm =>
    have hy : s.reg d.rs1 + d.imm = s.effectiveAddress d.rs1 imm := by rw [himm]; rfl
    cases ha : s.accessFault .store (s.effectiveAddress d.rs1 imm) with
    | none => simp [controlOf, tag, State.setReg?, hy, ha, exec_sw_ok ha]
    | some f => simp [controlOf, tag, hy, ha, exec_sw_fault ha]
  | csrrw tag csrImm => simp [controlOf, tag, csrImm, State.setReg?, exec_csrrw]
  | csrrwi tag csrImm himm => simp [controlOf, tag, csrImm, himm, State.setReg?, exec_csrrwi]
  | xcelrd tag xdir => simp [controlOf, tag, xdir, State.setReg?, exec_xcelrd]
  | xcelwr tag xdir => simp [controlOf, tag, xdir, State.setReg?, exec_xcelwr]

end Machine
end Sys2Proof

open Sys2Proof Sys2Proof.Machine

/-- Settles O43: the decoder block's outputs carry the decoded instruction, and the engine does with them what the instruction's rule
says. -/
theorem controlTableEngineEqualsExec : Obligations.ControlTableEngineEqualsExec := by
  refine fun w s => ⟨fun i hi => ?_, fun hn => engine_of_illegal (by rw [decoderBlock_illegal, hn]; rfl) w s⟩
  have hc : (decoderBlock w).Carries i := decoderBlock_carries hi
  have hl : (decoderBlock w).illegal = false := by rw [decoderBlock_illegal, hi]; rfl
  exact ⟨engine_of_carries hc hl w s, hl, hc.tag_eq, hc.reads_eq, hc.writes_eq⟩
end

section
/-! The ALU's results as numbers (spec/41_arith_logic_shift.md R140 to R144): a sum, a shift by the low 5 bits, a sum with a signed
immediate. -/

namespace Sys2Proof.Machine

theorem shiftAmount_eq_mod (b : Word) : shiftAmount b = b.toNat % 32 := by
  simp [shiftAmount, BitVec.extractLsb'_toNat]

theorem add_eq_ofNat (a b : Word) : a + b = BitVec.ofNat 32 (a.toNat + b.toNat) := by
  simp [BitVec.ofNat_add]

theorem shiftLeft_shiftAmount_eq_ofNat (a b : Word) :
    a <<< shiftAmount b = BitVec.ofNat 32 (a.toNat * 2 ^ (b.toNat % 32)) := by
  apply BitVec.eq_of_toNat_eq
  rw [shiftAmount_eq_mod, BitVec.toNat_shiftLeft, BitVec.toNat_ofNat, Nat.shiftLeft_eq]

theorem shiftRight_shiftAmount_eq_ofNat (a b : Word) :
    a >>> shiftAmount b = BitVec.ofNat 32 (a.toNat / 2 ^ (b.toNat % 32)) := by
  have hlt : a.toNat / 2 ^ (b.toNat % 32) < 2 ^ 32 := (Nat.div_le_self _ _).trans_lt a.isLt
  apply BitVec.eq_of_toNat_eq
  rw [shiftAmount_eq_mod, BitVec.toNat_ushiftRight, BitVec.toNat_ofNat, Nat.shiftRight_eq_div_pow, Nat.mod_eq_of_lt hlt]

/-- A register plus a 12-bit immediate: the operand of `addi` and the effective address of `lw` and `sw`. -/
theorem add_immOperand_eq_ofInt (a : Word) (imm : BitVec 12) :
    a + immOperand imm = BitVec.ofInt 32 (a.toNat + imm.toInt) := by
  simp [immOperand, sext32, BitVec.signExtend, BitVec.ofInt_add]

end Sys2Proof.Machine

open Sys2Proof Sys2Proof.Machine

/-- Settles O14: a sum of words is the sum of their numbers modulo 2^32. -/
theorem addCompletesWithSum : Obligations.AddCompletesWithSum := by
  intro rd rs1 rs2 s
  rw [exec_add, add_eq_ofNat, State.pcPlus4_eq_ofNat]

/-- Settles O15: the word is the ALU's AND, read bit by bit. -/
theorem andCompletesWithBitwiseAnd : Obligations.AndCompletesWithBitwiseAnd := by
  intro rd rs1 rs2 s
  refine ⟨s.reg rs1 &&& s.reg rs2, ?_, fun k _ => BitVec.getLsbD_and⟩
  rw [exec_and, State.pcPlus4_eq_ofNat]

/-- Settles O16: a left shift multiplies by a power of two modulo 2^32. -/
theorem sllCompletesWithLeftShift : Obligations.SllCompletesWithLeftShift := by
  intro rd rs1 rs2 s
  rw [exec_sll, shiftLeft_shiftAmount_eq_ofNat, State.pcPlus4_eq_ofNat]

/-- Settles O17: a right shift with zero fill divides by a power of two. -/
theorem srlCompletesWithRightShift : Obligations.SrlCompletesWithRightShift := by
  intro rd rs1 rs2 s
  rw [exec_srl, shiftRight_shiftAmount_eq_ofNat, State.pcPlus4_eq_ofNat]

/-- Settles O18: the sign-extended immediate stands for its signed value modulo 2^32. -/
theorem addiCompletesWithSignedImmediate : Obligations.AddiCompletesWithSignedImmediate := by
  intro rd rs1 imm s
  rw [exec_addi, add_immOperand_eq_ofInt, State.pcPlus4_eq_ofNat]
end

section
/-! Frames: the CSRs, memory and the accelerator each change only under the tags that write them, the parameters of the run and the
hidden state (log entries 1 and 8) under none. -/

namespace Sys2Proof.Machine

/-- A CSR read depends on the CSRs alone. -/
theorem State.csrRead_congr {s t : State} (h : s.csr = t.csr) (k : CsrIdx) : s.csrRead k = t.csrRead k := by
  simp only [State.csrRead, h]

/-- A byte read depends on memory alone. -/
theorem State.byte_congr {s t : State} (h : s.mem = t.mem) (a : Nat) : s.byte a = t.byte a := by
  simp only [State.byte, h]

section
variable {s t : State} {i : Instr} (h : ExecNext s i t)
include h

theorem ExecNext.csr_of_tag (hi : i.tag ≠ .csrrw) : t.csr = s.csr := by
  cases h with
  | csrrw | csrrwi => exact absurd rfl hi
  | reg | taken | notTaken | store | xcelrd | xcelwr => simp

theorem ExecNext.mem_of_tag (hi : i.tag ≠ .sw) : t.mem = s.mem := by
  cases h with
  | store => exact absurd rfl hi
  | reg | taken | notTaken | csrrw | csrrwi | xcelrd | xcelwr => simp

theorem ExecNext.xcel_of_tag (hi : i.tag ≠ .xcel) : t.xcel = s.xcel := by
  cases h with
  | xcelrd | xcelwr => exact absurd rfl hi
  | reg | taken | notTaken | store | csrrw | csrrwi => simp

theorem ExecNext.sameParams : t.SameParams s := by
  obtain ⟨hm, hh⟩ := h.memSize_haltPc
  refine ⟨hm, hh, ?_⟩
  cases h with
  | reg | taken | notTaken | store | csrrw | csrrwi | xcelrd | xcelwr => simp

theorem ExecNext.sameHidden : t.SameHidden s := by
  cases h with
  | reg | taken | notTaken | store | csrrw | csrrwi | xcelrd | xcelwr => constructor <;> simp

/-- An instruction that is no store and accesses neither a CSR nor the accelerator changes the registers of its `writes` column and pc
alone. -/
theorem ExecNext.registerFrame (hc : i.tag ≠ .csrrw) (hm : i.tag ≠ .sw) (hx : i.tag ≠ .xcel) :
    (∀ r, r ∉ i.writes → t.reg r = s.reg r) ∧ (∀ k, t.csrRead k = s.csrRead k) ∧ (∀ a, t.byte a = s.byte a) ∧
      t.xcel = s.xcel ∧ t.SameParams s ∧ t.SameHidden s :=
  ⟨fun _ => h.reg_of_not_mem_writes, State.csrRead_congr (h.csr_of_tag hc), State.byte_congr (h.mem_of_tag hm), h.xcel_of_tag hx,
    h.sameParams, h.sameHidden⟩
end

/-- The six instructions whose one result is a register: the destination is their `writes` column, and their tag is no store's, no
CSR access's and no accelerator access's. -/
theorem writes_and_tag_of_mem_registerForms {rd rs1 rs2 : RegIdx} {imm : BitVec 12} {i : Instr}
    (hi : i ∈ [Instr.add rd rs1 rs2, .and rd rs1 rs2, .sll rd rs1 rs2, .srl rd rs1 rs2, .addi rd rs1 imm, .lw rd rs1 imm]) :
    i.writes = [rd] ∧ i.tag ≠ .csrrw ∧ i.tag ≠ .sw ∧ i.tag ≠ .xcel := by
  simp only [List.mem_cons, List.not_mem_nil, or_false] at hi
  rcases hi with rfl | rfl | rfl | rfl | rfl | rfl <;> simp [Instr.writes, Instr.tag]

end Sys2Proof.Machine

open Sys2Proof Sys2Proof.Machine

/-- Settles O27: the `writes` column bounds the registers that change, and the tags keep the other spaces. -/
theorem registerAndBranchInstructionsFrame : Obligations.RegisterAndBranchInstructionsFrame := by
  refine ⟨fun rd rs1 rs2 imm i s t hi h => ?_, fun rs1 rs2 off s t h => ?_⟩
  · obtain ⟨hw, hc, hm, hx⟩ := writes_and_tag_of_mem_registerForms hi
    simpa [hw] using (execNext_of_exec h).registerFrame hc hm hx
  · simpa [Instr.writes] using (execNext_of_exec h).registerFrame nofun nofun nofun
end

section
/-! Control transfer (spec/42_branch.md R150, R151). -/

open Sys2Proof Sys2Proof.Machine

/-- Settles O19: the target is the signed sum modulo 2^32, and a register never differs from itself (R151). -/
theorem bneCompletesWithRedirectedPc : Obligations.BneCompletesWithRedirectedPc := by
  intro rs1 rs2 off s
  rw [← State.branchTarget_eq_ofInt, ← State.pcPlus4_eq_ofNat]
  exact ⟨fun hne => exec_bne_taken hne off, fun he => exec_bne_not_taken he off, exec_bne_not_taken rfl off⟩
end

section
/-! Loads and stores (spec/43_load_store.md R155, R156, R158): the effective address and the loaded word as numbers, the bytes of a
stored word, the fault of an access that is not allowed, and the data request that EXECUTE presents for one that is. -/

namespace Sys2Proof.Machine

theorem State.effectiveAddress_eq_ofInt (s : State) (rs1 : RegIdx) (imm : BitVec 12) :
    s.effectiveAddress rs1 imm = BitVec.ofInt 32 ((s.reg rs1).toNat + imm.toInt) :=
  add_immOperand_eq_ofInt (s.reg rs1) imm

theorem State.accessFault_of_misaligned (s : State) (k : Access) {a : Word} (ha : a.toNat % 4 ≠ 0) :
    s.accessFault k a = some (.alignmentFault s.pc a k) :=
  (State.accessFault_some_iff ..).2 (.inl ⟨ha, rfl⟩)

theorem State.accessFault_of_outOfRange {s : State} (k : Access) {a : Word} (ha : a.toNat % 4 = 0)
    (hr : s.memSize < a.toNat + 4) : s.accessFault k a = some (.memoryRangeFault s.pc a k) :=
  (State.accessFault_some_iff ..).2 (.inr ⟨ha, hr, rfl⟩)

/-! ### The loaded and the stored word (20_memory.md R56, R57) -/

theorem State.memRead_eq_ofNat (s : State) (a : Word) :
    s.memRead a = BitVec.ofNat 32
      ((s.byte a.toNat).toNat + 256 * (s.byte (a.toNat + 1)).toNat + 65536 * (s.byte (a.toNat + 2)).toNat +
        16777216 * (s.byte (a.toNat + 3)).toNat) := by
  rw [← toNat_wordOfBytes, BitVec.ofNat_toNat, BitVec.setWidth_eq]
  rfl

theorem toNat_wordByte (v : Word) (k : Nat) : (wordByte v k).toNat = v.toNat / 256 ^ k % 256 := by
  rw [wordByte, BitVec.extractLsb'_toNat, Nat.shiftRight_eq_div_pow, Nat.pow_mul]

theorem State.byte_memWrite_of_in (s : State) (a v : Word) {k : Nat} (hk : k < 4) :
    (s.memWrite a v).byte (a.toNat + k) = wordByte v k := by
  rw [State.byte_memWrite]
  interval_cases k <;> simp

/-- The one next state of `sw`. -/
theorem eq_of_exec_sw {s t : State} {rs2 rs1 : RegIdx} {imm : BitVec 12} (h : exec (.sw rs2 rs1 imm) s = .next t) :
    t = (s.memWrite (s.effectiveAddress rs1 imm) (s.reg rs2)).setPc s.pcPlus4 := by
  cases execNext_of_exec h with
  | reg _ hw => cases hw
  | store => rfl

/-! ### The data request of EXECUTE (70_reset_and_hazards.md R247, R250) -/

section
variable {s : State} {i : Instr} {r : MemRequest} (hp : s.phase = .execute) (hd : decode s.ir = some i)
  (hr : s.dataRequest i = some r)
include hp hd hr

/-- A legal data request of an instruction that is not stalled is presented when nothing is in flight, in its first cycle and in the
one after a stall. -/
theorem State.arbiter_of_legal_data (hst : s.stalls i = false) (hm : s.mq = []) (hok : s.accessFault r.access r.addr = none) :
    s.arbiter = some r := by
  have hf : s.coreFault = none := by
    cases hsd : s.stallDrawn with
    | true => exact State.coreFault_waiting hp hd (.inr hsd)
    | false => rw [State.coreFault_data hp hd hst hsd hr, hok]
  rw [State.arbiter_data ((State.acting_eq_some_iff s i).2 ⟨hp, hd, hst⟩) hf hm, hr]

/-- Whatever is presented in the first cycle of a data request is that request, and its address has passed the check. -/
theorem State.accessFault_of_memreqVal (hsd : s.stallDrawn = false) (hv : s.memreqVal = true) :
    s.accessFault r.access r.addr = none := by
  obtain ⟨q, hq⟩ := Option.isSome_iff_exists.1 hv
  obtain ⟨-, hf, ⟨hw, -⟩ | ⟨j, ha, -⟩⟩ := State.arbiter_some_cases hq
  · cases hp.symm.trans ((State.wantsFetch_iff s).1 hw).1
  · obtain ⟨-, hj, hst⟩ := (State.acting_eq_some_iff s j).1 ha
    cases hd.symm.trans hj
    rwa [State.coreFault_data hp hd hst hsd hr] at hf
end

end Sys2Proof.Machine

open Sys2Proof Sys2Proof.Machine

/-- Settles O20: the cases of the access check decide both `exec` and, at the cycle level, whether the read is presented. -/
theorem lwCompletesWithLoadedWord : Obligations.LwCompletesWithLoadedWord := by
  intro rd rs1 imm s ea hea
  rw [← State.effectiveAddress_eq_ofInt] at hea
  subst hea
  rw [← State.memRead_eq_ofNat, ← State.pcPlus4_eq_ofNat]
  refine ⟨fun ha => exec_lw_fault (s.accessFault_of_misaligned .load ha) rd,
    fun ha hr => exec_lw_fault (State.accessFault_of_outOfRange .load ha hr) rd,
    fun ha hr => exec_lw_ok ((State.accessFault_none_iff ..).2 ⟨ha, hr⟩) rd, fun hp hd hb hm ha hr => ?_, fun hp hd hsd hbad => ?_⟩
  · have harb := State.arbiter_of_legal_data hp hd rfl ((s.stalls_false_iff _).2 hb) hm
      ((State.accessFault_none_iff ..).2 ⟨ha, hr⟩)
    rw [State.memreqMsg, harb]
    rfl
  · by_contra hv
    have hok := State.accessFault_of_memreqVal hp hd rfl hsd (Bool.eq_true_of_not_eq_false hv)
    obtain ⟨ha, hr⟩ := (State.accessFault_none_iff ..).1 hok
    exact hbad.elim (· ha) (Nat.not_lt.2 hr)

/-- Settles O21: the cases of the access check, and the bytes of memory after a word write. -/
theorem swCompletesWithStoredWord : Obligations.SwCompletesWithStoredWord := by
  intro rs2 rs1 imm s ea hea
  rw [← State.effectiveAddress_eq_ofInt] at hea
  subst hea
  refine ⟨fun ha => exec_sw_fault (s.accessFault_of_misaligned .store ha) rs2,
    fun ha hr => exec_sw_fault (State.accessFault_of_outOfRange .store ha hr) rs2, fun ha hr => ?_⟩
  rw [← State.pcPlus4_eq_ofNat, exec_sw_ok ((State.accessFault_none_iff ..).2 ⟨ha, hr⟩)]
  refine ⟨_, _, rfl, rfl, fun k hk => ?_, s.byte_memWrite_of_out _ _⟩
  rw [← toNat_wordByte]
  exact congrArg BitVec.toNat (s.byte_memWrite_of_in _ _ hk)

/-- Settles O28: `sw` has an empty `writes` column and the tag of no other space, and its word write leaves the bytes outside alone. -/
theorem storeFrame : Obligations.StoreFrame := by
  intro rs2 rs1 imm s t h
  have hn := execNext_of_exec h
  refine ⟨fun r => hn.reg_of_not_mem_writes nofun, State.csrRead_congr (hn.csr_of_tag nofun), fun a ha => ?_, hn.xcel_of_tag nofun,
    hn.sameParams, hn.sameHidden⟩
  rw [eq_of_exec_sw h]
  exact s.byte_memWrite_of_out _ _ a ha
end

section
/-! CSR access (spec/44_csr.md R165 to R167): both forms are one swap, with the old value of `x[rs1]` or the immediate as the new
value; what a swap leaves in the CSRs and in `x[rd]`. -/

namespace Sys2Proof.Machine

theorem uimmOperand_eq_ofNat (uimm : BitVec 5) : uimmOperand uimm = BitVec.ofNat 32 uimm.toNat :=
  (BitVec.ofNat_toNat 32 uimm).symm

/-- Zero extension keeps the immediate's number (R166). -/
theorem toNat_uimmOperand (uimm : BitVec 5) : (uimmOperand uimm).toNat = uimm.toNat :=
  BitVec.toNat_setWidth_of_le (by decide)

theorem State.csrSwap_eq (s : State) (rd : RegIdx) (k : CsrIdx) (v : Word) :
    s.csrSwap rd k v = .next (((s.csrWrite k v).setReg rd (s.csrRead k)).setPc s.pcPlus4) :=
  State.commitReg_eq ..

/-- Both CSR forms are a swap, whose new value is read in the state before it. -/
theorem exec_eq_csrSwap_of_mem_csrForms {rd rs1 : RegIdx} {k : CsrIdx} {uimm : BitVec 5} {i : Instr}
    (hi : i ∈ [Instr.csrrw rd k rs1, .csrrwi rd k uimm]) (s : State) :
    exec i s = s.csrSwap rd k (if i = .csrrw rd k rs1 then s.reg rs1 else BitVec.ofNat 32 uimm.toNat) := by
  simp only [List.mem_cons, List.not_mem_nil, or_false] at hi
  obtain rfl | rfl := hi
  · rw [if_pos rfl]; rfl
  · rw [if_neg nofun, ← uimmOperand_eq_ofNat]; rfl

theorem writes_and_tag_of_mem_csrForms {rd rs1 : RegIdx} {k : CsrIdx} {uimm : BitVec 5} {i : Instr}
    (hi : i ∈ [Instr.csrrw rd k rs1, .csrrwi rd k uimm]) : i.writes = [rd] ∧ i.tag = .csrrw := by
  simp only [List.mem_cons, List.not_mem_nil, or_false] at hi
  obtain rfl | rfl := hi <;> exact ⟨rfl, rfl⟩

section
variable {s t : State} {rd : RegIdx} {k : CsrIdx} {v : Word} (h : s.csrSwap rd k v = .next t)
include h

/-- A swap writes its CSR and no other (R31). -/
theorem State.csrRead_of_csrSwap (j : CsrIdx) : t.csrRead j = if j = k then v else s.csrRead j := by
  rw [State.csrSwap_eq] at h
  cases h
  rw [← State.csrRead_csrWrite]
  exact State.csrRead_congr (by simp) j

/-- The destination of a swap takes the CSR's prior value. -/
theorem State.reg_of_csrSwap (hr : rd ≠ 0#5) : t.reg rd = s.csrRead k := by
  rw [State.csrSwap_eq] at h
  cases h
  rw [State.reg_setPc, State.reg_setReg, if_neg hr, if_pos rfl]
end

/-- A swap answers a next state that differs from the old one in the CSRs, `x[rd]` and pc alone. -/
theorem State.csrSwap_completes (s : State) (rd : RegIdx) (k : CsrIdx) (v : Word) : ∃ c : List (Nat × Word), ∃ t : State,
    t = ({ s with csr := c }.setReg rd (s.csrRead k)).setPc (BitVec.ofNat 32 (s.pc.toNat + 4)) ∧
    s.csrSwap rd k v = .next t ∧ t.csrRead k = v ∧ ∀ j, j ≠ k → t.csrRead j = s.csrRead j := by
  have h := s.csrSwap_eq rd k v
  refine ⟨(s.csrWrite k v).csr, _, ?_, h, ?_, fun j hj => ?_⟩
  · rw [State.pcPlus4_eq_ofNat]; rfl
  · rw [State.csrRead_of_csrSwap h, if_pos rfl]
  · rw [State.csrRead_of_csrSwap h, if_neg hj]

end Sys2Proof.Machine

open Sys2Proof Sys2Proof.Machine

/-- Settles O22: `csrrw` is the swap whose new value is the old `x[rs1]`. -/
theorem csrrwCompletesWithSwap : Obligations.CsrrwCompletesWithSwap :=
  fun rd k rs1 s => s.csrSwap_completes rd k (s.reg rs1)

/-- Settles O23: `csrrwi` is the swap whose new value is the zero-extended immediate. -/
theorem csrrwiCompletesWithImmediate : Obligations.CsrrwiCompletesWithImmediate := by
  intro rd k uimm s
  obtain ⟨c, t, ht, he, hk, hj⟩ := s.csrSwap_completes rd k (uimmOperand uimm)
  exact ⟨c, t, ht, he, (congrArg BitVec.toNat hk).trans (toNat_uimmOperand uimm), hj⟩

/-- Settles O29: the `writes` column and the tag keep all but the CSRs, and the swap keeps every CSR but its own. -/
theorem csrInstructionsFrame : Obligations.CsrInstructionsFrame := by
  intro rd rs1 k uimm i s t hi h
  have hn := execNext_of_exec h
  obtain ⟨hw, htag⟩ := writes_and_tag_of_mem_csrForms hi
  rw [exec_eq_csrSwap_of_mem_csrForms hi] at h
  refine ⟨fun r hr => hn.reg_of_not_mem_writes (by simpa [hw] using hr), fun j hj => ?_,
    State.byte_congr (hn.mem_of_tag (by simp [htag])), hn.xcel_of_tag (by simp [htag]), hn.sameParams, hn.sameHidden⟩
  rw [State.csrRead_of_csrSwap h, if_neg hj]

/-- Settles O36: the second swap puts the CSR's prior value into its destination, which is the value that the first one wrote. -/
theorem csrReadAfterWriteSeesTheNewValue : Obligations.CsrReadAfterWriteSeesTheNewValue := by
  intro rd rd' rs1 rs1' k uimm uimm' i j s t u hi hj h h' hrd
  rw [exec_eq_csrSwap_of_mem_csrForms hi] at h
  rw [exec_eq_csrSwap_of_mem_csrForms hj] at h'
  rw [State.reg_of_csrSwap h' hrd, State.csrRead_of_csrSwap h, if_pos rfl]
end

section
/-! Accelerator instructions (spec/45_xcel.md R175, R176): what each leaves in the next state and what it leaves alone; the default
accelerator (R181). -/

namespace Sys2Proof.Machine

/-- An instruction of tag XCEL changes the registers of its `writes` column, the accelerator and pc alone. -/
theorem ExecNext.acceleratorFrame {s t : State} {i : Instr} (h : ExecNext s i t) (hi : i.tag = .xcel) :
    (∀ r, r ∉ i.writes → t.reg r = s.reg r) ∧ (∀ k, t.csrRead k = s.csrRead k) ∧ (∀ a, t.byte a = s.byte a) ∧
      t.SameParams s ∧ t.SameHidden s :=
  ⟨fun _ => h.reg_of_not_mem_writes, State.csrRead_congr (h.csr_of_tag (by simp [hi])),
    State.byte_congr (h.mem_of_tag (by simp [hi])), h.sameParams, h.sameHidden⟩

end Sys2Proof.Machine

open Sys2Proof Sys2Proof.Machine

/-- Settles O30: the `writes` column is `rd` for `xcelrd` and empty for `xcelwr`. -/
theorem acceleratorInstructionsFrame : Obligations.AcceleratorInstructionsFrame := by
  refine ⟨fun rd r s t h => ?_, fun r rs1 s t h => ?_⟩
  · simpa [Instr.writes] using (execNext_of_exec h).acceleratorFrame rfl
  · simpa [Instr.writes] using (execNext_of_exec h).acceleratorFrame rfl

/-- Settles O24: the datum and the accelerator after the read are the two parts of `XcelRead`. -/
theorem xcelrdCompletesWithAcceleratorDatum : Obligations.XcelrdCompletesWithAcceleratorDatum := by
  intro rd r s
  rw [exec_xcelrd, State.pcPlus4_eq_ofNat]
  rfl

/-- Settles O25: `x[rs1]` is read in the state before the write. -/
theorem xcelwrCompletesWithAcceleratorWrite : Obligations.XcelwrCompletesWithAcceleratorWrite := by
  intro r rs1 s
  rw [exec_xcelwr, State.pcPlus4_eq_ofNat]
  rfl

/-- Settles O26: the default accelerator's write is `Vector.set`, which keeps the elements at other indices. -/
theorem defaultAcceleratorIsPlainStorage : Obligations.DefaultAcceleratorIsPlainStorage := by
  refine ⟨rfl, fun xr r v => ⟨rfl, xr.set r.toNat v r.isLt, rfl, Vector.getElem_set_self _, fun j hj => ?_⟩⟩
  exact Vector.getElem_set_ne _ _ fun he => hj (BitVec.eq_of_toNat_eq he.symm)
end

section
/-! The queue of the Accelerator Port (spec/45_xcel.md R186 to R188): the core's action appends the record of the request presented
in that cycle, if there is one, and the delivery takes at most the head. -/

namespace Sys2Proof.Machine

/-! ### What issues in a cycle -/

/-- The records that join `xq` this cycle: that of the presented request, if there is one (70_reset_and_hazards.md R249). -/
def State.xcelIssued (s : State) (d : Draws) : List XcelRecord := (s.xcelPresented.map (s.xcelRecord d)).toList

/-- A record joins exactly when the acting instruction has a request and `xq` has room for it (R183, R186). -/
theorem State.xcelIssued_cases (s : State) (d : Draws) :
    (∃ r, s.xcelRequest = some r ∧ s.xq.length < s.cfg.xcelDepth ∧ s.xcelIssued d = [s.xcelRecord d r]) ∨
    ((∀ r, s.xcelRequest = some r → s.cfg.xcelDepth ≤ s.xq.length) ∧ s.xcelIssued d = []) := by
  cases hp : s.xcelPresented with
  | some r =>
    obtain ⟨hr, hroom⟩ := (State.xcelPresented_eq_some_iff s r).1 hp
    exact .inl ⟨r, hr, hroom, by simp [State.xcelIssued, hp]⟩
  | none =>
    refine .inr ⟨fun r hr => Nat.le_of_not_lt fun hroom => ?_, by simp [State.xcelIssued, hp]⟩
    have := (State.xcelPresented_eq_some_iff s r).2 ⟨hr, hroom⟩
    simp [hp] at this

/-- Without a request on the Accelerator Port no record joins. -/
theorem State.xcelIssued_of_noRequest {s : State} (h : s.xcelRequest = none) (d : Draws) : s.xcelIssued d = [] := by
  simp [State.xcelIssued, State.xcelPresented, h]

theorem State.xcelRequest_of_not_execute {s : State} (h : s.phase ≠ .execute) : s.xcelRequest = none := by
  simp [State.xcelRequest, State.acting, h]

theorem State.xcelRequest_of_acting {s : State} {i : Instr} (h : s.acting = some i) : s.xcelRequest = s.accelRequest i := by
  simp [State.xcelRequest, h]

/-! ### `xq` after the core's action -/

@[simp] theorem State.presentMemory_xq (s : State) (d : Draws) (waiting : Phase) : (s.presentMemory d waiting).xq = s.xq := by
  unfold State.presentMemory
  split
  · rfl
  · split <;> rfl

theorem State.fetchIssueAction_xq (s : State) (d : Draws) : (s.fetchIssueAction d).xq = s.xq := by
  rcases s.fetchIssueAction_cases d with ⟨-, h⟩ | ⟨-, -, -, h⟩ | ⟨-, -, -, h⟩ | ⟨-, -, h⟩ <;> simp [h]

theorem State.fetchWaitAction_xq (s : State) : s.fetchWaitAction.xq = s.xq := by
  cases hm : s.mq with
  | nil => simp [State.fetchWaitAction, hm]
  | cons q rest => rw [State.fetchWaitAction_eq hm]; split <;> rfl

@[simp] theorem State.memDeliver_xq (s : State) (q : MemRecord) : (s.memDeliver q).xq = s.xq := by
  unfold State.memDeliver
  split <;> simp

theorem State.memWaitAction_xq (s : State) : s.memWaitAction.xq = s.xq := by
  cases hm : s.mq with
  | nil => simp [State.memWaitAction, hm]
  | cons q rest => rw [State.memWaitAction_eq hm]; split <;> simp

theorem State.executeAtOnce_xq (s : State) (i : Instr) : (s.executeAtOnce i).xq = s.xq := by
  unfold State.executeAtOnce
  split
  · next h => exact (execNext_of_exec h).sameHidden.xq
  · rfl
  · rfl

theorem State.issueXcel_xq (s : State) (d : Draws) : (s.issueXcel d).xq = s.xq ++ s.xcelIssued d := by
  cases hp : s.xcelPresented <;> simp [State.issueXcel, State.xcelIssued, hp]

/-- EXECUTE appends what issues: the tag XCEL alone has a request on the Accelerator Port (R190). -/
theorem State.executeAction_xq (s : State) (d : Draws) : (s.executeAction d).xq = s.xq ++ s.xcelIssued d := by
  cases ha : s.acting with
  | none =>
    have hr : s.xcelRequest = none := by simp [State.xcelRequest, ha]
    simp [State.executeAction_waiting ha, State.xcelIssued_of_noRequest hr]
  | some i =>
    cases i with
    | xcelrd | xcelwr => simpa [State.executeAction, ha, Instr.tag] using s.issueXcel_xq d
    | lw | sw =>
      simp [State.executeAction, ha, Instr.tag, State.xcelIssued_of_noRequest (State.xcelRequest_of_acting ha)]
    | add | and | sll | srl | addi | bne | csrrw | csrrwi =>
      simp [State.executeAction, ha, Instr.tag, State.executeAtOnce_xq,
        State.xcelIssued_of_noRequest (State.xcelRequest_of_acting ha)]

theorem State.coreAction_xq (s : State) (d : Draws) : (s.coreAction d).xq = s.xq ++ s.xcelIssued d := by
  by_cases hp : s.phase = .execute
  · simpa [State.coreAction, hp] using s.executeAction_xq d
  · rw [State.xcelIssued_of_noRequest (State.xcelRequest_of_not_execute hp), List.append_nil, State.coreAction]
    split
    · exact s.fetchIssueAction_xq d
    · exact s.fetchWaitAction_xq
    · contradiction
    · exact s.memWaitAction_xq
    · rfl
    · rfl

/-! ### `xq` after the delivery -/

/-- The delivery takes the head of `xq` once its latency has elapsed, and else nothing; what the core's action appended stays (R188). -/
theorem State.deliverXcel_xq {s t : State} {added : List XcelRecord} (ht : t.xq = s.xq ++ added) :
    ∃ gone : List XcelRecord, s.xq = gone ++ s.xq.drop gone.length ∧
      (s.deliverXcel t).xq = s.xq.drop gone.length ++ added ∧
      ((∃ q rest, s.xq = q :: rest ∧ q.readyCycle ≤ s.cyc ∧ gone = [q]) ∨
        ((∀ q rest, s.xq = q :: rest → s.cyc < q.readyCycle) ∧ gone = [])) := by
  rcases State.deliverXcel_cases s t with ⟨q, rest, hx, hdue, hd⟩ | ⟨hwait, hd⟩
  · exact ⟨[q], by simp [hx], by simp [hd, ht, hx], .inl ⟨q, rest, hx, hdue, rfl⟩⟩
  · exact ⟨[], rfl, by simp [hd, ht], .inr ⟨hwait, rfl⟩⟩

end Sys2Proof.Machine

open Sys2Proof Sys2Proof.Machine

/-- Settles O54: the core's action appends to `xq`, and the delivery takes the head of the queue the cycle started with. -/
theorem acceleratorPortIsAFifo : Obligations.AcceleratorPortIsAFifo := by
  intro s d hst hf
  rw [State.tick_of_noFault hst hf]
  obtain ⟨gone, hsplit, hrest, hgone⟩ := State.deliverXcel_xq (s.coreAction_xq d)
  refine ⟨gone, s.xcelIssued d, hsplit, hrest, hgone, (s.xcelIssued_cases d).imp_left ?_⟩
  rintro ⟨r, hr, hroom, hi⟩
  exact ⟨r, hr, hroom, s.xcelRecord d r, hi, rfl, rfl, rfl, rfl, rfl, rfl, rfl⟩
end

section
/-! The faults of a step in their order of priority (60_exceptions.md R207), and the cycle-level wait of an instruction with a busy
register (70_reset_and_hazards.md R236). -/

namespace Sys2Proof.Machine

/-! ### The faults of an instruction and of a step -/

theorem exec_lw_fault_iff (s : State) (rd rs1 : RegIdx) (imm : BitVec 12) (f : Fault) :
    exec (.lw rd rs1 imm) s = .fault f ↔ s.accessFault .load (s.effectiveAddress rs1 imm) = some f := by
  cases h : s.accessFault .load (s.effectiveAddress rs1 imm) with
  | none => simp [exec_lw_ok h]
  | some g => simp [exec_lw_fault h]

theorem exec_sw_fault_iff (s : State) (rs2 rs1 : RegIdx) (imm : BitVec 12) (f : Fault) :
    exec (.sw rs2 rs1 imm) s = .fault f ↔ s.accessFault .store (s.effectiveAddress rs1 imm) = some f := by
  cases h : s.accessFault .store (s.effectiveAddress rs1 imm) with
  | none => simp [exec_sw_ok h]
  | some g => simp [exec_sw_fault h]

/-- Only `lw` and `sw` fault, by the check of their effective address. -/
theorem exec_fault_iff (i : Instr) (s : State) (f : Fault) :
    exec i s = .fault f ↔
      (∃ rd rs1 imm, i = .lw rd rs1 imm ∧ s.accessFault .load (s.effectiveAddress rs1 imm) = some f) ∨
      (∃ rs2 rs1 imm, i = .sw rs2 rs1 imm ∧ s.accessFault .store (s.effectiveAddress rs1 imm) = some f) := by
  constructor
  · intro h
    cases i with
    | add | and | sll | srl | addi | csrrw | csrrwi | xcelrd | xcelwr => cases h
    | bne rs1 rs2 off =>
      by_cases hr : s.reg rs1 = s.reg rs2
      · rw [exec_bne_not_taken hr] at h; cases h
      · rw [exec_bne_taken hr] at h; cases h
    | lw rd rs1 imm => exact .inl ⟨rd, rs1, imm, rfl, (exec_lw_fault_iff ..).1 h⟩
    | sw rs2 rs1 imm => exact .inr ⟨rs2, rs1, imm, rfl, (exec_sw_fault_iff ..).1 h⟩
  · rintro (⟨rd, rs1, imm, rfl, h⟩ | ⟨rs2, rs1, imm, rfl, h⟩)
    · exact exec_lw_fault h rd
    · exact exec_sw_fault h rs2

/-- A step that is not halted faults by the check of its fetch, else by the decoder, else by its instruction. -/
theorem step_fault_iff (s : State) (f : Fault) :
    step s = .fault f ↔ s.pc ≠ s.haltPc ∧
      (s.accessFault .fetch s.pc = some f ∨
       (s.accessFault .fetch s.pc = none ∧
         ((decode (s.memRead s.pc) = none ∧ f = .illegalInstruction s.pc (s.memRead s.pc)) ∨
          ∃ i, decode (s.memRead s.pc) = some i ∧ exec i s = .fault f))) := by
  rcases step_cases s with ⟨hh, hs⟩ | ⟨hh, g, hg, hs⟩ | ⟨hh, hf, hd, hs⟩ | ⟨hh, hf, i, hd, hs⟩ <;> rw [hs]
  · simp [hh]
  · simp [hh, hg]
  · simp [hh, hf, hd, eq_comm]
  · simp [hh, hf, hd]

/-- The decoded instruction faults exactly when the word is that of an `lw` or an `sw` whose access check fails. -/
theorem exists_decode_exec_fault_iff (w : Word) (s : State) (f : Fault) :
    (∃ i, decode w = some i ∧ exec i s = .fault f) ↔
      (∃ rd rs1 imm, decode w = some (.lw rd rs1 imm) ∧ s.accessFault .load (s.effectiveAddress rs1 imm) = some f) ∨
      (∃ rs2 rs1 imm, decode w = some (.sw rs2 rs1 imm) ∧ s.accessFault .store (s.effectiveAddress rs1 imm) = some f) := by
  constructor
  · rintro ⟨i, hd, h⟩
    rcases (exec_fault_iff i s f).1 h with ⟨rd, rs1, imm, rfl, ha⟩ | ⟨rs2, rs1, imm, rfl, ha⟩
    · exact .inl ⟨rd, rs1, imm, hd, ha⟩
    · exact .inr ⟨rs2, rs1, imm, hd, ha⟩
  · rintro (⟨rd, rs1, imm, hd, ha⟩ | ⟨rs2, rs1, imm, hd, ha⟩)
    · exact ⟨_, hd, exec_lw_fault ha rd⟩
    · exact ⟨_, hd, exec_sw_fault ha rs2⟩

/-! ### The wait in EXECUTE -/

/-- An instruction with a busy register costs the cycle: nothing but the delivery and the cycle count (R236). -/
theorem State.tick_of_stalls {s : State} {i : Instr} (hp : s.phase = .execute) (hd : decode s.ir = some i)
    (hb : s.stalls i = true) (d : Draws) : s.tick d = { s.deliverXcel s with cyc := s.cyc + 1 } := by
  have hst : s.stopped = false := by simp [State.stopped, hp]
  have ha : s.acting = none := by simp [State.acting, hd, hb]
  rw [State.tick_of_noFault hst (State.coreFault_waiting hp hd (.inl hb))]
  simp only [State.coreAction, hp, State.executeAction_waiting ha]

end Sys2Proof.Machine

open Sys2Proof Sys2Proof.Machine

/-- Settles O11: the access checks, the decoder and the instruction each decide one part of the list, in the order a step makes them. -/
theorem stepFaultsByPriority : Obligations.StepFaultsByPriority := by
  refine ⟨fun s d i hp hd hb => ?_, fun s f => ?_⟩
  · rw [State.tick_of_stalls hp hd hb]
    exact (s.deliverXcel_phase s).trans hp
  · simp only [step_fault_iff, exists_decode_exec_fault_iff, State.accessFault_some_iff, State.accessFault_none_iff, or_assoc,
      and_assoc]
end
section
/-! What the core's action can do in a running cycle without a fault, said once (spec/70_reset_and_hazards.md R243 to R251): every
statement about a tick under the invariant is a case analysis on `CoreMove`. -/

namespace Sys2Proof

theorem RunConfig.valid_iff (c : RunConfig) :
    c.valid = true ↔ 1 ≤ c.memoryLatency ∧ 0 < c.stallProbability.den ∧ c.stallProbability.num ≤ c.stallProbability.den ∧
      2 ≤ c.xcelDepth ∧ 1 ≤ c.maxCycles := by
  simp [RunConfig.valid, Probability.valid, and_assoc]

namespace Machine

/-- The instruction of `ir` is that at pc, and none of its registers is busy (R236, R247). -/
structure State.Executes (s : State) (i : Instr) : Prop where
  atInstruction : s.AtInstruction
  fetched       : s.ir = s.memRead s.pc
  decoded       : decode s.ir = some i
  free          : s.stalls i = false

/-- The fetch unit's request (20_memory.md R75). -/
def State.pcRequest (s : State) : MemRequest := { kind := .read, addr := s.pc, data := 0x00000000#32, rd := 0#5 }

/-- The states the core's action can lead to, before the delivery and the count of the cycle. -/
inductive State.CoreMove (s : State) (d : Draws) : State → Prop
  /-- R243. -/
  | hold (hp : s.phase = .fetchIssue) (hh : 0 < s.holdCtr) : CoreMove s d { s with holdCtr := s.holdCtr - 1 }
  /-- R244. -/
  | halt (hp : s.phase = .fetchIssue) (hh : s.holdCtr = 0) (hpc : s.pc = s.haltPc) (hx : s.xq = []) :
      CoreMove s d { s with phase := .halted }
  /-- For `xq` to drain, for a busy register, for room in `xq`, or for a response (R236, R237, R244, R246, R251). -/
  | wait (hw : s.xq ≠ [] ∨ s.mq ≠ []) (hq : ∀ q ∈ s.mq, s.cyc < q.readyCycle) : CoreMove s d s
  /-- The first cycle of a request, stalled (20_memory.md R68). -/
  | stalled (hp : s.phase = .fetchIssue ∧ s.AtInstruction ∨ s.phase = .execute ∧ s.DataPresented)
      (hr : s.memreqRdy d.stall = false) : CoreMove s d { s with stallDrawn := true, stallLeft := false }
  /-- R245. -/
  | fetchAccepted (hp : s.phase = .fetchIssue) (hi : s.AtInstruction) (hr : s.memreqRdy d.stall = true) :
      CoreMove s d { s with mq := [s.memRecord s.pcRequest], issueCtr := s.issueCtr + 1, stallDrawn := false, stallLeft := false,
                            phase := .fetchWait }
  /-- R246. -/
  | fetched {q : MemRecord} (hp : s.phase = .fetchWait) (hi : s.AtInstruction) (hd : s.stallDrawn = false) (hq : s.mq = [q])
      (hc : q.readyCycle = s.cyc) : CoreMove s d { s with ir := s.memRead s.pc, mq := [], phase := .execute }
  /-- R250. -/
  | dataAccepted {i : Instr} {r : MemRequest} (hp : s.phase = .execute) (hi : s.Executes i) (hm : s.dataRequest i = some r)
      (hok : s.accessFault r.access r.addr = none) (hr : s.memreqRdy d.stall = true) :
      CoreMove s d { s with mq := [s.memRecord r], issueCtr := s.issueCtr + 1, stallDrawn := false, stallLeft := false,
                            phase := .memWait }
  /-- R249. -/
  | issue {i : Instr} {r : XcelRequest} (hp : s.phase = .execute) (hm : s.mq = []) (hd : s.stallDrawn = false) (hi : s.Executes i)
      (hx : s.accelRequest i = some r) (hroom : s.xq.length < s.cfg.xcelDepth) :
      CoreMove s d { (s.setBusy r.rd true).setPc s.pcPlus4 with
                       xq := s.xq ++ [s.xcelRecord d r], issueCtr := s.issueCtr + 1, phase := .fetchIssue }
  /-- R248, R251. -/
  | commit {i : Instr} {u : State} (hp : s.phase = .execute ∨ s.phase = .memWait) (hd : s.stallDrawn = false) (hi : s.Executes i)
      (hx : i.tag ≠ .xcel) (he : exec i s = .next u) : CoreMove s d { u with mq := [], phase := .fetchIssue }

/-! ### Every action is one of them -/

theorem exec_next_of_dataRequest_none {s : State} {i : Instr} (hm : s.dataRequest i = none) : ∃ u, exec i s = .next u := by
  cases he : exec i s with
  | next u => exact ⟨u, rfl⟩
  | refused r => exact absurd he (exec_ne_refused i s r)
  | fault f =>
    rcases (exec_fault_iff i s f).1 he with ⟨rd, rs1, imm, rfl, -⟩ | ⟨rs2, rs1, imm, rfl, -⟩ <;> cases hm

theorem tag_ne_xcel_of_accelRequest_none {s : State} {i : Instr} (hx : s.accelRequest i = none) : i.tag ≠ .xcel := by
  cases i with
  | xcelrd | xcelwr => cases hx
  | add | and | sll | srl | addi | bne | lw | sw | csrrw | csrrwi => nofun

theorem tag_ne_xcel_of_dataRequest {s : State} {i : Instr} {r : MemRequest} (hm : s.dataRequest i = some r) : i.tag ≠ .xcel := by
  cases i with
  | lw | sw => nofun
  | add | and | sll | srl | addi | bne | csrrw | csrrwi | xcelrd | xcelwr => cases hm

/-- Delivering the response to a data request is what `exec` does (R251). -/
theorem exec_eq_memDeliver {s : State} {i : Instr} {r : MemRequest} {q : MemRecord} (hm : s.dataRequest i = some r)
    (hok : s.accessFault r.access r.addr = none) (hk : q.kind = r.kind) (ha : q.addr = r.addr) (hv : q.data = r.data)
    (hrd : q.rd = r.rd) : exec i s = .next ((s.memDeliver q).setPc s.pcPlus4) := by
  cases i with
  | lw rd rs1 imm => cases hm; rw [exec_lw_ok hok, State.memDeliver, State.memRespData, hk, ha, hrd]
  | sw rs2 rs1 imm => cases hm; rw [exec_sw_ok hok, State.memDeliver, hk, ha, hv]
  | add | and | sll | srl | addi | bne | csrrw | csrrwi | xcelrd | xcelwr => cases hm

theorem State.CycleInv.of_fetchWait {s : State} (hs : s.CycleInv) (hp : s.phase = .fetchWait) :
    s.AtInstruction ∧ s.stallDrawn = false ∧ ∃ q, s.mq = [q] ∧ s.FetchInFlight q ∧ s.cyc ≤ q.readyCycle := by
  simpa only [State.PhaseInv, hp] using hs.phaseInv

theorem State.CycleInv.of_memWait {s : State} (hs : s.CycleInv) (hp : s.phase = .memWait) :
    s.AtInstruction ∧ s.stallDrawn = false ∧ s.ir = s.memRead s.pc ∧
      ∃ q, s.mq = [q] ∧ s.DataInFlight q ∧ s.cyc ≤ q.readyCycle := by
  simpa only [State.PhaseInv, hp] using hs.phaseInv

theorem State.CycleInv.of_halted {s : State} (hs : s.CycleInv) (hp : s.phase = .halted) :
    s.pc = s.haltPc ∧ s.mq = [] ∧ s.xq = [] ∧ s.holdCtr = 0 := by
  simpa only [State.PhaseInv, hp] using hs.phaseInv

theorem State.CycleInv.isBusy_of_drained {s : State} (hs : s.CycleInv) (hx : s.xq = []) (r : RegIdx) : s.isBusy r = false := by
  by_cases h0 : r = 0#5
  · rw [h0, State.isBusy_zero]
  · rw [hs.scoreboard r h0, hx]; rfl

section
variable {s : State} {d : Draws} (hs : s.CycleInv)
include hs

theorem State.CycleInv.coreMove_fetchIssue (hf : s.coreFault = none) (hp : s.phase = .fetchIssue) :
    s.CoreMove d (s.fetchIssueAction d) := by
  obtain ⟨hm, hi⟩ := hs.of_fetchIssue hp
  rcases s.fetchIssueAction_cases d with ⟨hh, h⟩ | ⟨hh, hpc, hx, h⟩ | ⟨hh, hpc, hx, h⟩ | ⟨hh, hpc, h⟩ <;> rw [h]
  · exact .hold hp hh
  · exact .halt hp hh hpc hx
  · exact .wait (.inl hx) (by simp [hm])
  · have hw : s.wantsFetch = true := (State.wantsFetch_iff s).2 ⟨hp, hh, hpc⟩
    have ha := State.arbiter_fetch hw hf hm
    have hi : s.AtInstruction := by
      cases hd : s.stallDrawn with
      | true => exact hi hd
      | false => exact ⟨hpc, by simpa [State.coreFault_fetchIssue hp, hw, hd] using hf, hh⟩
    cases hr : s.memreqRdy d.stall with
    | true => rw [State.presentMemory_ready ha hr, hm]; exact .fetchAccepted hp hi hr
    | false => rw [State.presentMemory_stalled ha hr]; exact .stalled (.inl ⟨hp, hi⟩) hr

theorem State.CycleInv.coreMove_fetchWait (hp : s.phase = .fetchWait) : s.CoreMove d s.fetchWaitAction := by
  obtain ⟨hi, hd, q, hq, hfl, hc⟩ := hs.of_fetchWait hp
  rw [State.fetchWaitAction_eq hq]
  split
  · rw [State.memRespData, hfl.kind, hfl.addr]
    exact .fetched hp hi hd hq (by omega)
  · exact .wait (.inr (by simp [hq])) (by simp only [hq, List.mem_singleton, forall_eq]; omega)

theorem State.CycleInv.coreMove_memWait (hp : s.phase = .memWait) : s.CoreMove d s.memWaitAction := by
  obtain ⟨hi, hd, hir, q, hq, hfl, hc⟩ := hs.of_memWait hp
  obtain ⟨i, hdec, hfree, r, hm, hok, hk, ha, hv, hrd⟩ := hfl.request
  rw [State.memWaitAction_eq hq]
  split
  · exact .commit (.inr hp) hd ⟨hi, hir, hdec, hfree⟩ (tag_ne_xcel_of_dataRequest hm) (exec_eq_memDeliver hm hok hk ha hv hrd)
  · exact .wait (.inr (by simp [hq])) (by simp only [hq, List.mem_singleton, forall_eq]; omega)

/-- A stalled request is that of `lw` or `sw`, so an instruction without one has none stalled. -/
theorem State.CycleInv.stallDrawn_of_noData {i : Instr} (hp : s.phase = .execute) (hdec : decode s.ir = some i)
    (hm : s.dataRequest i = none) : s.stallDrawn = false := by
  cases hd : s.stallDrawn with
  | false => rfl
  | true =>
    obtain ⟨-, -, -, hpr⟩ := hs.of_execute hp
    obtain ⟨j, hj, -, r, hr, -⟩ := (hpr hd).request
    cases hdec.symm.trans hj
    cases hm.symm.trans hr

theorem State.CycleInv.two_le_xcelDepth : 2 ≤ s.cfg.xcelDepth := by
  obtain ⟨-, -, -, hdepth, -⟩ := s.cfg.valid_iff.1 hs.config
  exact hdepth

theorem State.CycleInv.one_le_memoryLatency : 1 ≤ s.cfg.memoryLatency := (s.cfg.valid_iff.1 hs.config).1

/-- The address of the data request of an acting instruction is legal, in its first cycle and in the one after a stall. -/
theorem State.CycleInv.accessFault_of_acting (hf : s.coreFault = none) {i : Instr} {r : MemRequest} (ha : s.acting = some i)
    (hm : s.dataRequest i = some r) : s.accessFault r.access r.addr = none := by
  obtain ⟨hp, hdec, hfree⟩ := (State.acting_eq_some_iff s i).1 ha
  cases hd : s.stallDrawn with
  | false => exact (State.coreFault_data hp hdec hfree hd hm).symm.trans hf
  | true =>
    obtain ⟨-, -, -, hpr⟩ := hs.of_execute hp
    obtain ⟨j, hj, -, r', hr', hok⟩ := (hpr hd).request
    cases hdec.symm.trans hj
    cases hm.symm.trans hr'
    exact hok

theorem State.CycleInv.coreMove_acting (hf : s.coreFault = none) {i : Instr} (ha : s.acting = some i) :
    s.CoreMove d (s.executeAction d) := by
  obtain ⟨hp, hdec, hfree⟩ := (State.acting_eq_some_iff s i).1 ha
  obtain ⟨hi, hmq, hir, -⟩ := hs.of_execute hp
  have hi : s.Executes i := ⟨hi, hir, hdec, hfree⟩
  cases hm : s.dataRequest i with
  | some r =>
    have hok := hs.accessFault_of_acting hf ha hm
    have harb := (State.arbiter_data ha hf hmq).trans hm
    rw [State.executeAction_data ha hm]
    cases hr : s.memreqRdy d.stall with
    | true => rw [State.presentMemory_ready harb hr, hmq]; exact .dataAccepted hp hi hm hok hr
    | false =>
      rw [State.presentMemory_stalled harb hr]
      exact .stalled (.inr ⟨hp, ⟨i, hdec, hfree, r, hm, hok⟩⟩) hr
  | none =>
    have hd := hs.stallDrawn_of_noData hp hdec hm
    cases hx : s.accelRequest i with
    | some r =>
      rw [State.executeAction_xcel ha hx]
      have hdepth := hs.two_le_xcelDepth
      split
      · next hroom => exact .issue hp hmq hd hi hx hroom
      · next hfull =>
        refine .wait (.inl fun hnil => hfull ?_) (by simp [hmq])
        rw [hnil]
        exact Nat.lt_of_lt_of_le (by decide) hdepth
    | none =>
      obtain ⟨u, he⟩ := exec_next_of_dataRequest_none hm
      have hu : ({ u with phase := .fetchIssue } : State) = { u with mq := [], phase := .fetchIssue } := by
        rw [← (execNext_of_exec he).mq.trans hmq]
      rw [State.executeAction_atOnce ha hm hx he, hu]
      exact .commit (.inl hp) hd hi (tag_ne_xcel_of_accelRequest_none hx) he

theorem State.CycleInv.coreMove_execute (hf : s.coreFault = none) (hp : s.phase = .execute) :
    s.CoreMove d (s.executeAction d) := by
  cases ha : s.acting with
  | some i => exact hs.coreMove_acting hf ha
  | none =>
    obtain ⟨-, hmq, -⟩ := hs.of_execute hp
    rw [State.executeAction_waiting ha]
    refine .wait (.inl fun hx => ?_) (by simp [hmq])
    cases hdec : decode s.ir with
    | none => simp [State.coreFault_illegal hp hdec] at hf
    | some i =>
      have hfree : s.stalls i = false := (State.stalls_false_iff s i).2 fun r _ => hs.isBusy_of_drained hx r
      cases ha.symm.trans ((State.acting_eq_some_iff s i).2 ⟨hp, hdec, hfree⟩)

/-- Under the invariant the action of a running core that raises no fault is one of the moves. -/
theorem State.CycleInv.coreMove (hst : s.stopped = false) (hf : s.coreFault = none) : s.CoreMove d (s.coreAction d) := by
  obtain ⟨hnh, hnf⟩ := (State.stopped_eq_false_iff s).1 hst
  cases hp : s.phase with
  | fetchIssue => simpa [State.coreAction, hp] using hs.coreMove_fetchIssue hf hp
  | fetchWait => simpa [State.coreAction, hp] using hs.coreMove_fetchWait hp
  | execute => simpa [State.coreAction, hp] using hs.coreMove_execute hf hp
  | memWait => simpa [State.coreAction, hp] using hs.coreMove_memWait hp
  | halted => exact absurd hp hnh
  | faulted => exact absurd hp hnf
end

end Machine
end Sys2Proof
end

section
/-! Every tick keeps the cycle-level invariant: the core's move keeps it as the only event of the cycle, and so does a delivery from a
state that meets it. -/

namespace Sys2Proof.Machine

/-! ### Parts of the invariant -/

theorem XcelRecord.holds_iff (q : XcelRecord) (r : RegIdx) : q.holds r = true ↔ q.kind = .read ∧ q.rd = r := by
  simp [XcelRecord.holds]

/-- What `CycleInv` says of the Accelerator Port's queue and the scoreboard (spec/10_state.md R36, R37). -/
structure State.QueueInv (s : State) : Prop where
  depth      : s.xq.length ≤ s.cfg.xcelDepth
  scoreboard : ∀ r : RegIdx, r ≠ 0#5 → s.isBusy r = s.xq.any (·.holds r)
  oneEach    : s.xq.Pairwise fun p q => p.kind = .read → p.rd ≠ 0#5 → q.holds p.rd = false
  shape      : ∀ q ∈ s.xq, (q.kind = .write → q.rd = 0#5) ∧ (q.kind = .read → q.data = 0x00000000#32)
  issued     : ∀ q ∈ s.xq, q.issueCycle < s.cyc ∧ q.issueCycle < q.readyCycle

theorem State.CycleInv.queue {s : State} (hs : s.CycleInv) : s.QueueInv :=
  ⟨hs.xqDepth, hs.scoreboard, hs.oneEach, hs.xqShape, hs.xqIssued⟩

/-- The queue's part depends on `xq`, the scoreboard and the configuration, and time may pass. -/
theorem State.QueueInv.congr {s t : State} (h : s.QueueInv) (hx : t.xq = s.xq) (hb : t.busy = s.busy) (hc : t.cfg = s.cfg)
    (hcyc : s.cyc ≤ t.cyc) : t.QueueInv where
  depth := by rw [hx, hc]; exact h.depth
  scoreboard r hr := by rw [State.isBusy_congr hb, hx]; exact h.scoreboard r hr
  oneEach := by rw [hx]; exact h.oneEach
  shape := by rw [hx]; exact h.shape
  issued q hq := ⟨Nat.lt_of_lt_of_le (h.issued q (hx ▸ hq)).1 hcyc, (h.issued q (hx ▸ hq)).2⟩

theorem State.SameArch.archInv {s t : State} (h : t.SameArch s) (hm : t.memSize = s.memSize) (hs : s.ArchInv) : t.ArchInv where
  memWf := by rw [hm, h.mem]; exact hs.memWf
  csrWf := by rw [h.csr]; exact hs.csrWf
  memSizeValid := by rw [hm]; exact hs.memSizeValid
  pcEven := by rw [h.pc]; exact hs.pcEven
  x0 := by rw [h.x]; exact hs.x0

theorem State.AtInstruction.congr {s t : State} (h : s.AtInstruction) (hpc : t.pc = s.pc) (hh : t.haltPc = s.haltPc)
    (hm : t.memSize = s.memSize) (hc : t.holdCtr = s.holdCtr) : t.AtInstruction where
  notHalt := by rw [hpc, hh]; exact h.notHalt
  fetchOk := by rw [State.accessFault_congr hpc hm, hpc]; exact h.fetchOk
  noHold := hc.trans h.noHold

/-! ### The core's move alone -/

theorem State.accelRequest_shape {s : State} {i : Instr} {r : XcelRequest} (hx : s.accelRequest i = some r) :
    (r.kind = .read ∧ r.rd ∈ i.writes ∧ r.data = 0x00000000#32) ∨ (r.kind = .write ∧ r.rd = 0#5) := by
  cases i with
  | xcelrd => cases hx; exact .inl ⟨rfl, List.mem_singleton_self _, rfl⟩
  | xcelwr => cases hx; exact .inr ⟨rfl, rfl⟩
  | add | and | sll | srl | addi | bne | lw | sw | csrrw | csrrwi => cases hx

/-- A record joins the queue while there is room: its destination was free, is busy now, and no other record has it (R37, R236). -/
theorem State.QueueInv.append {s t : State} {q : XcelRecord} (h : s.QueueInv) (hx : t.xq = s.xq ++ [q])
    (hb : t.busy = (s.setBusy q.rd true).busy) (hc : t.cfg = s.cfg) (hcyc : s.cyc ≤ t.cyc)
    (hroom : s.xq.length < s.cfg.xcelDepth) (hfree : q.kind = .read → s.isBusy q.rd = false)
    (hshape : (q.kind = .write → q.rd = 0#5) ∧ (q.kind = .read → q.data = 0x00000000#32))
    (hissued : q.issueCycle < t.cyc ∧ q.issueCycle < q.readyCycle) : t.QueueInv := by
  constructor
  case depth => rw [hx, hc]; simpa using hroom
  case scoreboard =>
    intro r h0
    have hq : q.holds r = decide (r = q.rd) := by
      cases hk : q.kind with
      | read => simp [XcelRecord.holds, hk, eq_comm]
      | write => simp [XcelRecord.holds, hk, hshape.1 hk, h0]
    rw [State.isBusy_congr hb, State.isBusy_setBusy, if_neg h0, hx, List.any_append, ← h.scoreboard r h0]
    simp only [List.any_cons, List.any_nil, hq, Bool.or_false]
    by_cases hr : r = q.rd <;> simp [hr]
  case oneEach =>
    rw [hx]
    refine List.pairwise_append.2 ⟨h.oneEach, List.pairwise_singleton .., fun p hp q' hq' hk h0 => ?_⟩
    rw [List.mem_singleton.1 hq', Bool.eq_false_iff]
    intro hh
    obtain ⟨hkq, hrd⟩ := (q.holds_iff _).1 hh
    have hbusy : s.isBusy p.rd = true := by
      rw [h.scoreboard _ h0, List.any_eq_true]
      exact ⟨p, hp, (p.holds_iff _).2 ⟨hk, rfl⟩⟩
    rw [← hrd, hfree hkq] at hbusy
    cases hbusy
  case shape =>
    intro p hp
    rcases List.mem_append.1 (hx ▸ hp) with hp | hp
    · exact h.shape p hp
    · exact List.mem_singleton.1 hp ▸ hshape
  case issued =>
    intro p hp
    rcases List.mem_append.1 (hx ▸ hp) with hp | hp
    · exact ⟨Nat.lt_of_lt_of_le (h.issued p hp).1 hcyc, (h.issued p hp).2⟩
    · exact List.mem_singleton.1 hp ▸ hissued

theorem State.CoreMove.queueInv {s t : State} {d : Draws} (hm : s.CoreMove d t) (h : s.QueueInv) (hd : 1 ≤ d.latency) :
    State.QueueInv { t with cyc := s.cyc + 1 } := by
  cases hm with
  | @issue i r hp hmq hsd hi hx hroom =>
    refine h.append rfl rfl (by simp) (Nat.le_succ _) hroom (fun hk => ?_) ?_ ⟨Nat.lt_succ_self _, Nat.lt_add_of_pos_right hd⟩
    all_goals rcases State.accelRequest_shape hx with ⟨hr, hrd, hv⟩ | ⟨hr, hrd⟩
    · exact (State.stalls_false_iff s i).1 hi.free r.rd (.inr hrd)
    · cases hr.symm.trans hk
    · simp [State.xcelRecord, hr, hv]
    · simp [State.xcelRecord, hr, hrd]
  | commit hp hsd hi hx he =>
    have hu := (execNext_of_exec he).sameHidden
    exact h.congr hu.xq hu.busy (execNext_of_exec he).sameParams.cfg (Nat.le_succ _)
  | hold | halt | wait | stalled | fetchAccepted | fetched | dataAccepted => exact h.congr rfl rfl rfl (Nat.le_succ _)

theorem State.CoreMove.sameParams {s t : State} {d : Draws} (hm : s.CoreMove d t) : t.SameParams s := by
  cases hm with
  | issue => constructor <;> simp
  | commit hp hsd hi hx he =>
    have hu := (execNext_of_exec he).sameParams
    exact ⟨hu.memSize, hu.haltPc, hu.cfg⟩
  | hold | halt | wait | stalled | fetchAccepted | fetched | dataAccepted => exact ⟨rfl, rfl, rfl⟩

/-- What a move is for the architectural level: nothing; the instruction but for the accelerator's work, which is posted; or the
instruction. -/
theorem State.CoreMove.effect {s t : State} {d : Draws} (hm : s.CoreMove d t) :
    (t.SameArch s ∧ t.xq = s.xq ∧ (t.phase = .fetchIssue → s.phase = .fetchIssue)) ∨
    (∃ i r, s.Executes i ∧ s.accelRequest i = some r ∧ t.SameArch (s.setPc s.pcPlus4) ∧ t.xq = s.xq ++ [s.xcelRecord d r] ∧
      s.phase ≠ .fetchIssue ∧ t.phase = .fetchIssue) ∨
    (∃ i u, s.Executes i ∧ i.tag ≠ .xcel ∧ exec i s = .next u ∧ t.SameArch u ∧ t.xq = s.xq ∧
      s.phase ≠ .fetchIssue ∧ t.phase = .fetchIssue) := by
  cases hm with
  | @issue i r hp hmq hd hi hx hroom =>
    refine .inr (.inl ⟨i, r, hi, hx, ?_, rfl, by simp [hp], rfl⟩)
    constructor <;> simp
  | @commit i u hp hd hi hx he =>
    refine .inr (.inr ⟨i, u, hi, hx, he, ⟨rfl, rfl, rfl, rfl, rfl⟩, (execNext_of_exec he).sameHidden.xq, ?_, rfl⟩)
    rcases hp with hp | hp <;> simp [hp]
  | hold hp | fetchAccepted hp => exact .inl ⟨⟨rfl, rfl, rfl, rfl, rfl⟩, rfl, fun _ => hp⟩
  | wait | stalled => exact .inl ⟨⟨rfl, rfl, rfl, rfl, rfl⟩, rfl, id⟩
  | halt | fetched | dataAccepted => exact .inl ⟨⟨rfl, rfl, rfl, rfl, rfl⟩, rfl, nofun⟩

theorem State.CoreMove.xq_append {s t : State} {d : Draws} (hm : s.CoreMove d t) : ∃ added, t.xq = s.xq ++ added := by
  rcases hm.effect with ⟨-, hx, -⟩ | ⟨i, r, -, -, -, hx, -⟩ | ⟨i, u, -, -, -, -, hx, -⟩
  · exact ⟨[], by simp [hx]⟩
  · exact ⟨_, hx⟩
  · exact ⟨[], by simp [hx]⟩

theorem State.CoreMove.archInv {s t : State} {d : Draws} (hm : s.CoreMove d t) (h : s.ArchInv) : t.ArchInv := by
  have hsize := hm.sameParams.memSize
  rcases hm.effect with ⟨ha, -⟩ | ⟨i, r, -, -, ha, -⟩ | ⟨i, u, hi, -, he, ha, -⟩
  · exact ha.archInv hsize h
  · exact ha.archInv hsize (h.setPc (State.pcPlus4_even h.pcEven))
  · exact ha.archInv (hsize.trans (execNext_of_exec he).memSize_haltPc.1.symm)
      ((execNext_of_exec he).archInv h (wellFormed_of_decode hi.decoded))

/-- While no response is overdue, time may pass. -/
theorem State.PhaseInv.later {s : State} (h : s.PhaseInv) (hq : ∀ q ∈ s.mq, s.cyc < q.readyCycle) :
    State.PhaseInv { s with cyc := s.cyc + 1 } := by
  unfold State.PhaseInv at h ⊢
  cases hp : s.phase <;> simp only [hp] at h ⊢
  case fetchIssue =>
    obtain ⟨hmq, hi⟩ := h
    exact ⟨hmq, fun hd => (hi hd).congr rfl rfl rfl rfl⟩
  case fetchWait =>
    obtain ⟨hi, hd, q, hmq, hfl, -⟩ := h
    exact ⟨hi.congr rfl rfl rfl rfl, hd, q, hmq, ⟨hfl.kind, hfl.addr, hfl.data, hfl.rd⟩, hq q (by simp [hmq])⟩
  case execute =>
    obtain ⟨hi, hmq, hir, hpr⟩ := h
    exact ⟨hi.congr rfl rfl rfl rfl, hmq, hir, fun hd => ⟨(hpr hd).request⟩⟩
  case memWait =>
    obtain ⟨hi, hd, hir, q, hmq, hfl, -⟩ := h
    exact ⟨hi.congr rfl rfl rfl rfl, hd, hir, q, hmq, ⟨hfl.request⟩, hq q (by simp [hmq])⟩
  case halted => exact h
  case faulted => exact h

/-- The phase the move leads to finds the Memory Port as it must be. -/
theorem State.CoreMove.phaseInv {s t : State} {d : Draws} (hm : s.CoreMove d t) (hs : s.CycleInv) :
    State.PhaseInv { t with cyc := s.cyc + 1 } := by
  cases hm with
  | hold hp hh =>
    obtain ⟨hmq, hi⟩ := hs.of_fetchIssue hp
    simp only [State.PhaseInv, hp]
    exact ⟨hmq, fun hd => absurd (hi hd).noHold (by omega)⟩
  | halt hp hh hpc hx => exact ⟨hpc, (hs.of_fetchIssue hp).1, hx, hh⟩
  | wait hw hq => exact hs.phaseInv.later hq
  | stalled hp hr =>
    rcases hp with ⟨hp, hi⟩ | ⟨hp, hpr⟩
    · simp only [State.PhaseInv, hp]
      exact ⟨(hs.of_fetchIssue hp).1, fun _ => hi.congr rfl rfl rfl rfl⟩
    · obtain ⟨hi, hmq, hir, -⟩ := hs.of_execute hp
      simp only [State.PhaseInv, hp]
      exact ⟨hi.congr rfl rfl rfl rfl, hmq, hir, fun _ => ⟨hpr.request⟩⟩
  | fetchAccepted hp hi hr =>
    exact ⟨hi.congr rfl rfl rfl rfl, rfl, _, rfl, ⟨rfl, rfl, rfl, rfl⟩, Nat.add_le_add_left hs.one_le_memoryLatency _⟩
  | fetched hp hi hd hq hc => exact ⟨hi.congr rfl rfl rfl rfl, rfl, rfl, fun h => absurd (h.symm.trans hd) nofun⟩
  | @dataAccepted i r hp hi hm hok hr =>
    exact ⟨hi.atInstruction.congr rfl rfl rfl rfl, rfl, hi.fetched, _, rfl,
      ⟨⟨i, hi.decoded, hi.free, r, hm, hok, rfl, rfl, rfl, rfl⟩⟩, Nat.add_le_add_left hs.one_le_memoryLatency _⟩
  | issue hp hmq hd => exact ⟨by simpa using hmq, fun h => absurd (h.symm.trans ((State.setBusy_stallDrawn ..).trans hd)) nofun⟩
  | commit hp hd hi hx he =>
    exact ⟨rfl, fun h => absurd (h.symm.trans ((execNext_of_exec he).sameHidden.stallDrawn.trans hd)) nofun⟩

theorem State.CoreMove.fault_eq {s t : State} {d : Draws} (hm : s.CoreMove d t) : t.fault = s.fault := by
  cases hm with
  | issue => simp
  | commit hp hd hi hx he => exact (execNext_of_exec he).sameHidden.fault
  | hold | halt | wait | stalled | fetchAccepted | fetched | dataAccepted => rfl

theorem State.CoreMove.phase_ne_faulted {s t : State} {d : Draws} (hm : s.CoreMove d t) (hst : s.stopped = false) :
    t.phase ≠ .faulted := by
  have hs := ((State.stopped_eq_false_iff s).1 hst).2
  cases hm with
  | hold | wait | stalled => exact hs
  | halt | fetchAccepted | fetched | dataAccepted | issue | commit => nofun

theorem State.CoreMove.stallLeft_eq {s t : State} {d : Draws} (hm : s.CoreMove d t) (h : s.stallLeft = false) :
    t.stallLeft = false := by
  cases hm with
  | issue => simpa using h
  | commit hp hd hi hx he => exact (execNext_of_exec he).sameHidden.stallLeft.trans h
  | hold | halt | wait | fetched => exact h
  | stalled | fetchAccepted | dataAccepted => rfl

/-- The core's move, as the only event of its cycle, keeps the invariant. -/
theorem State.CoreMove.cycleInv {s t : State} {d : Draws} (hm : s.CoreMove d t) (hs : s.CycleInv) (hst : s.stopped = false)
    (hd : 1 ≤ d.latency) : State.CycleInv { t with cyc := s.cyc + 1 } :=
  have hq := hm.queueInv hs.queue hd
  { arch := State.SameArch.archInv (s := t) ⟨rfl, rfl, rfl, rfl, rfl⟩ rfl (hm.archInv hs.arch)
    config := hm.sameParams.cfg ▸ hs.config
    phaseInv := hm.phaseInv hs
    noFault := fun _ => hm.fault_eq.trans (hs.noFault ((State.stopped_eq_false_iff s).1 hst).2)
    stallLeft := hm.stallLeft_eq hs.stallLeft
    stalledOnce := fun _ => Nat.succ_pos _
    xqDepth := hq.depth
    scoreboard := hq.scoreboard
    oneEach := hq.oneEach
    xqShape := hq.shape
    xqIssued := hq.issued }

/-! ### The delivery -/

/-- No record but the head has the head's destination (R236). -/
theorem State.QueueInv.any_tail {s : State} {q : XcelRecord} {rest : List XcelRecord} (h : s.QueueInv) (hx : s.xq = q :: rest)
    {r : RegIdx} (h0 : r ≠ 0#5) : rest.any (·.holds r) = if r = q.rd then false else s.isBusy r := by
  obtain ⟨hhead, -⟩ := List.pairwise_cons.1 (hx ▸ h.oneEach)
  split
  · next hr =>
    cases hk : q.kind with
    | read => simpa [hr] using fun p hp => hhead p hp hk (hr ▸ h0)
    | write => exact absurd (hr.trans ((h.shape q (by simp [hx])).1 hk)) h0
  · next hr =>
    have hq : q.holds r = false := by
      rw [Bool.eq_false_iff]
      exact fun hh => hr ((q.holds_iff r).1 hh).2.symm
    rw [h.scoreboard r h0, hx, List.any_cons, hq, Bool.false_or]

theorem State.isBusy_deliverHead (s : State) (q : XcelRecord) (r : RegIdx) :
    (s.deliverHead q).isBusy r = if r = q.rd then false else s.isBusy r := by
  rw [State.isBusy_congr (s.deliverHead_busy q), State.isBusy_setBusy]
  by_cases h0 : r = 0#5 <;> simp [h0]

theorem State.QueueInv.deliverHead {s : State} {q : XcelRecord} {rest : List XcelRecord} (h : s.QueueInv)
    (hx : s.xq = q :: rest) :
    (s.deliverHead q).QueueInv := by
  have hrest : (s.deliverHead q).xq = rest := by simp [hx]
  have hmem : ∀ p ∈ (s.deliverHead q).xq, p ∈ s.xq := fun p hp => by rw [hx]; exact List.mem_cons_of_mem _ (hrest ▸ hp)
  constructor
  case depth =>
    have := h.depth
    simp only [hx, List.length_cons] at this
    rw [hrest, State.deliverHead_cfg]
    omega
  case scoreboard =>
    intro r h0
    rw [hrest, h.any_tail hx h0, State.isBusy_deliverHead]
  case oneEach => rw [hrest]; exact (List.pairwise_cons.1 (hx ▸ h.oneEach)).2
  case shape => exact fun p hp => h.shape p (hmem p hp)
  case issued => simpa using fun p hp => h.issued p (hx ▸ hmem p (by simpa using hp))

/-- A delivery reaches busy registers only. -/
theorem State.QueueInv.reg_performXcel {s : State} {q : XcelRecord} (h : s.QueueInv) (hq : q ∈ s.xq) {r : RegIdx}
    (hr : s.isBusy r = false) (t : State) : (t.performXcel q).reg r = t.reg r := by
  by_cases h0 : r = 0#5
  · subst h0; rfl
  rw [h.scoreboard r h0, List.any_eq_false] at hr
  exact State.reg_performXcel_of_not_holds (by simpa using hr q hq) t

theorem State.ArchInv.performXcel {s : State} (h : s.ArchInv) (q : XcelRecord) : (s.performXcel q).ArchInv := by
  cases hk : q.kind with
  | read => rw [State.performXcel_read hk]; exact (h.xcelRead _).setReg _ _
  | write => rw [State.performXcel_write hk]; exact h.xcelWrite _ _

theorem State.sameArch_deliverHead (s : State) (q : XcelRecord) : (s.deliverHead q).SameArch (s.performXcel q) := by
  constructor <;> simp

theorem State.sameParams_deliverHead (s : State) (q : XcelRecord) : (s.deliverHead q).SameParams s := by
  constructor <;> simp

/-- An instruction with no busy register keeps its operands through a delivery: its data request and its place in EXECUTE. -/
theorem State.QueueInv.deliverHead_free {s : State} {q : XcelRecord} (h : s.QueueInv) (hq : q ∈ s.xq) {i : Instr}
    (hi : s.stalls i = false) :
    (s.deliverHead q).stalls i = false ∧ (s.deliverHead q).dataRequest i = s.dataRequest i := by
  rw [State.stalls_false_iff] at hi ⊢
  refine ⟨fun r hr => ?_, State.dataRequest_congr fun r hr => ?_⟩
  · simp [State.isBusy_deliverHead, hi r hr]
  · rw [State.reg_congr (State.deliverHead_x s q), h.reg_performXcel hq (hi r (.inl hr))]

theorem State.PhaseInv.deliverHead {s : State} {q : XcelRecord} {rest : List XcelRecord} (h : s.PhaseInv) (hs : s.QueueInv)
    (hx : s.xq = q :: rest) : (s.deliverHead q).PhaseInv := by
  have hat : s.AtInstruction → (s.deliverHead q).AtInstruction := fun hi => hi.congr (by simp) (by simp) (by simp) (by simp)
  have hfree := fun i => hs.deliverHead_free (i := i) (q := q) (by simp [hx])
  have hok := fun k a => State.accessFault_congr (s := s.deliverHead q) (t := s) (by simp) (by simp) k a
  have hir : s.ir = s.memRead s.pc → (s.deliverHead q).ir = (s.deliverHead q).memRead (s.deliverHead q).pc := by
    rw [State.memRead_congr (State.deliverHead_mem s q)]; simp
  unfold State.PhaseInv at h ⊢
  cases hp : s.phase <;> simp only [hp, State.deliverHead_phase] at h ⊢
  case fetchIssue =>
    obtain ⟨hmq, hi⟩ := h
    exact ⟨by simpa using hmq, fun hd => hat (hi (by simpa using hd))⟩
  case fetchWait =>
    obtain ⟨hi, hd, p, hmq, hfl, hc⟩ := h
    exact ⟨hat hi, by simpa using hd, p, by simpa using hmq, ⟨hfl.kind, by simpa using hfl.addr, hfl.data, hfl.rd⟩,
      by simpa using hc⟩
  case execute =>
    obtain ⟨hi, hmq, hir', hpr⟩ := h
    refine ⟨hat hi, by simpa using hmq, hir hir', fun hd => ?_⟩
    obtain ⟨i, hdec, hst, r, hm, ha⟩ := (hpr (by simpa using hd)).request
    exact ⟨i, by simpa using hdec, (hfree i hst).1, r, (hfree i hst).2.trans hm, (hok ..).trans ha⟩
  case memWait =>
    obtain ⟨hi, hd, hir', p, hmq, hfl, hc⟩ := h
    obtain ⟨i, hdec, hst, r, hm, ha, hsame⟩ := hfl.request
    exact ⟨hat hi, by simpa using hd, hir hir', p, by simpa using hmq,
      ⟨i, by simpa using hdec, (hfree i hst).1, r, (hfree i hst).2.trans hm, (hok ..).trans ha, hsame⟩, by simpa using hc⟩
  case halted => simp [hx] at h
  case faulted => simpa using h

theorem State.CycleInv.deliverHead {s : State} {q : XcelRecord} {rest : List XcelRecord} (hs : s.CycleInv)
    (hx : s.xq = q :: rest) :
    (s.deliverHead q).CycleInv :=
  have hq := hs.queue.deliverHead hx
  { arch := (s.sameArch_deliverHead q).archInv (by simp) (hs.arch.performXcel q)
    config := by simpa using hs.config
    phaseInv := hs.phaseInv.deliverHead hs.queue hx
    noFault := by simpa using hs.noFault
    stallLeft := by simpa using hs.stallLeft
    stalledOnce := by simpa using hs.stalledOnce
    xqDepth := hq.depth
    scoreboard := hq.scoreboard
    oneEach := hq.oneEach
    xqShape := hq.shape
    xqIssued := hq.issued }

/-! ### The tick -/

/-- The delivery reads no cycle count, so the count may come first. -/
theorem State.deliverHead_count (t : State) (q : XcelRecord) (n : Nat) :
    ({ t.deliverHead q with cyc := n } : State) = State.deliverHead { t with cyc := n } q := by
  cases hk : q.kind with
  | read => simp only [State.deliverHead, State.performXcel, hk, State.setReg, State.setBusy, State.xcelRead]; split <;> rfl
  | write => simp only [State.deliverHead, State.performXcel, hk, State.setBusy, State.xcelWrite]; split <;> rfl

/-- What a tick without a fault does: the core's move and the count of the cycle, then the delivery of a due head. -/
theorem State.CycleInv.tick_move {s : State} (hs : s.CycleInv) (hst : s.stopped = false) (hf : s.coreFault = none) (d : Draws) :
    ∃ t, s.CoreMove d t ∧
      ((∃ q rest, s.xq = q :: rest ∧ q.readyCycle ≤ s.cyc ∧ s.tick d = State.deliverHead { t with cyc := s.cyc + 1 } q) ∨
       ((∀ q rest, s.xq = q :: rest → s.cyc < q.readyCycle) ∧ s.tick d = { t with cyc := s.cyc + 1 })) := by
  refine ⟨_, hs.coreMove hst hf, ?_⟩
  rw [State.tick_of_noFault hst hf]
  rcases State.deliverXcel_cases s (s.coreAction d) with ⟨q, rest, hx, hdue, h⟩ | ⟨hwait, h⟩ <;> rw [h]
  · exact .inl ⟨q, rest, hx, hdue, State.deliverHead_count ..⟩
  · exact .inr ⟨hwait, rfl⟩

theorem Draws.one_le_latency {d : Draws} {c : RunConfig} (h : d.admitted c = true) : 1 ≤ d.latency := by
  simp only [Draws.admitted, Bool.and_eq_true, decide_eq_true_eq] at h
  obtain ⟨⟨hl, -⟩, -⟩ := h
  exact hl

theorem State.tick_of_fault {s : State} {f : Fault} (hst : s.stopped = false) (hf : s.coreFault = some f) (d : Draws) :
    s.tick d = s.enterFault f := by
  simp [State.tick, hst, hf]

/-- Nothing is in flight on the Memory Port in a cycle that raises a fault: its checks come before the request (R245, R247, R250). -/
theorem State.CycleInv.mq_of_coreFault {s : State} {f : Fault} (hs : s.CycleInv) (hf : s.coreFault = some f) : s.mq = [] := by
  cases hp : s.phase with
  | fetchIssue => obtain ⟨hmq, -⟩ := hs.of_fetchIssue hp; exact hmq
  | execute => obtain ⟨-, hmq, -⟩ := hs.of_execute hp; exact hmq
  | fetchWait | memWait | halted | faulted => simp [State.coreFault, hp] at hf

theorem State.CycleInv.enterFault {s : State} {f : Fault} (hs : s.CycleInv) (hf : s.coreFault = some f) :
    (s.enterFault f).CycleInv where
  arch := State.SameArch.archInv (s := s) ⟨rfl, rfl, rfl, rfl, rfl⟩ rfl hs.arch
  config := hs.config
  phaseInv := ⟨rfl, hs.mq_of_coreFault hf⟩
  noFault := nofun
  stallLeft := hs.stallLeft
  stalledOnce := hs.stalledOnce
  xqDepth := hs.xqDepth
  scoreboard := hs.scoreboard
  oneEach := hs.oneEach
  xqShape := hs.xqShape
  xqIssued := hs.xqIssued

theorem State.CycleInv.tick {s : State} {d : Draws} (hs : s.CycleInv) (hd : d.admitted s.cfg = true) : (s.tick d).CycleInv := by
  cases hst : s.stopped with
  | true => rwa [State.tick_stopped hst]
  | false =>
    cases hf : s.coreFault with
    | some f => exact State.tick_of_fault hst hf d ▸ hs.enterFault hf
    | none =>
      obtain ⟨t, hm, ⟨q, rest, hx, -, ht⟩ | ⟨-, ht⟩⟩ := hs.tick_move hst hf d <;> rw [ht]
      · obtain ⟨added, hxt⟩ := hm.xq_append
        exact (hm.cycleInv hs hst (Draws.one_le_latency hd)).deliverHead (rest := rest ++ added) (by simp [hxt, hx])
      · exact hm.cycleInv hs hst (Draws.one_le_latency hd)

end Sys2Proof.Machine

open Sys2Proof Sys2Proof.Machine

/-- Settles O46: the fault entry, the core's move and the delivery each keep the invariant. -/
theorem tickKeepsCycleInvariant : Obligations.TickKeepsCycleInvariant :=
  fun _ _ hs hd => hs.tick hd
end

section
/-! Refinement (spec/70_reset_and_hazards.md R261; 45_xcel.md R192): a posted accelerator request touches neither the registers of an
instruction that executes nor anything but registers and the accelerator, so it can be performed before the instruction. -/

namespace Sys2Proof.Machine

/-! ### The fault of a cycle -/

/-- The three checks that raise a fault (R245, R247, R250). -/
theorem State.coreFault_cases {s : State} {f : Fault} (hf : s.coreFault = some f) :
    (s.phase = .fetchIssue ∧ s.pc ≠ s.haltPc ∧ s.accessFault .fetch s.pc = some f) ∨
    (s.phase = .execute ∧ decode s.ir = none ∧ f = .illegalInstruction s.pc s.ir) ∨
    (s.phase = .execute ∧ ∃ i r, decode s.ir = some i ∧ s.stalls i = false ∧ s.dataRequest i = some r ∧
      s.accessFault r.access r.addr = some f) := by
  cases hp : s.phase with
  | fetchIssue =>
    rw [State.coreFault_fetchIssue hp] at hf
    split at hf
    · next hw =>
      obtain ⟨-, -, hpc⟩ := (State.wantsFetch_iff s).1 (Bool.and_eq_true_iff.1 hw).1
      exact .inl ⟨rfl, hpc, hf⟩
    · cases hf
  | execute =>
    refine .inr ?_
    cases hdec : decode s.ir with
    | none =>
      rw [State.coreFault_illegal hp hdec] at hf
      cases hf
      exact .inl ⟨rfl, rfl, rfl⟩
    | some i =>
      refine .inr ⟨rfl, i, ?_⟩
      cases hst : s.stalls i with
      | true => simp [State.coreFault_waiting hp hdec (.inl hst)] at hf
      | false =>
        cases hd : s.stallDrawn with
        | true => simp [State.coreFault_waiting hp hdec (.inr hd)] at hf
        | false =>
          cases hm : s.dataRequest i with
          | none => simp [State.coreFault_noData hp hdec hm] at hf
          | some r => exact ⟨r, rfl, rfl, rfl, (State.coreFault_data hp hdec hst hd hm).symm.trans hf⟩
  | fetchWait | memWait | halted | faulted => simp [State.coreFault, hp] at hf

/-- The data check of the core is that of the instruction. -/
theorem exec_fault_of_dataRequest {s : State} {i : Instr} {r : MemRequest} {f : Fault} (hm : s.dataRequest i = some r)
    (hf : s.accessFault r.access r.addr = some f) : exec i s = .fault f := by
  cases i with
  | lw => cases hm; exact exec_lw_fault hf _
  | sw => cases hm; exact exec_sw_fault hf _
  | add | and | sll | srl | addi | bne | csrrw | csrrwi | xcelrd | xcelwr => cases hm

/-! ### A record performed before an instruction -/

/-- The record is no read into a register that the instruction reads or writes. -/
def XcelRecord.Apart (q : XcelRecord) (i : Instr) : Prop :=
  ∀ r, r ∈ i.reads ∨ r ∈ i.writes → r ≠ 0#5 → q.holds r = false

section
variable (s : State) (q : XcelRecord)

/-- An update that neither reads nor writes the registers and the accelerator may come before or after a record is performed. -/
theorem State.update_performXcel (f : State → State)
    (hf : ∀ s x σ, f { s with x := x, xcel := σ } = { f s with x := x, xcel := σ })
    (hx : (f s).x = s.x) (hc : (f s).xcel = s.xcel) : f (s.performXcel q) = (f s).performXcel q := by
  cases hk : q.kind with
  | read =>
    simp only [State.performXcel_read hk, State.setReg, State.xcelRead, hx, hc]
    split
    · exact (hf s s.x _).trans (by rw [← hx])
    · exact hf s _ _
  | write =>
    simp only [State.performXcel_write hk, State.xcelWrite, hc]
    exact (hf s s.x _).trans (by rw [← hx])

@[simp] theorem State.setPc_performXcel (p : Word) : (s.performXcel q).setPc p = (s.setPc p).performXcel q :=
  s.update_performXcel q (·.setPc p) (fun _ _ _ => rfl) rfl rfl

@[simp] theorem State.csrWrite_performXcel (k : CsrIdx) (v : Word) :
    (s.performXcel q).csrWrite k v = (s.csrWrite k v).performXcel q :=
  s.update_performXcel q (·.csrWrite k v) (fun _ _ _ => rfl) rfl rfl

@[simp] theorem State.memWrite_performXcel (a v : Word) : (s.performXcel q).memWrite a v = (s.memWrite a v).performXcel q :=
  s.update_performXcel q (·.memWrite a v) (fun _ _ _ => rfl) rfl rfl

@[simp] theorem State.pcPlus4_performXcel : (s.performXcel q).pcPlus4 = s.pcPlus4 := by
  simp [State.pcPlus4]

@[simp] theorem State.branchTarget_performXcel (off : BitVec 13) : (s.performXcel q).branchTarget off = s.branchTarget off := by
  simp [State.branchTarget]

@[simp] theorem State.csrRead_performXcel (k : CsrIdx) : (s.performXcel q).csrRead k = s.csrRead k :=
  State.csrRead_congr (by simp) k

@[simp] theorem State.memRead_performXcel (a : Word) : (s.performXcel q).memRead a = s.memRead a :=
  State.memRead_congr (by simp) a

@[simp] theorem State.accessFault_performXcel (k : Access) (a : Word) : (s.performXcel q).accessFault k a = s.accessFault k a :=
  State.accessFault_congr (by simp) (by simp) k a

variable {q s} {i : Instr}

theorem XcelRecord.Apart.reg (hq : q.Apart i) {r : RegIdx} (hr : r ∈ i.reads) : (s.performXcel q).reg r = s.reg r := by
  by_cases h0 : r = 0#5
  · subst h0; rfl
  · exact State.reg_performXcel_of_not_holds (hq r (.inl hr) h0) s

theorem XcelRecord.Apart.setReg (hq : q.Apart i) {rd : RegIdx} (hr : i.writes = [rd]) (t : State) (v : Word) :
    (t.performXcel q).setReg rd v = (t.setReg rd v).performXcel q := by
  by_cases h0 : rd = 0#5
  · subst h0; rfl
  have hne := hq rd (.inr (by simp [hr])) h0
  cases hk : q.kind with
  | read =>
    have hne : q.rd ≠ rd := fun h => by simp [XcelRecord.holds, hk, h] at hne
    simp only [State.performXcel_read hk, State.setReg_comm _ hne]
    simp [State.setReg, h0, State.xcelRead]
  | write => simp [State.performXcel_write hk, State.setReg, h0, State.xcelWrite]

theorem XcelRecord.Apart.effectiveAddress (hq : q.Apart i) {rs1 : RegIdx} (hr : rs1 ∈ i.reads) (imm : BitVec 12) :
    (s.performXcel q).effectiveAddress rs1 imm = s.effectiveAddress rs1 imm := by
  rw [State.effectiveAddress, hq.reg hr, State.effectiveAddress]

/-- The order of a record and an instruction apart from it is not seen. -/
theorem XcelRecord.Apart.exec (hq : q.Apart i) (hi : i.tag ≠ .xcel) (s : State) :
    exec i (s.performXcel q) = mapNext (·.performXcel q) (exec i s) := by
  have hr : ∀ r ∈ i.reads, (s.performXcel q).reg r = s.reg r := fun r => hq.reg
  have hw : ∀ rd, i.writes = [rd] → ∀ (t : State) v, (t.performXcel q).setReg rd v = (t.setReg rd v).performXcel q :=
    fun rd => hq.setReg
  cases i with
  | add rd rs1 rs2 => simp [exec_add, mapNext, hr rs1 (.head _), hr rs2 (.tail _ (.head _)), hw rd rfl]
  | and rd rs1 rs2 => simp [exec_and, mapNext, hr rs1 (.head _), hr rs2 (.tail _ (.head _)), hw rd rfl]
  | sll rd rs1 rs2 => simp [exec_sll, mapNext, hr rs1 (.head _), hr rs2 (.tail _ (.head _)), hw rd rfl]
  | srl rd rs1 rs2 => simp [exec_srl, mapNext, hr rs1 (.head _), hr rs2 (.tail _ (.head _)), hw rd rfl]
  | addi rd rs1 imm => simp [exec_addi, mapNext, hr rs1 (.head _), hw rd rfl]
  | csrrw rd k rs1 => simp [exec_csrrw, mapNext, hr rs1 (.head _), hw rd rfl]
  | csrrwi rd k uimm => simp [exec_csrrwi, mapNext, hw rd rfl]
  | bne rs1 rs2 off =>
    have h1 := hr rs1 (.head _)
    have h2 := hr rs2 (.tail _ (.head _))
    by_cases h : s.reg rs1 = s.reg rs2
    · rw [exec_bne_not_taken h, exec_bne_not_taken (by rw [h1, h2, h])]; simp [mapNext]
    · rw [exec_bne_taken h, exec_bne_taken (by rwa [h1, h2])]; simp [mapNext]
  | lw rd rs1 imm =>
    have ha := hq.effectiveAddress (s := s) (rs1 := rs1) (.head _) imm
    cases h : s.accessFault .load (s.effectiveAddress rs1 imm) with
    | none => rw [exec_lw_ok h, exec_lw_ok (by simpa [ha] using h)]; simp [mapNext, ha, hw rd rfl]
    | some f => rw [exec_lw_fault h, exec_lw_fault (by simpa [ha] using h)]; rfl
  | sw rs2 rs1 imm =>
    have ha := hq.effectiveAddress (s := s) (rs1 := rs1) (.head _) imm
    have h2 := hr rs2 (.tail _ (.head _))
    cases h : s.accessFault .store (s.effectiveAddress rs1 imm) with
    | none => rw [exec_sw_ok h, exec_sw_ok (by simpa [ha] using h)]; simp [mapNext, ha, h2]
    | some f => rw [exec_sw_fault h, exec_sw_fault (by simpa [ha] using h)]; rfl
  | xcelrd | xcelwr => exact absurd rfl hi

end

/-! ### Every posted record performed -/

/-- The records of `l` performed, oldest first. -/
def State.performAll (s : State) (l : List XcelRecord) : State := l.foldl State.performXcel s

theorem State.committed_eq (s : State) : s.committed = s.performAll s.xq := rfl

/-- With nothing posted the state stands for itself. -/
theorem State.committed_of_drained {s : State} (hx : s.xq = []) : s.committed = s := by
  rw [State.committed_eq, hx]; rfl

@[simp] theorem State.performAll_nil (s : State) : s.performAll [] = s := rfl
@[simp] theorem State.performAll_cons (s : State) (q : XcelRecord) (l : List XcelRecord) :
    s.performAll (q :: l) = (s.performXcel q).performAll l := rfl
theorem State.performAll_append (s : State) (l m : List XcelRecord) : s.performAll (l ++ m) = (s.performAll l).performAll m :=
  List.foldl_append

/-- What performing one record keeps, performing all of them keeps. -/
theorem State.performAll_induction {α : Type} {f : State → α} (h : ∀ s q, f (s.performXcel q) = f s) (s : State)
    (l : List XcelRecord) : f (s.performAll l) = f s := by
  induction l generalizing s with
  | nil => rfl
  | cons q l ih => rw [State.performAll_cons, ih, h]

theorem State.performAll_setPc (s : State) (l : List XcelRecord) (p : Word) :
    (s.setPc p).performAll l = (s.performAll l).setPc p := by
  induction l generalizing s with
  | nil => rfl
  | cons q l ih => rw [State.performAll_cons, ← State.setPc_performXcel, ih, State.performAll_cons]

@[simp] theorem State.committed_pc (s : State) : s.committed.pc = s.pc :=
  State.performAll_induction (f := State.pc) (by simp) s s.xq
@[simp] theorem State.committed_haltPc (s : State) : s.committed.haltPc = s.haltPc :=
  State.performAll_induction (f := State.haltPc) (by simp) s s.xq
@[simp] theorem State.committed_memSize (s : State) : s.committed.memSize = s.memSize :=
  State.performAll_induction (f := State.memSize) (by simp) s s.xq
@[simp] theorem State.committed_memRead (s : State) (a : Word) : s.committed.memRead a = s.memRead a :=
  State.performAll_induction (f := (·.memRead a)) (by simp) s s.xq
@[simp] theorem State.committed_accessFault (s : State) (k : Access) (a : Word) : s.committed.accessFault k a = s.accessFault k a :=
  State.performAll_induction (f := (·.accessFault k a)) (by simp) s s.xq

theorem exec_performAll {i : Instr} (hi : i.tag ≠ .xcel) {l : List XcelRecord} (hl : ∀ q ∈ l, q.Apart i) (s : State) :
    exec i (s.performAll l) = mapNext (·.performAll l) (exec i s) := by
  induction l generalizing s with
  | nil => rw [State.performAll_nil]; cases exec i s <;> rfl
  | cons q l ih =>
    rw [State.performAll_cons, ih fun p hp => hl p (List.mem_cons_of_mem _ hp), (hl q List.mem_cons_self).exec hi]
    cases exec i s <;> rfl

/-! ### States that differ in hidden state alone -/

theorem State.SameArch.refl (s : State) : s.SameArch s := ⟨rfl, rfl, rfl, rfl, rfl⟩

theorem State.SameArch.symm {s t : State} (h : s.SameArch t) : t.SameArch s :=
  ⟨h.x.symm, h.pc.symm, h.csr.symm, h.mem.symm, h.xcel.symm⟩

theorem State.SameArch.trans {s t u : State} (h : s.SameArch t) (h' : t.SameArch u) : s.SameArch u :=
  ⟨h.x.trans h'.x, h.pc.trans h'.pc, h.csr.trans h'.csr, h.mem.trans h'.mem, h.xcel.trans h'.xcel⟩

theorem State.SameArch.setPc {s t : State} (h : s.SameArch t) (p : Word) : (s.setPc p).SameArch (t.setPc p) :=
  ⟨h.x, rfl, h.csr, h.mem, h.xcel⟩

theorem State.SameArch.performXcel {s t : State} (h : s.SameArch t) (q : XcelRecord) :
    (s.performXcel q).SameArch (t.performXcel q) := by
  cases hk : q.kind with
  | read =>
    simp only [State.performXcel_read hk, State.setReg, State.xcelRead, h.xcel]
    split <;> constructor <;> simp [h.x, h.pc, h.csr, h.mem]
  | write => constructor <;> simp [State.performXcel_write hk, h.x, h.pc, h.csr, h.mem, h.xcel]

theorem State.SameArch.performAll {s t : State} (h : s.SameArch t) (l : List XcelRecord) :
    (s.performAll l).SameArch (t.performAll l) := by
  induction l generalizing s t with
  | nil => exact h
  | cons q l ih => exact ih (h.performXcel q)

/-! ### One step, the posted requests counted as committed -/

section
variable {s : State} {i : Instr}

/-- The registers of an instruction that executes are apart from every record in flight (R236). -/
theorem State.CycleInv.apart (hs : s.CycleInv) (hi : s.stalls i = false) {q : XcelRecord} (hq : q ∈ s.xq) : q.Apart i := by
  intro r hr h0
  have h := (State.stalls_false_iff s i).1 hi r hr
  rw [hs.scoreboard r h0, List.any_eq_false] at h
  simpa using h q hq

theorem State.CycleInv.exec_committed (hs : s.CycleInv) (hi : s.stalls i = false) (ht : i.tag ≠ .xcel) :
    exec i s.committed = mapNext (·.performAll s.xq) (exec i s) :=
  exec_performAll ht (fun _ => hs.apart hi) s

theorem State.Executes.step_committed (hi : s.Executes i) : step s.committed = exec i s.committed :=
  step_eq_exec (by simpa using hi.atInstruction.notHalt) (by simpa using hi.atInstruction.fetchOk)
    (by simpa [← hi.fetched] using hi.decoded)

/-- An accelerator instruction is its record performed (R175, R176, R190). -/
theorem exec_eq_performXcel {r : XcelRequest} {q : XcelRecord} (hx : s.accelRequest i = some r) (hk : q.kind = r.kind)
    (ha : q.addr = r.addr) (hv : q.data = r.data) (hrd : q.rd = r.rd) :
    exec i s = .next ((s.performXcel q).setPc s.pcPlus4) := by
  cases i with
  | xcelrd => cases hx; rw [exec_xcelrd, State.performXcel_read hk, ha, hrd]
  | xcelwr => cases hx; rw [exec_xcelwr, State.performXcel_write hk, ha, hv]
  | add | and | sll | srl | addi | bne | lw | sw | csrrw | csrrwi => cases hx

theorem State.accelRequest_congr {t : State} (h : ∀ r ∈ i.reads, t.reg r = s.reg r) : t.accelRequest i = s.accelRequest i := by
  cases i with
  | xcelwr xr rs1 => simp [State.accelRequest, h rs1 (by simp [Instr.reads])]
  | add | and | sll | srl | addi | bne | lw | sw | csrrw | csrrwi | xcelrd => rfl

theorem State.CycleInv.reg_committed (hs : s.CycleInv) {r : RegIdx} (hr : s.isBusy r = false) : s.committed.reg r = s.reg r := by
  suffices ∀ l, l ⊆ s.xq → (s.performAll l).reg r = s.reg r from this s.xq (List.Subset.refl _)
  intro l hl
  induction l using List.reverseRecOn with
  | nil => rfl
  | append_singleton l q ih =>
    rw [State.performAll_append, State.performAll_cons, State.performAll_nil,
      hs.queue.reg_performXcel (hl (by simp)) hr, ih fun p hp => hl (List.mem_append_left _ hp)]

end

theorem State.CycleInv.step_of_coreFault {s : State} {f : Fault} (hs : s.CycleInv) (hf : s.coreFault = some f) :
    step s.committed = .fault f := by
  rw [step_fault_iff]
  simp only [State.committed_pc, State.committed_haltPc, State.committed_accessFault, State.committed_memRead]
  rcases State.coreFault_cases hf with ⟨-, hpc, ha⟩ | ⟨hp, hdec, rfl⟩ | ⟨hp, i, r, hdec, hst, hm, ha⟩
  · exact ⟨hpc, .inl ha⟩
  all_goals obtain ⟨hi, -, hir, -⟩ := hs.of_execute hp; rw [hir] at hdec
  · exact ⟨hi.notHalt, .inr ⟨hi.fetchOk, .inl ⟨hdec, by rw [hir]⟩⟩⟩
  · refine ⟨hi.notHalt, .inr ⟨hi.fetchOk, .inr ⟨i, hdec, ?_⟩⟩⟩
    rw [hs.exec_committed hst (tag_ne_xcel_of_dataRequest hm), exec_fault_of_dataRequest hm ha]
    rfl

theorem State.SameArch.committed {s t : State} (h : s.SameArch t) (hx : s.xq = t.xq) : s.committed.SameArch t.committed := by
  rw [State.committed_eq, State.committed_eq, hx]
  exact h.performAll t.xq

/-- A delivery performs the oldest posted request, which was counted as performed already. -/
theorem State.committed_deliverHead {s : State} {q : XcelRecord} {rest : List XcelRecord} (hx : s.xq = q :: rest) :
    (s.deliverHead q).committed.SameArch s.committed := by
  rw [State.committed_eq, State.committed_eq, State.deliverHead_xq, hx]
  exact (s.sameArch_deliverHead q).performAll rest

/-- With the posted requests counted as performed, a tick without a fault is the core's move. -/
theorem State.CycleInv.tick_committed {s : State} (hs : s.CycleInv) (hst : s.stopped = false) (hf : s.coreFault = none)
    (d : Draws) :
    ∃ t, s.CoreMove d t ∧ (s.tick d).phase = t.phase ∧ (s.tick d).committed.SameArch t.committed := by
  obtain ⟨t, hm, h⟩ := hs.tick_move hst hf d
  have hcount : State.SameArch (State.committed { t with cyc := s.cyc + 1 }) t.committed :=
    State.SameArch.committed (t := t) ⟨rfl, rfl, rfl, rfl, rfl⟩ rfl
  refine ⟨t, hm, ?_⟩
  rcases h with ⟨q, rest, hx, -, ht⟩ | ⟨-, ht⟩ <;> rw [ht]
  · obtain ⟨added, hxt⟩ := hm.xq_append
    have hx' : ({ t with cyc := s.cyc + 1 } : State).xq = q :: (rest ++ added) := by simp [hxt, hx]
    exact ⟨State.deliverHead_phase .., (State.committed_deliverHead hx').trans hcount⟩
  · exact ⟨rfl, hcount⟩

/-- A move that returns to FETCH_ISSUE is the step; any other leaves the architectural state. -/
theorem State.CoreMove.step_committed {s t : State} {d : Draws} (hm : s.CoreMove d t) (hs : s.CycleInv) :
    ((t.phase = .fetchIssue → s.phase = .fetchIssue) ∧ t.committed.SameArch s.committed) ∨
    (s.phase ≠ .fetchIssue ∧ t.phase = .fetchIssue ∧ s.pc ≠ s.haltPc ∧
      ∃ u, step s.committed = .next u ∧ t.committed.SameArch u) := by
  rcases hm.effect with ⟨ha, hx, hp⟩ | ⟨i, r, hi, hr, ha, hx, hp, hp'⟩ | ⟨i, u, hi, ht, he, ha, hx, hp, hp'⟩
  all_goals rw [State.committed_eq, hx]
  · exact .inl ⟨hp, ha.performAll _⟩
  · refine .inr ⟨hp, hp', hi.atInstruction.notHalt, (s.committed.performXcel (s.xcelRecord d r)).setPc s.pcPlus4, ?_, ?_⟩
    · have hr' : s.committed.accelRequest i = some r :=
        (State.accelRequest_congr fun b hb => hs.reg_committed ((State.stalls_false_iff s i).1 hi.free b (.inl hb))).trans hr
      rw [hi.step_committed, exec_eq_performXcel (q := s.xcelRecord d r) hr' rfl rfl rfl rfl]
      simp [State.pcPlus4]
    · rw [State.setPc_performXcel, State.committed_eq, ← State.performAll_setPc, State.performAll_append]
      exact (ha.performAll _).performXcel _
  · refine .inr ⟨hp, hp', hi.atInstruction.notHalt, u.performAll s.xq, ?_, ha.performAll _⟩
    rw [hi.step_committed, hs.exec_committed hi.free ht, he]
    rfl

end Sys2Proof.Machine

open Sys2Proof Sys2Proof.Machine

/-- Settles O47: the fault of the cycle is that of the step, and the core's move is the step or nothing, whatever is delivered. -/
theorem tickRefinesStep : Obligations.TickRefinesStep := by
  intro s d hs _ hst
  cases hf : s.coreFault with
  | some f =>
    rw [State.tick_of_fault hst hf]
    exact ⟨fun _ => ⟨f, rfl, hs.step_of_coreFault hf⟩, nofun, fun h => absurd rfl h⟩
  | none =>
    obtain ⟨t, hm, hp, ha⟩ := hs.tick_committed hst hf d
    rw [hp]
    refine ⟨fun h => absurd h (hm.phase_ne_faulted hst), fun h hs' => ?_, fun _ h => ?_⟩
    all_goals rcases hm.step_committed hs with ⟨hid, ha'⟩ | ⟨hp0, hp', hpc, u, hu, ha'⟩
    · exact absurd (hid h) hs'
    · exact ⟨by simpa using hpc, u, hu, ha.trans ha'⟩
    · exact ha.trans ha'
    · exact absurd h (by simp [hp0, hp'])
end

section
/-! Liveness (spec/70_reset_and_hazards.md R239): a tick that neither stops the core nor retires an instruction brings the core to a
later phase, or uses up some of a bounded amount of waiting. -/

namespace Sys2Proof.Machine

/-- How many phases the current instruction may still pass through (R241). -/
def Phase.rank : Phase → Nat
  | .fetchIssue => 3
  | .fetchWait => 2
  | .execute => 1
  | .memWait | .halted | .faulted => 0

/-- What the core itself waits for, seen at cycle `n`: the hold, the one stall of a request, the latency of a response. -/
def State.coreWait (s : State) (n : Nat) : Nat :=
  s.holdCtr + (if s.stallDrawn then 0 else 1) + (s.mq.map fun q => q.readyCycle - n).sum

/-- The cycles in which the records of `l`, delivered in order, can still keep the core waiting, seen at cycle `n`. -/
def xcelWait (l : List XcelRecord) (n : Nat) : Nat := (l.map fun q => q.readyCycle - n + 1).sum

def State.waiting (s : State) : Nat := s.coreWait s.cyc + xcelWait s.xq s.cyc

theorem State.coreWait_succ_le (s : State) (n : Nat) : s.coreWait (n + 1) ≤ s.coreWait n :=
  Nat.add_le_add_left (List.sum_le_sum fun _ _ => by omega) _

theorem xcelWait_succ_le (l : List XcelRecord) (n : Nat) : xcelWait l (n + 1) ≤ xcelWait l n :=
  List.sum_le_sum fun _ _ => by omega

/-- Every cycle in which the queue is not empty uses up some of its waiting: its head comes closer, or leaves. -/
theorem xcelWait_lt {q : XcelRecord} {n : Nat} (h : n < q.readyCycle) (rest : List XcelRecord) :
    xcelWait (q :: rest) (n + 1) < xcelWait (q :: rest) n := by
  have := xcelWait_succ_le rest n
  simp only [xcelWait, List.map_cons, List.sum_cons] at this ⊢
  omega

/-- A move of the core stops it, retires an instruction, goes on to a later phase, or uses up waiting; while it waits for the
Accelerator Port alone it uses up none of its own. -/
theorem State.CoreMove.progress {s t : State} {d : Draws} (hm : s.CoreMove d t) (hs : s.CycleInv) :
    t.phase = .halted ∨ (s.phase ≠ .fetchIssue ∧ t.phase = .fetchIssue) ∨ t.phase.rank < s.phase.rank ∨
      (t.phase = s.phase ∧ t.xq = s.xq ∧
        (t.coreWait (s.cyc + 1) < s.coreWait s.cyc ∨ s.xq ≠ [] ∧ t.coreWait (s.cyc + 1) ≤ s.coreWait s.cyc)) := by
  have hle := s.coreWait_succ_le s.cyc
  cases hm with
  | halt => exact .inl rfl
  | issue hp => exact .inr (.inl ⟨by simp [hp], rfl⟩)
  | commit hp => exact .inr (.inl ⟨by rcases hp with hp | hp <;> simp [hp], rfl⟩)
  | fetchAccepted hp | fetched hp | dataAccepted hp => exact .inr (.inr (.inl (by simp [hp, Phase.rank])))
  | hold hp hh =>
    refine .inr (.inr (.inr ⟨rfl, rfl, .inl ?_⟩))
    simp only [State.coreWait] at hle ⊢
    omega
  | stalled hp hr =>
    have hd : s.stallDrawn = false := by
      cases hd : s.stallDrawn with
      | false => rfl
      | true => rw [hs.memreqRdy_of_stallDrawn hd] at hr; cases hr
    refine .inr (.inr (.inr ⟨rfl, rfl, .inl ?_⟩))
    simp only [State.coreWait, hd] at hle ⊢
    simp at *
    omega
  | wait hw hq =>
    refine .inr (.inr (.inr ⟨rfl, rfl, ?_⟩))
    rcases hw with hx | hmq
    · exact .inr ⟨hx, hle⟩
    · left
      obtain ⟨q, rest, hmq⟩ := List.exists_cons_of_ne_nil hmq
      have hlt := hq q (by simp [hmq])
      have hrest : (rest.map fun p => p.readyCycle - (s.cyc + 1)).sum ≤ (rest.map fun p => p.readyCycle - s.cyc).sum :=
        List.sum_le_sum fun _ _ => by omega
      simp only [State.coreWait, hmq, List.map_cons, List.sum_cons]
      omega

theorem State.coreWait_deliverHead (t : State) (q : XcelRecord) (n : Nat) : (t.deliverHead q).coreWait n = t.coreWait n := by
  simp [State.coreWait]

/-- No tick changes the parameters of the run (log entry 8). -/
theorem State.CycleInv.tick_sameParams {s : State} (hs : s.CycleInv) (d : Draws) : (s.tick d).SameParams s := by
  cases hst : s.stopped with
  | true => rw [State.tick_stopped hst]; exact ⟨rfl, rfl, rfl⟩
  | false =>
    cases hf : s.coreFault with
    | some f => rw [State.tick_of_fault hst hf]; exact ⟨rfl, rfl, rfl⟩
    | none =>
      obtain ⟨t, hm, ⟨q, rest, -, -, ht⟩ | ⟨-, ht⟩⟩ := hs.tick_move hst hf d <;> rw [ht]
      · have hp := State.sameParams_deliverHead { t with cyc := s.cyc + 1 } q
        exact ⟨hp.memSize.trans hm.sameParams.memSize, hp.haltPc.trans hm.sameParams.haltPc, hp.cfg.trans hm.sameParams.cfg⟩
      · exact ⟨hm.sameParams.memSize, hm.sameParams.haltPc, hm.sameParams.cfg⟩

theorem State.CycleInv.tick_progress {s : State} (hs : s.CycleInv) (hst : s.stopped = false) (d : Draws) :
    (s.tick d).stopped = true ∨ (s.phase ≠ .fetchIssue ∧ (s.tick d).phase = .fetchIssue) ∨
      (s.tick d).phase.rank < s.phase.rank ∨ ((s.tick d).phase = s.phase ∧ (s.tick d).waiting < s.waiting) := by
  cases hf : s.coreFault with
  | some f => exact .inl (by rw [State.tick_of_fault hst hf]; rfl)
  | none =>
    obtain ⟨t, hm, h⟩ := hs.tick_move hst hf d
    have hp : (s.tick d).phase = t.phase := by rcases h with ⟨q, rest, -, -, ht⟩ | ⟨-, ht⟩ <;> simp [ht]
    rcases hm.progress hs with hh | hc | hr | ⟨hp', hx, hw⟩
    · exact .inl (by simp [State.stopped, hp, hh])
    · exact .inr (.inl (hp ▸ hc))
    · exact .inr (.inr (.inl (hp ▸ hr)))
    refine .inr (.inr (.inr ⟨hp.trans hp', ?_⟩))
    rcases h with ⟨q, rest, hq, -, ht⟩ | ⟨hlate, ht⟩
    · have hcore : (s.tick d).coreWait (s.cyc + 1) = t.coreWait (s.cyc + 1) := by rw [ht, State.coreWait_deliverHead]; rfl
      have hxq : (s.tick d).xq = rest := by simp [ht, hx, hq]
      have hcyc : (s.tick d).cyc = s.cyc + 1 := by simp [ht]
      have := xcelWait_succ_le rest s.cyc
      have hcons : xcelWait s.xq s.cyc = q.readyCycle - s.cyc + 1 + xcelWait rest s.cyc := by simp [xcelWait, hq]
      rw [State.waiting, State.waiting, hcyc, hxq, hcore, hcons]
      omega
    · have hcore : (s.tick d).coreWait (s.cyc + 1) = t.coreWait (s.cyc + 1) := by rw [ht]; rfl
      have hxq : (s.tick d).xq = s.xq := by simp [ht, hx]
      have hcyc : (s.tick d).cyc = s.cyc + 1 := by simp [ht]
      have hle := xcelWait_succ_le s.xq s.cyc
      rw [State.waiting, State.waiting, hcyc, hxq, hcore]
      rcases hw with hw | ⟨hne, hw⟩
      · omega
      · obtain ⟨q, rest, hq⟩ := List.exists_cons_of_ne_nil hne
        have hlt := xcelWait_lt (hlate q rest hq) rest
        rw [← hq] at hlt
        omega

/-- The core stops within `k` ticks, or the tick after them retires an instruction. -/
def State.EndsStall (draw : Nat → Draws) (s : State) (k : Nat) : Prop :=
  (State.ticks draw k s).stopped = true ∨
    ((State.ticks draw k s).phase ≠ .fetchIssue ∧ (State.ticks draw (k + 1) s).phase = .fetchIssue)

theorem State.CycleInv.exists_endsStall {draw : Nat → Draws} {s : State} (hs : s.CycleInv)
    (hd : ∀ c, (draw c).admitted s.cfg = true) (hst : s.stopped = false) : ∃ k, s.EndsStall draw k := by
  rcases hs.tick_progress hst (draw s.cyc) with h | h | h
  · exact ⟨1, .inl h⟩
  · exact ⟨0, .inr h⟩
  cases hst' : (s.tick (draw s.cyc)).stopped with
  | true => exact ⟨1, .inl hst'⟩
  | false =>
    obtain ⟨k, hk⟩ := State.CycleInv.exists_endsStall (hs.tick (hd s.cyc)) ((hs.tick_sameParams _).cfg ▸ hd) hst'
    exact ⟨k + 1, hk⟩
termination_by (s.phase.rank, s.waiting)
decreasing_by
  rcases h with h | ⟨hp, hw⟩
  · exact .left _ _ h
  · rw [hp]; exact .right _ hw

end Sys2Proof.Machine

open Sys2Proof Sys2Proof.Machine

/-- Settles O59, by induction on the phases left and the waiting left in the phase. -/
theorem everyStallEnds : Obligations.EveryStallEnds :=
  fun _ _ hs hd hst => hs.exists_endsStall hd hst
end

section
/-! Timing invariance (spec/70_reset_and_hazards.md R260): the ticks from a state and the steps from the architectural state it stands
for retire the same instructions, and end together or not at all. -/

namespace Sys2Proof.Machine

/-! ### The steps do not see hidden state -/

theorem State.SameArch.withHiddenOf_eq {a b : State} (h : a.SameArch b) (hm : a.memSize = b.memSize) (hh : a.haltPc = b.haltPc) :
    b.withHiddenOf a = a := by
  simp only [State.withHiddenOf, ← h.x, ← h.pc, ← h.csr, ← h.mem, ← h.xcel, ← hm, ← hh]

theorem State.SameArch.step {a b : State} (h : a.SameArch b) (hm : a.memSize = b.memSize) (hh : a.haltPc = b.haltPc) :
    step b = mapNext (·.withHiddenOf b) (step a) := by
  rw [← step_withHiddenOf, h.symm.withHiddenOf_eq hm.symm hh.symm]

/-- `s` at the cycle level stands for `S` at the architectural level, the posted accelerator requests counted as committed. -/
structure State.Represents (s S : State) : Prop where
  arch    : s.committed.SameArch S
  memSize : s.memSize = S.memSize
  haltPc  : s.haltPc = S.haltPc

namespace State.Represents
variable {s S : State} (h : s.Represents S)
include h

theorem pc : s.pc = S.pc := (committed_pc s).symm.trans h.arch.pc

theorem step : Machine.step S = mapNext (·.withHiddenOf S) (Machine.step s.committed) :=
  h.arch.step ((committed_memSize s).trans h.memSize) ((committed_haltPc s).trans h.haltPc)

theorem of_sameArch {t : State} (ha : t.committed.SameArch s.committed) (hp : t.SameParams s) : t.Represents S :=
  ⟨ha.trans h.arch, hp.memSize.trans h.memSize, hp.haltPc.trans h.haltPc⟩

end State.Represents

/-! ### One tick against the step -/

/-- The next instruction of `S` is over: its fault is taken, there is none left, or the cycle-level state stands for the next state. -/
inductive State.Retired (S t : State) : Prop
  | fault (f : Fault) (hp : t.phase = .faulted) (hf : t.fault = some f) (hS : step S = .fault f)
  | halt (hp : t.phase = .halted) (hpc : S.pc = S.haltPc) (hr : t.Represents S)
  | next (S' : State) (hp : t.stopped = false) (hpc : S.pc ≠ S.haltPc) (hS : step S = .next S') (hr : t.Represents S')

section
variable {s S : State} {d : Draws} {draw : Nat → Draws} (hs : s.CycleInv) (hst : s.stopped = false) (hr : s.Represents S)
include hs hst hr

theorem State.CycleInv.tick_simulates (hd : d.admitted s.cfg = true) :
    S.Retired (s.tick d) ∨ ((s.tick d).stopped = false ∧ (s.tick d).Represents S ∧
      ((s.tick d).phase = .fetchIssue → s.phase = .fetchIssue)) := by
  obtain ⟨hfault, hstep, hidle⟩ := tickRefinesStep s d hs hd hst
  have hp := hs.tick_sameParams d
  by_cases hf : (s.tick d).phase = .faulted
  · obtain ⟨f, hf', hS⟩ := hfault hf
    exact .inl (.fault f hf hf' (by rw [hr.step, hS]; rfl))
  by_cases hh : (s.tick d).phase = .halted
  · have hrep := hr.of_sameArch (hidle hf (.inr (by simp [hh]))) hp
    obtain ⟨hpc, -⟩ := (hs.tick hd).of_halted hh
    exact .inl (.halt hh (hrep.pc.symm.trans (hpc.trans hrep.haltPc)) hrep)
  have hrun : (s.tick d).stopped = false := (State.stopped_eq_false_iff _).2 ⟨hh, hf⟩
  by_cases hc : s.phase ≠ .fetchIssue ∧ (s.tick d).phase = .fetchIssue
  · obtain ⟨hpc, u, hu, ha⟩ := hstep hc.2 hc.1
    have hS : step S = .next (u.withHiddenOf S) := by rw [hr.step, hu]; rfl
    have hparams := (step_sameParams_sameHidden hu).1
    refine .inl (.next _ hrun ?_ hS ⟨ha.trans ⟨rfl, rfl, rfl, rfl, rfl⟩, ?_, ?_⟩)
    · rwa [committed_pc, committed_haltPc, hr.pc, hr.haltPc] at hpc
    · exact hp.memSize.trans ((committed_memSize s).symm.trans hparams.memSize.symm)
    · exact hp.haltPc.trans ((committed_haltPc s).symm.trans hparams.haltPc.symm)
  · have hc' : (s.tick d).phase = .fetchIssue → s.phase = .fetchIssue := fun h => by_contra fun h' => hc ⟨h', h⟩
    exact .inr ⟨hrun, hr.of_sameArch (hidle hf (by tauto)) hp, hc'⟩

end

/-! ### Runs -/

theorem State.CycleInv.ticks {s : State} {draw : Nat → Draws} (hs : s.CycleInv) (hd : ∀ c, (draw c).admitted s.cfg = true)
    (k : Nat) : (State.ticks draw k s).CycleInv ∧ (State.ticks draw k s).cfg = s.cfg := by
  induction k with
  | zero => exact ⟨hs, rfl⟩
  | succ k ih =>
    obtain ⟨hk, hc⟩ := ih
    rw [State.ticks_succ_last]
    exact ⟨hk.tick (hc ▸ hd _), (hk.tick_sameParams _).cfg.trans hc⟩

section
variable {s S : State} {draw : Nat → Draws} (hs : s.CycleInv) (hd : ∀ c, (draw c).admitted s.cfg = true)
  (hst : s.stopped = false) (hr : s.Represents S)
include hs hd hst hr

/-- Every stall ends, so the next instruction is over after finitely many ticks. -/
theorem State.CycleInv.exists_retired : ∃ k, S.Retired (State.ticks draw k s) := by
  obtain ⟨k, hk⟩ := hs.exists_endsStall hd hst
  induction k generalizing s with
  | zero =>
    rcases hs.tick_simulates hst hr (hd s.cyc) with h | ⟨-, -, hidle⟩
    · exact ⟨1, h⟩
    · rcases hk with hk | ⟨hne, hk⟩
      · exact absurd (hst.symm.trans hk) Bool.false_ne_true
      · exact absurd (hidle hk) hne
  | succ k ih =>
    rcases hs.tick_simulates hst hr (hd s.cyc) with h | ⟨hst', hr', -⟩
    · exact ⟨1, h⟩
    · obtain ⟨m, hm⟩ := ih (hs.tick (hd _)) ((hs.tick_sameParams _).cfg ▸ hd) hst' hr' hk
      exact ⟨m + 1, hm⟩

end

/-- The ticks have ended as the steps end: halted in their final state, or faulted with their record. -/
inductive State.EndedAs (t : State) : Host.Outcome State Fault Refusal → Prop
  | halted {T : State} (hp : t.phase = .halted) (ha : t.SameArch T) : EndedAs t (.next T)
  | faulted {f : Fault} (hp : t.phase = .faulted) (hf : t.fault = some f) : EndedAs t (.fault f)

/-- Of a run of `n` steps: it has not ended, or the ticks end as it does. -/
theorem State.CycleInv.exists_endedAs {s S : State} {draw : Nat → Draws} (hs : s.CycleInv)
    (hd : ∀ c, (draw c).admitted s.cfg = true) (hst : s.stopped = false) (hr : s.Represents S) (n : Nat) :
    (∃ T, core.run n S = .next T ∧ T.pc ≠ T.haltPc) ∨ ∃ k, (State.ticks draw k s).EndedAs (core.run n S) := by
  obtain ⟨k, hk⟩ := hs.exists_retired hd hst hr
  obtain ⟨hks, hkc⟩ := hs.ticks hd k
  cases hk with
  | halt hp hpc hr' =>
    rw [core_run_halted hpc]
    obtain ⟨-, -, hx, -⟩ := hks.of_halted hp
    have hc : (State.ticks draw k s).committed = State.ticks draw k s := State.committed_of_drained hx
    exact .inr ⟨k, .halted hp (hc ▸ hr'.arch)⟩
  | fault f hp hf hS =>
    cases n with
    | zero => exact .inl ⟨S, rfl, fun hpc => by simp [step_halted hpc] at hS⟩
    | succ n => rw [core_run_succ_of_fault hS]; exact .inr ⟨k, .faulted hp hf⟩
  | next S' hp hpc hS hr' =>
    cases n with
    | zero => exact .inl ⟨S, rfl, hpc⟩
    | succ n =>
      rw [core_run_succ_of_next hS]
      refine (State.CycleInv.exists_endedAs hks (hkc ▸ hd) hp hr' n).imp_right fun ⟨m, hm⟩ => ⟨k + m, ?_⟩
      rwa [State.ticks_add]
termination_by n

/-- Ticks that stop have retired a run of steps that ends. -/
theorem State.CycleInv.exists_run_of_stopped {s S : State} {draw : Nat → Draws} (hs : s.CycleInv)
    (hd : ∀ c, (draw c).admitted s.cfg = true) (hst : s.stopped = false) (hr : s.Represents S) {k : Nat}
    (hk : (State.ticks draw k s).stopped = true) : ∃ n, ∀ T, core.run n S = .next T → T.pc = T.haltPc := by
  induction k generalizing s S with
  | zero => exact absurd (hst.symm.trans hk) Bool.false_ne_true
  | succ k ih =>
    have hs' := hs.tick (hd s.cyc)
    have hd' := (hs.tick_sameParams (draw s.cyc)).cfg ▸ hd
    rcases hs.tick_simulates hst hr (hd s.cyc) with
      (⟨f, -, -, hS⟩ | ⟨-, hpc, -⟩ | ⟨S', hst', -, hS, hr'⟩) | ⟨hst', hr', -⟩
    · exact ⟨1, by simp [core_run_succ_of_fault hS]⟩
    · exact ⟨0, fun T hT => by cases hT; exact hpc⟩
    · obtain ⟨n, hn⟩ := ih hs' hd' hst' hr' hk
      exact ⟨n + 1, by rwa [core_run_succ_of_next hS]⟩
    · exact ih hs' hd' hst' hr' hk

/-- A run of ticks that has stopped stays as it is (R253, R254). -/
theorem State.ticks_of_le {s : State} {draw : Nat → Draws} {k j : Nat} (h : (State.ticks draw k s).stopped = true) (hj : k ≤ j) :
    State.ticks draw j s = State.ticks draw k s := by
  obtain ⟨m, rfl⟩ := Nat.exists_eq_add_of_le hj
  rw [State.ticks_add, State.ticks_stopped h]

end Sys2Proof.Machine

open Sys2Proof Sys2Proof.Machine

/-- Settles O48: the ticks retire the instructions of the steps, by the refinement, and each after finitely many ticks. -/
theorem timingInvariance : Obligations.TimingInvariance := by
  intro image entry haltPc cfg accel s draw hl hd
  have hs := loadMeetsCycleInvariant _ _ _ _ _ _ hl
  obtain ⟨-, -, -, rfl⟩ := State.load_eq_ok_iff.1 hl
  have hr : (State.loaded image entry haltPc cfg accel).Represents (State.loaded image entry haltPc cfg accel) :=
    ⟨State.SameArch.refl _, rfl, rfl⟩
  refine ⟨fun n T hT hpc => ?_, fun n f hf => ?_, fun hrun k => ?_⟩
  · rcases hs.exists_endedAs hd rfl hr n with ⟨T', hT', hne⟩ | ⟨k, hk⟩
    · cases hT.symm.trans hT'
      exact absurd hpc hne
    · rw [hT] at hk
      obtain ⟨hp, ha⟩ | _ := hk
      refine ⟨k, fun j hj => ?_⟩
      rw [State.ticks_of_le (by simp [State.stopped, hp]) hj]
      exact ⟨hp, ha⟩
  · rcases hs.exists_endedAs hd rfl hr n with ⟨T, hT, -⟩ | ⟨k, hk⟩
    · cases hf.symm.trans hT
    · rw [hf] at hk
      obtain _ | ⟨hp, hf'⟩ := hk
      refine ⟨k, fun j hj => ?_⟩
      rw [State.ticks_of_le (by simp [State.stopped, hp]) hj]
      exact ⟨hp, hf'⟩
  · rw [Bool.eq_false_iff]
    intro hk
    obtain ⟨n, hn⟩ := hs.exists_run_of_stopped hd rfl hr hk
    obtain ⟨T, hT, hne⟩ := hrun n
    exact hne (hn T hT)
end

section
/-! How a tick ends the run (spec/70_reset_and_hazards.md R244, R253, R254), and the domain of `load` (R267). -/

namespace Sys2Proof.Machine

theorem validMemSize_iff (n : Nat) : validMemSize n = true ↔ 4 ≤ n ∧ n ≤ 2 ^ 32 ∧ n % 4 = 0 := by
  simp [validMemSize, and_assoc]

/-! ### The phase after the core's action -/

/-- The core halts at the end of this cycle (R244). -/
def State.Halts (s : State) : Prop := s.phase = .fetchIssue ∧ s.holdCtr = 0 ∧ s.pc = s.haltPc ∧ s.xq = []

section
variable {s : State} (d : Draws)

theorem State.presentMemory_stopped (hst : s.stopped = false) {waiting : Phase} (hw : waiting = .fetchWait ∨ waiting = .memWait) :
    (s.presentMemory d waiting).stopped = false := by
  unfold State.presentMemory
  split
  · exact hst
  · split
    · rcases hw with rfl | rfl <;> rfl
    · exact hst

theorem State.executeAction_stopped (hp : s.phase = .execute) : (s.executeAction d).stopped = false := by
  have hst : s.stopped = false := by simp [State.stopped, hp]
  cases ha : s.acting with
  | none => rwa [State.executeAction_waiting ha]
  | some i =>
    cases hm : s.dataRequest i with
    | some r => rw [State.executeAction_data ha hm]; exact State.presentMemory_stopped d hst (.inr rfl)
    | none =>
      cases hx : s.accelRequest i with
      | some r =>
        rw [State.executeAction_xcel ha hx]
        split
        · rfl
        · exact hst
      | none =>
        obtain ⟨u, hu⟩ := exec_next_of_dataRequest_none hm
        rw [State.executeAction_atOnce ha hm hx hu]
        rfl

/-- The core's action halts the core exactly when it is to halt, and never faults it: faults are raised before the action. -/
theorem State.coreAction_stopped (hst : s.stopped = false) :
    (s.Halts ∧ (s.coreAction d).phase = .halted) ∨ (¬ s.Halts ∧ (s.coreAction d).stopped = false) := by
  obtain ⟨hnh, hnf⟩ := (State.stopped_eq_false_iff s).1 hst
  cases hp : s.phase with
  | fetchIssue =>
    rw [State.coreAction, hp]
    dsimp only
    rcases s.fetchIssueAction_cases d with ⟨hh, h⟩ | ⟨hh, hpc, hx, h⟩ | ⟨hh, hpc, hx, h⟩ | ⟨hh, hpc, h⟩ <;> rw [h]
    · exact .inr ⟨fun ⟨_, h0, _⟩ => by omega, hst⟩
    · exact .inl ⟨⟨hp, hh, hpc, hx⟩, rfl⟩
    · exact .inr ⟨fun ⟨_, _, _, h0⟩ => hx h0, hst⟩
    · exact .inr ⟨fun ⟨_, _, h0, _⟩ => hpc h0, State.presentMemory_stopped d hst (.inl rfl)⟩
  | fetchWait =>
    refine .inr ⟨fun h => (nomatch hp.symm.trans h.1), ?_⟩
    rw [State.coreAction, hp]
    cases hm : s.mq with
    | nil => simpa [State.fetchWaitAction, hm] using hst
    | cons q rest =>
      simp only [State.fetchWaitAction_eq hm]
      split
      · rfl
      · exact hst
  | execute =>
    refine .inr ⟨fun h => (nomatch hp.symm.trans h.1), ?_⟩
    rw [State.coreAction, hp]
    exact State.executeAction_stopped d hp
  | memWait =>
    refine .inr ⟨fun h => (nomatch hp.symm.trans h.1), ?_⟩
    rw [State.coreAction, hp]
    cases hm : s.mq with
    | nil => simpa [State.memWaitAction, hm] using hst
    | cons q rest =>
      simp only [State.memWaitAction_eq hm]
      split
      · rfl
      · exact hst
  | halted => exact absurd hp hnh
  | faulted => exact absurd hp hnf

/-- A core that is to halt raises no fault: it makes no fetch (R244). -/
theorem State.Halts.coreFault (h : s.Halts) : s.coreFault = none := by
  obtain ⟨hp, -, hpc, -⟩ := h
  have hw : s.wantsFetch = false := by simp [State.wantsFetch, State.isHalted, hpc]
  simp [State.coreFault_fetchIssue hp, hw]

theorem State.tick_phase_halted_iff (hst : s.stopped = false) : (s.tick d).phase = .halted ↔ s.Halts := by
  cases hf : s.coreFault with
  | some f =>
    rw [State.tick_of_fault hst hf]
    exact ⟨nofun, fun h => nomatch hf.symm.trans h.coreFault⟩
  | none =>
    have hp : (s.tick d).phase = (s.coreAction d).phase := by simp [State.tick_of_noFault hst hf]
    rw [hp]
    rcases State.coreAction_stopped d hst with ⟨hh, h⟩ | ⟨hh, h⟩
    · exact iff_of_true h hh
    · exact iff_of_false ((State.stopped_eq_false_iff _).1 h).1 hh

/-- A tick enters FAULTED by raising the fault of its cycle and not otherwise. -/
theorem State.exists_coreFault_of_tick_faulted (hst : s.stopped = false) (h : (s.tick d).phase = .faulted) :
    ∃ f, s.coreFault = some f ∧ s.tick d = s.enterFault f := by
  cases hf : s.coreFault with
  | some f => exact ⟨f, rfl, State.tick_of_fault hst hf d⟩
  | none =>
    have hp : (s.coreAction d).phase = .faulted := by simpa [State.tick_of_noFault hst hf] using h
    rcases State.coreAction_stopped d hst with ⟨-, h'⟩ | ⟨-, h'⟩
    · cases hp.symm.trans h'
    · exact absurd hp ((State.stopped_eq_false_iff _).1 h').2

end

theorem State.done_iff (s : State) : s.done = true ↔ s.phase = .halted := decide_eq_true_iff

/-- The record of a fault names the pc and is that of the check that failed (R245, R247, R250). -/
theorem State.coreFault_pc {s : State} {f : Fault} (hf : s.coreFault = some f) : f.pc = s.pc := by
  rcases State.coreFault_cases hf with ⟨-, -, ha⟩ | ⟨-, -, rfl⟩ | ⟨-, i, r, -, -, -, ha⟩
  · exact State.accessFault_pc ha
  · rfl
  · exact State.accessFault_pc ha

end Sys2Proof.Machine

open Sys2Proof Sys2Proof.Machine

/-- Settles O40: the three checks of `load`, each by what it says of its argument. -/
theorem loadRefusesWhatIsOutsideItsDomain : Obligations.LoadRefusesWhatIsOutsideItsDomain := by
  intro image entry haltPc cfg accel
  simp only [State.load_eq_ok_iff, validMemSize_iff, aligned4_iff, RunConfig.valid_iff]
  exact ⟨fun ⟨_, hm, he, hc, _⟩ => ⟨hm, he, hc⟩, fun ⟨hm, he, hc⟩ => ⟨_, hm, he, hc, rfl⟩⟩

/-- Settles O49: the core's action halts it exactly when it is to halt, and a stopped core does nothing. -/
theorem coreHaltsWhenDrainedAndStaysHalted : Obligations.CoreHaltsWhenDrainedAndStaysHalted := by
  refine fun s d => ⟨State.tick_phase_halted_iff d, fun h => State.tick_stopped h d, s.done_iff, fun hs hp => ?_⟩
  obtain ⟨-, hm, hx, -⟩ := hs.of_halted hp
  exact ⟨hm, hx, hs.isBusy_of_drained hx⟩

/-- Settles O50: FAULTED is entered by the fault entry alone, whose record the three checks give. -/
theorem faultTickCommitsOnlyTheFault : Obligations.FaultTickCommitsOnlyTheFault := by
  refine ⟨fun s d f hst hf => ?_, fun s d hst hp => ?_⟩
  · rw [State.tick_of_fault hst hf]
    exact ⟨rfl, rfl⟩
  · obtain ⟨f, hf, ht⟩ := State.exists_coreFault_of_tick_faulted d hst hp
    rw [ht]
    refine ⟨f, rfl, State.coreFault_pc hf, rfl, State.tick_stopped rfl, ?_⟩
    rcases State.coreFault_cases hf with ⟨hp, -, ha⟩ | h | h
    · exact .inr (.inl ⟨hp, ha⟩)
    · exact .inl h
    · exact .inr (.inr h)
end

section
/-! The delivery of the head of `xq` (spec/70_reset_and_hazards.md R236, R252; 45_xcel.md R189, R191). -/

namespace Sys2Proof.Machine

section
variable (s t : State)

@[simp] theorem State.deliverXcel_csr : (s.deliverXcel t).csr = t.csr := by unfold State.deliverXcel; split <;> simp
@[simp] theorem State.deliverXcel_mem : (s.deliverXcel t).mem = t.mem := by unfold State.deliverXcel; split <;> simp
@[simp] theorem State.deliverXcel_memSize : (s.deliverXcel t).memSize = t.memSize := by unfold State.deliverXcel; split <;> simp
@[simp] theorem State.deliverXcel_cfg : (s.deliverXcel t).cfg = t.cfg := by unfold State.deliverXcel; split <;> simp
@[simp] theorem State.deliverXcel_fault : (s.deliverXcel t).fault = t.fault := by unfold State.deliverXcel; split <;> simp
@[simp] theorem State.deliverXcel_stallLeft : (s.deliverXcel t).stallLeft = t.stallLeft := by unfold State.deliverXcel; split <;> simp

end

/-- The core's action never touches the accelerator: its work is posted (R249). -/
theorem State.CoreMove.xcel_eq {s t : State} {d : Draws} (hm : s.CoreMove d t) : t.xcel = s.xcel := by
  rcases hm.effect with ⟨ha, -⟩ | ⟨i, r, -, -, ha, -⟩ | ⟨i, u, -, ht, he, ha, -⟩
  · exact ha.xcel
  · exact ha.xcel
  · exact ha.xcel.trans ((execNext_of_exec he).xcel_of_tag ht)

/-! ### The delivery, field by field -/

section
variable (s : State) {q : XcelRecord}

theorem State.deliverHead_read (hk : q.kind = .read) : (s.deliverHead q).xcel = (s.xcel.read q.addr).2 ∧
    (s.deliverHead q).reg q.rd = if q.rd = 0#5 then 0x00000000#32 else (s.xcel.read q.addr).1 := by
  refine ⟨by simp [State.performXcel_read hk], ?_⟩
  rw [State.reg_congr (s.deliverHead_x q), State.performXcel_read hk, State.reg_setReg, if_pos (Eq.refl q.rd)]
  rfl

theorem State.deliverHead_write (hk : q.kind = .write) : (s.deliverHead q).xcel = s.xcel.write q.addr q.data ∧
    ∀ r, (s.deliverHead q).reg r = s.reg r := by
  refine ⟨by simp [State.performXcel_write hk], fun r => ?_⟩
  rw [State.reg_congr (s.deliverHead_x q), State.performXcel_write hk, State.reg_xcelWrite]

theorem State.reg_deliverHead_of_ne {r : RegIdx} (hr : r ≠ q.rd) : (s.deliverHead q).reg r = s.reg r := by
  have hq : q.holds r = false := by simp [XcelRecord.holds, hr.symm]
  rw [State.reg_congr (s.deliverHead_x q), State.reg_performXcel_of_not_holds hq]

end

/-- The delivery of a cycle, by its head. -/
theorem State.deliverXcel_of_due {s : State} {q : XcelRecord} {rest : List XcelRecord} (hx : s.xq = q :: rest)
    (hq : q.readyCycle ≤ s.cyc) (t : State) : s.deliverXcel t = t.deliverHead q := by
  simp [State.deliverXcel, State.xcelDue, hx, hq]

theorem State.deliverXcel_of_late {s : State} (h : ∀ q rest, s.xq = q :: rest → s.cyc < q.readyCycle) (t : State) :
    s.deliverXcel t = t := by
  rcases State.deliverXcel_cases s t with ⟨q, rest, hx, hq, -⟩ | ⟨-, hd⟩
  · exact absurd (h q rest hx) (by omega)
  · exact hd

end Sys2Proof.Machine

open Sys2Proof Sys2Proof.Machine

/-- Settles O55: the core's action leaves the accelerator, and the delivery is that of the head. -/
theorem deliveryPerformsTheHead : Obligations.DeliveryPerformsTheHead := by
  intro s d hs hst hf
  have hx := (hs.coreMove (d := d) hst hf).xcel_eq
  rw [State.tick_of_noFault hst hf]
  refine ⟨fun q rest hq hdue => ?_, fun hlate => ?_⟩
  · rw [State.deliverXcel_of_due hq hdue, ← hx]
    refine ⟨fun hk => ?_, fun hk => (State.deliverHead_write _ hk).1⟩
    obtain ⟨hxcel, hreg⟩ := State.deliverHead_read (s.coreAction d) hk
    exact ⟨hxcel, fun h0 => ⟨hreg.trans (if_neg h0), (State.isBusy_deliverHead ..).trans (if_pos rfl)⟩⟩
  · rw [State.deliverXcel_of_late hlate]
    exact hx

/-- Settles O57: the wait in EXECUTE changes nothing but the cycle count and what the delivery of the head changes. -/
theorem busyRegisterStallsTheInstruction : Obligations.BusyRegisterStallsTheInstruction := by
  intro s d i hp hdec hbusy
  have hst : s.stalls i = true := by
    rw [← Bool.not_eq_false, State.stalls_false_iff]
    obtain ⟨r, hr, hb⟩ := hbusy
    exact fun h => Bool.false_ne_true ((h r hr).symm.trans hb)
  rw [State.tick_of_stalls hp hdec hst]
  refine ⟨rfl, by simp, by simpa using hp, by simp, by simp, by simp, by simp, by simp, by simp, by simp, by simp, by simp,
    by constructor <;> simp, rfl, fun hlate => ?_, fun q rest hx hdue => ?_⟩
  · rw [State.deliverXcel_of_late hlate]
    exact ⟨rfl, rfl, rfl, rfl⟩
  · rw [State.deliverXcel_of_due hx hdue]
    refine ⟨by simp [hx], (s.isBusy_deliverHead q _).trans (if_pos rfl), fun r hr => ?_, s.deliverHead_read, fun hk => ?_⟩
    · exact ⟨s.reg_deliverHead_of_ne hr, (s.isBusy_deliverHead q r).trans (if_neg hr)⟩
    · exact ⟨(s.deliverHead_write hk).1, (s.deliverHead_write hk).2 q.rd⟩
end

section
/-! The harness (spec/70_reset_and_hazards.md R264, R265): a run ends in its first halted or faulted state. -/

namespace Sys2Proof.Machine

/-- The harness goes on from `s`: neither halted nor faulted. -/
def State.Running (s : State) : Prop := s.phase ≠ .halted ∧ s.fault = none

section
variable {s : State} {draw : Nat → Draws} {n k : Nat}

theorem State.runFor_of_halted (hp : s.phase = .halted) (n : Nat) : State.runFor draw n s = .done s := by
  cases n <;> simp [State.runFor, s.done_iff.2 hp]

theorem State.runFor_of_faulted {f : Fault} (hp : s.phase ≠ .halted) (hf : s.fault = some f) (n : Nat) :
    State.runFor draw n s = .faulted f := by
  cases n <;> simp [State.runFor, State.done, hp, hf]

theorem State.Running.runFor_zero (h : s.Running) : State.runFor draw 0 s = .timeout := by
  simp [State.runFor, State.done, h.1, h.2]

theorem State.Running.runFor_succ (h : s.Running) (n : Nat) :
    State.runFor draw (n + 1) s = State.runFor draw n (s.tick (draw s.cyc)) := by
  rw [State.runFor]
  simp [State.done, h.1, h.2]

/-- While no tick ends the run, the budget of the rest is what is left. -/
theorem State.runFor_of_running (h : ∀ j, j < k → (State.ticks draw j s).Running) (n : Nat) :
    State.runFor draw (k + n) s = State.runFor draw n (State.ticks draw k s) := by
  induction k generalizing n with
  | zero => rw [Nat.zero_add]; rfl
  | succ k ih =>
    rw [Nat.succ_add_eq_add_succ, ih (fun j hj => h j (Nat.lt_succ_of_lt hj)), (h k (Nat.lt_succ_self k)).runFor_succ,
      State.ticks_succ_last]

theorem State.runFor_of_first_halted (hk : k ≤ n) (h : ∀ j, j < k → (State.ticks draw j s).Running)
    (hp : (State.ticks draw k s).phase = .halted) : State.runFor draw n s = .done (State.ticks draw k s) := by
  obtain ⟨m, rfl⟩ := Nat.exists_eq_add_of_le hk
  rw [State.runFor_of_running h, State.runFor_of_halted hp]

theorem State.runFor_of_first_faulted {f : Fault} (hk : k ≤ n) (h : ∀ j, j < k → (State.ticks draw j s).Running)
    (hp : (State.ticks draw k s).phase ≠ .halted) (hf : (State.ticks draw k s).fault = some f) :
    State.runFor draw n s = .faulted f := by
  obtain ⟨m, rfl⟩ := Nat.exists_eq_add_of_le hk
  rw [State.runFor_of_running h, State.runFor_of_faulted hp hf]

theorem State.runFor_of_all_running (h : ∀ k, k ≤ n → (State.ticks draw k s).Running) : State.runFor draw n s = .timeout := by
  rw [← Nat.add_zero n, State.runFor_of_running fun j hj => h j (Nat.le_of_lt hj), (h n (Nat.le_refl n)).runFor_zero]

/-! ### The whole run -/

theorem State.harnessRun_of_first_halted (hk : k ≤ s.cfg.maxCycles) (h : ∀ j, j < k → (State.ticks draw j s).Running)
    (hp : (State.ticks draw k s).phase = .halted) : State.harnessRun draw s = .done (State.ticks draw k s) := by
  have hst : (State.ticks draw k s).stopped = true := by simp [State.stopped, hp]
  simp [State.harnessRun, State.runFor_of_first_halted hk h hp, State.ticks_stopped hst]

theorem State.harnessRun_of_first_faulted {f : Fault} (hk : k ≤ s.cfg.maxCycles)
    (h : ∀ j, j < k → (State.ticks draw j s).Running) (hp : (State.ticks draw k s).phase ≠ .halted) (hf : (State.ticks draw k s).fault = some f) :
    State.harnessRun draw s = .faulted f := by
  simp [State.harnessRun, State.runFor_of_first_faulted hk h hp hf]

theorem State.harnessRun_of_all_running (h : ∀ k, k ≤ s.cfg.maxCycles → (State.ticks draw k s).Running) :
    State.harnessRun draw s = .timeout := by
  simp [State.harnessRun, State.runFor_of_all_running h]

/-- Every state within the budget goes on, or there is a first that is halted or faulted. -/
theorem State.all_running_or_first_end (draw : Nat → Draws) (s : State) (n : Nat) :
    (∀ k, k ≤ n → (State.ticks draw k s).Running) ∨
      ∃ k, k ≤ n ∧ (∀ j, j < k → (State.ticks draw j s).Running) ∧
        ((State.ticks draw k s).phase = .halted ∨
          (State.ticks draw k s).phase ≠ .halted ∧ ∃ f, (State.ticks draw k s).fault = some f) := by
  refine or_iff_not_imp_left.2 fun hall => ?_
  have hex : ∃ k, k ≤ n ∧ ¬ (State.ticks draw k s).Running := by simpa using hall
  classical
  refine ⟨Nat.find hex, (Nat.find_spec hex).1, fun j hj => ?_, ?_⟩
  · have hmin := Nat.find_min hex hj
    exact by_contra fun hr => hmin ⟨(Nat.le_of_lt hj).trans (Nat.find_spec hex).1, hr⟩
  · have hend := (Nat.find_spec hex).2
    by_cases hp : (State.ticks draw (Nat.find hex) s).phase = .halted
    · exact .inl hp
    · exact .inr ⟨hp, Option.ne_none_iff_exists'.1 fun hf => hend ⟨hp, hf⟩⟩

end

end Sys2Proof.Machine

open Sys2Proof Sys2Proof.Machine

/-- Settles O60: the three endings exclude each other and one of them comes, so each answer of the harness names its ending. -/
theorem harnessEndsAtDoneFaultOrTimeout : Obligations.HarnessEndsAtDoneFaultOrTimeout := by
  intro s draw
  refine ⟨fun t => ⟨fun h => ?_, ?_⟩, fun f => ⟨fun h => ?_, ?_⟩, fun h => ?_, State.harnessRun_of_all_running⟩
  case refine_2 => rintro ⟨k, hk, rfl, hp, hj⟩; exact State.harnessRun_of_first_halted hk hj hp
  case refine_4 => exact fun ⟨k, hk, hp, hf, hj⟩ => State.harnessRun_of_first_faulted hk hj hp hf
  all_goals rcases State.all_running_or_first_end draw s s.cfg.maxCycles with hall | ⟨k, hk, hj, hp | ⟨hp, g, hf⟩⟩
  · cases (State.harnessRun_of_all_running hall).symm.trans h
  · cases (State.harnessRun_of_first_halted hk hj hp).symm.trans h
    exact ⟨k, hk, rfl, hp, hj⟩
  · cases (State.harnessRun_of_first_faulted hk hj hp hf).symm.trans h
  · cases (State.harnessRun_of_all_running hall).symm.trans h
  · cases (State.harnessRun_of_first_halted hk hj hp).symm.trans h
  · cases (State.harnessRun_of_first_faulted hk hj hp hf).symm.trans h
    exact ⟨k, hk, hp, hf, hj⟩
  · exact hall
  · cases (State.harnessRun_of_first_halted hk hj hp).symm.trans h
  · cases (State.harnessRun_of_first_faulted hk hj hp hf).symm.trans h
end

section
/-! Instruction timing (spec/70_reset_and_hazards.md R257) with nothing in flight on the Accelerator Port: the core spends `1 + s` cycles
on each request and `L` on its response, and one in EXECUTE where there is no data request. -/

namespace Sys2Proof.Machine

/-- `u` is `n` ticks after `s`, whose instruction is not retired yet; nothing is in flight on the Accelerator Port. -/
structure State.During (s u : State) (n : Nat) : Prop where
  inv   : u.CycleInv
  run   : u.stopped = false
  rep   : u.Represents s
  quiet : u.xq = []
  hold  : u.holdCtr = 0
  cyc   : u.cyc = s.cyc + n
  cfg   : u.cfg = s.cfg

theorem State.CoreMove.holdCtr_le {s t : State} {d : Draws} (hm : s.CoreMove d t) : t.holdCtr ≤ s.holdCtr := by
  cases hm with
  | hold => exact Nat.sub_le ..
  | issue => simp
  | commit hp hd hi hx he => exact (execNext_of_exec he).sameHidden.holdCtr.le
  | halt | wait | stalled | fetchAccepted | fetched | dataAccepted => exact Nat.le_refl _

/-- The memory request the core makes this cycle, and the phase in which it waits for the response (R245, R250). -/
def State.Presents (u : State) (w : Phase) : Prop := ∃ r, u.arbiter = some r ∧ ∀ d, u.coreAction d = u.presentMemory d w

section
variable {s u t : State} {n : Nat} {i : Instr} {d : Draws} (ht : step s = .next t) (hpc : s.pc ≠ s.haltPc)

section
variable (h : s.During u n)
include h

/-- In EXECUTE the instruction acts at once: no register is busy. -/
theorem State.During.acting (hi : decode (s.memRead s.pc) = some i) (hp : u.phase = .execute) : u.acting = some i := by
  obtain ⟨-, -, hir, -⟩ := h.inv.of_execute hp
  have hmem : u.memRead u.pc = s.memRead s.pc := by
    rw [← State.committed_memRead, State.memRead_congr h.rep.arch.mem, h.rep.pc]
  refine (State.acting_eq_some_iff u i).2 ⟨hp, by rw [hir, hmem, hi], ?_⟩
  exact (State.stalls_false_iff u i).2 fun r _ => h.inv.isBusy_of_drained h.quiet r

include ht

theorem State.During.coreFault : u.coreFault = none := by
  cases hf : u.coreFault with
  | none => rfl
  | some f =>
    rw [h.rep.step, h.inv.step_of_coreFault hf] at ht
    cases ht

theorem State.During.tick_eq (d : Draws) : u.tick d = { u.coreAction d with cyc := u.cyc + 1 } := by
  rw [State.tick_of_noFault h.run (h.coreFault ht), State.deliverXcel_of_late (by simp [h.quiet])]

theorem State.During.presents_data (ha : u.acting = some i) {r : MemRequest} (hm : u.dataRequest i = some r) :
    u.Presents .memWait := by
  obtain ⟨hp, -⟩ := (State.acting_eq_some_iff u i).1 ha
  obtain ⟨-, hmq, -⟩ := h.inv.of_execute hp
  refine ⟨r, (State.arbiter_data ha (h.coreFault ht) hmq).trans hm, fun d => ?_⟩
  simp [State.coreAction, hp, State.executeAction_data ha hm]

include hpc

/-- Unless the instruction retires, the tick goes on with it. -/
theorem State.During.tick (hd : d.admitted s.cfg = true) (hp : (u.coreAction d).phase = .fetchIssue → u.phase = .fetchIssue) :
    s.During (u.tick d) (n + 1) := by
  have hd' : d.admitted u.cfg = true := h.cfg.symm ▸ hd
  have hf := h.coreFault ht
  have hm := h.inv.coreMove (d := d) h.run hf
  have hphase : (u.tick d).phase = (u.coreAction d).phase := by rw [h.tick_eq ht]
  have hnf : (u.tick d).phase ≠ .faulted := hphase ▸ hm.phase_ne_faulted h.run
  have hnh : (u.tick d).phase ≠ .halted := fun hh => by
    obtain ⟨-, -, hu, -⟩ := (State.tick_phase_halted_iff d h.run).1 hh
    exact hpc (by rw [← h.rep.pc, ← h.rep.haltPc, hu])
  obtain ⟨-, -, hidle⟩ := tickRefinesStep u d h.inv hd' h.run
  have hidle := hidle hnf (by rw [hphase]; tauto)
  have hx : (u.coreAction d).xq = u.xq := by
    rcases hm.effect with ⟨-, hx, -⟩ | ⟨_, _, -, -, -, -, hne, he⟩ | ⟨_, _, -, -, -, -, hx, -⟩
    · exact hx
    · exact absurd (hp he) hne
    · exact hx
  exact
    { inv := h.inv.tick hd'
      run := (State.stopped_eq_false_iff _).2 ⟨hnh, hnf⟩
      rep := h.rep.of_sameArch hidle (h.inv.tick_sameParams d)
      quiet := by rw [h.tick_eq ht]; exact hx.trans h.quiet
      hold := by rw [h.tick_eq ht]; exact Nat.le_zero.1 (h.hold ▸ hm.holdCtr_le)
      cyc := by rw [h.tick_eq ht]; exact congrArg (· + 1) h.cyc
      cfg := (h.inv.tick_sameParams d).cfg.trans h.cfg }

/-- The tick that returns to FETCH_ISSUE has done what the step does. -/
theorem State.During.retire (hd : d.admitted s.cfg = true) (hp : u.phase ≠ .fetchIssue)
    (hp' : (u.coreAction d).phase = .fetchIssue) : (u.tick d).phase = .fetchIssue ∧ (u.tick d).committed.SameArch t := by
  have hphase : (u.tick d).phase = .fetchIssue := by rw [h.tick_eq ht]; exact hp'
  refine ⟨hphase, ?_⟩
  rcases h.inv.tick_simulates h.run h.rep (h.cfg.symm ▸ hd) with
    (⟨f, -, -, hS⟩ | ⟨-, hh, -⟩ | ⟨t', -, -, hS, hr⟩) | ⟨-, -, hidle⟩
  · cases ht.symm.trans hS
  · exact absurd hh hpc
  · cases ht.symm.trans hS
    exact hr.arch
  · exact absurd (hidle hphase) hp

theorem State.During.presents_fetch (hp : u.phase = .fetchIssue) : u.Presents .fetchWait := by
  have hne : u.pc ≠ u.haltPc := by rwa [h.rep.pc, h.rep.haltPc]
  have hw : u.wantsFetch = true := (State.wantsFetch_iff u).2 ⟨hp, h.hold, hne⟩
  refine ⟨_, State.arbiter_fetch hw (h.coreFault ht) (h.inv.of_fetchIssue hp).1, fun d => ?_⟩
  simp [State.coreAction, hp, State.fetchIssueAction, State.isHalted, h.hold, hne]

theorem State.During.tick_accepted (hd : d.admitted s.cfg = true) {w : Phase} (hw : u.Presents w) (hne : w ≠ .fetchIssue)
    (hr : u.memreqRdy d.stall = true) : s.During (u.tick d) (n + 1) ∧ (u.tick d).phase = w ∧
      ∃ q, (u.tick d).mq = [q] ∧ q.readyCycle = u.cyc + s.cfg.memoryLatency := by
  obtain ⟨r, ha, hact⟩ := hw
  have hact := (hact d).trans (State.presentMemory_ready ha hr w)
  refine ⟨h.tick ht hpc hd fun hp => absurd (by simpa [hact] using hp) hne, ?_, u.memRecord r, ?_, ?_⟩
  · rw [h.tick_eq ht, hact]
  · rw [State.tick_mq_of_accepted h.run ha hr]
  · rw [State.memRecord, h.cfg]

theorem State.During.tick_stalled (hd : d.admitted s.cfg = true) {w : Phase} (hw : u.Presents w)
    (hr : u.memreqRdy d.stall = false) :
    s.During (u.tick d) (n + 1) ∧ (u.tick d).phase = u.phase ∧ (u.tick d).stallDrawn = true := by
  obtain ⟨r, ha, hact⟩ := hw
  have hact := (hact d).trans (State.presentMemory_stalled ha hr w)
  refine ⟨h.tick ht hpc hd fun hp => by simpa [hact] using hp, ?_, ?_⟩ <;> rw [h.tick_eq ht, hact]

/-- The action while the response is still on its way. -/
theorem State.During.tick_pending (hd : d.admitted s.cfg = true) (hp : u.phase = .fetchWait ∨ u.phase = .memWait)
    {q : MemRecord} (hq : u.mq = [q]) (hc : u.cyc < q.readyCycle) :
    s.During (u.tick d) (n + 1) ∧ (u.tick d).phase = u.phase ∧ (u.tick d).mq = [q] := by
  have hact : u.coreAction d = u := by
    rcases hp with hp | hp <;> simp [State.coreAction, hp, State.fetchWaitAction_eq hq, State.memWaitAction_eq hq, hc]
  refine ⟨h.tick ht hpc hd fun hp => hact ▸ hp, ?_, ?_⟩ <;> rw [h.tick_eq ht, hact]
  exact hq

theorem State.During.tick_fetched (hd : d.admitted s.cfg = true) (hp : u.phase = .fetchWait) {q : MemRecord}
    (hq : u.mq = [q]) (hc : q.readyCycle = u.cyc) :
    s.During (u.tick d) (n + 1) ∧ (u.tick d).phase = .execute ∧ (u.tick d).stallDrawn = false := by
  have hact : u.coreAction d = { u with ir := u.memRespData q, mq := [], phase := .execute } := by
    simp [State.coreAction, hp, State.fetchWaitAction_eq hq, hc]
  have hne : (u.coreAction d).phase ≠ .fetchIssue := by rw [hact]; nofun
  obtain ⟨-, hsd, -⟩ := h.inv.of_fetchWait hp
  refine ⟨h.tick ht hpc hd fun hp' => absurd hp' hne, ?_, ?_⟩ <;> rw [h.tick_eq ht, hact]
  exact hsd

end

theorem State.coreAction_delivered (hp : u.phase = .memWait) {q : MemRecord} (hq : u.mq = [q]) (hc : q.readyCycle = u.cyc)
    (d : Draws) : (u.coreAction d).phase = .fetchIssue := by
  simp [State.coreAction, hp, State.memWaitAction_eq hq, hc]

/-- Without a data request EXECUTE takes one cycle: an accelerator request finds room. -/
theorem State.During.coreAction_noData (h : s.During u n) (ha : u.acting = some i) (hm : u.dataRequest i = none) (d : Draws) :
    (u.coreAction d).phase = .fetchIssue := by
  obtain ⟨hp, -⟩ := (State.acting_eq_some_iff u i).1 ha
  simp only [State.coreAction, hp]
  cases hx : u.accelRequest i with
  | some r =>
    have hdepth := h.inv.two_le_xcelDepth
    have hroom : u.xq.length < u.cfg.xcelDepth := by rw [h.quiet]; exact Nat.lt_of_lt_of_le (by decide) hdepth
    rw [State.executeAction_xcel ha hx, if_pos hroom]
  | none =>
    obtain ⟨v, hv⟩ := exec_next_of_dataRequest_none hm
    rw [State.executeAction_atOnce ha hm hx hv]

end

/-! ### The cycles of each phase -/

/-- From tick `a` to before tick `b` the core is in phase `p`, at the instruction of `s`. -/
def State.Spends (draw : Nat → Draws) (s : State) (p : Phase) (a b : Nat) : Prop :=
  ∀ j, a ≤ j → j < b → s.During (State.ticks draw j s) j ∧ (State.ticks draw j s).phase = p

section
variable {s t : State} {draw : Nat → Draws} {i : Instr} {a : Nat}

theorem State.During.spends_one (h : s.During (State.ticks draw a s) a) {p : Phase} (hp : (State.ticks draw a s).phase = p) :
    s.Spends draw p a (a + 1) := fun j ha hj => by
  obtain rfl : j = a := by omega
  exact ⟨h, hp⟩

theorem State.Spends.append {p : Phase} {b c : Nat} (h : s.Spends draw p a b) (h' : s.Spends draw p b c) : s.Spends draw p a c :=
  fun j ha hc => (Nat.lt_or_ge j b).elim (h j ha) fun hb => h' j hb hc

variable (ht : step s = .next t) (hpc : s.pc ≠ s.haltPc) (hd : ∀ c, (draw c).admitted s.cfg = true)
  (h : s.During (State.ticks draw a s) a)
include ht hpc hd h

/-- A request takes the cycle of its acceptance and, if its draw stalls it, the one before (20_memory.md R68). -/
theorem State.During.spends_request {p w : Phase} (hw : ∀ u n, s.During u n → u.phase = p → u.Presents w) (hne : w ≠ .fetchIssue)
    (hp : (State.ticks draw a s).phase = p) (hsd : (State.ticks draw a s).stallDrawn = false) {σ : Nat}
    (hσ : σ = if (draw (s.cyc + a)).stall then 1 else 0) :
    s.Spends draw p a (a + (1 + σ)) ∧ s.During (State.ticks draw (a + (1 + σ)) s) (a + (1 + σ)) ∧
      (State.ticks draw (a + (1 + σ)) s).phase = w ∧
      ∃ q, (State.ticks draw (a + (1 + σ)) s).mq = [q] ∧ q.readyCycle + 1 = s.cyc + (a + (1 + σ)) + s.cfg.memoryLatency := by
  have hrdy : (State.ticks draw a s).memreqRdy (draw (State.ticks draw a s).cyc).stall = !(draw (s.cyc + a)).stall := by
    simp [State.memreqRdy, hsd, h.cyc]
  cases hstall : (draw (s.cyc + a)).stall with
  | false =>
    obtain rfl : σ = 0 := by simpa [hstall] using hσ
    obtain ⟨h', hp', q, hq, hc⟩ := h.tick_accepted ht hpc (hd _) (hw _ _ h hp) hne (by rw [hrdy, hstall]; rfl)
    rw [← State.ticks_succ_last] at h' hp' hq
    exact ⟨h.spends_one hp, h', hp', q, hq, by rw [hc, h.cyc]; omega⟩
  | true =>
    obtain rfl : σ = 1 := by simpa [hstall] using hσ
    obtain ⟨h1, hp1, hsd1⟩ := h.tick_stalled ht hpc (hd _) (hw _ _ h hp) (by rw [hrdy, hstall]; rfl)
    rw [← State.ticks_succ_last] at h1 hp1 hsd1
    have hp1 := hp1.trans hp
    obtain ⟨h', hp', q, hq, hc⟩ :=
      h1.tick_accepted ht hpc (hd _) (hw _ _ h1 hp1) hne (h1.inv.memreqRdy_of_stallDrawn hsd1 _)
    rw [← State.ticks_succ_last] at h' hp' hq
    exact ⟨(h.spends_one hp).append (h1.spends_one hp1), h', hp', q, hq, by rw [hc, h1.cyc]; omega⟩

/-- A response takes `L` cycles; in the last of them it is there (R69). -/
theorem State.During.spends_response {w : Phase} (hw : w = .fetchWait ∨ w = .memWait) (hp : (State.ticks draw a s).phase = w)
    {q : MemRecord} (hq : (State.ticks draw a s).mq = [q]) {l : Nat} (hl : q.readyCycle = s.cyc + a + l) :
    s.Spends draw w a (a + l + 1) ∧ (State.ticks draw (a + l) s).mq = [q] := by
  induction l generalizing a with
  | zero => exact ⟨h.spends_one hp, hq⟩
  | succ l ih =>
    obtain ⟨h', hp', hq'⟩ := h.tick_pending ht hpc (hd _) (by rwa [hp]) hq (by rw [h.cyc]; omega)
    rw [← State.ticks_succ_last] at h' hp' hq'
    obtain ⟨hspends, hlast⟩ := ih h' (hp'.trans hp) hq' (by omega)
    rw [show a + (l + 1) = a + 1 + l by omega]
    exact ⟨(h.spends_one hp).append hspends, hlast⟩

end

/-! ### The instruction's row -/

/-- Before tick `n` the core is at the instruction of `s`, and in FETCH_ISSUE for the cycles `0` to `sf` alone. -/
def State.OnTime (draw : Nat → Draws) (s : State) (sf n : Nat) : Prop :=
  ∀ k, k < n → (State.ticks draw k s).pc = s.pc ∧ ((State.ticks draw k s).phase = .fetchIssue → k ≤ sf)

theorem State.OnTime.append {s : State} {draw : Nat → Draws} {sf a b : Nat} {p : Phase} (h : s.OnTime draw sf a)
    (hs : s.Spends draw p a b) (hp : p ≠ .fetchIssue ∨ b ≤ sf + 1) : s.OnTime draw sf b := by
  intro k hk
  rcases Nat.lt_or_ge k a with hka | hka
  · exact h k hka
  · obtain ⟨hD, hph⟩ := hs k hka hk
    refine ⟨hD.rep.pc, fun hf => ?_⟩
    rcases hp with hp | hp
    · exact absurd (hph.symm.trans hf) hp
    · omega

theorem instrCycles_of_data {s : State} {i : Instr} {r : MemRequest} (hm : s.dataRequest i = some r) (L sf sd : Nat) :
    instrCycles i L sf sd 0 0 = 1 + sf + L + (1 + sd) + L := by
  cases i with
  | lw | sw => rfl
  | add | and | sll | srl | addi | bne | csrrw | csrrwi | xcelrd | xcelwr => cases hm

theorem instrCycles_of_noData {s : State} {i : Instr} (hm : s.dataRequest i = none) (L sf sd : Nat) :
    instrCycles i L sf sd 0 0 = 1 + sf + L + 1 := by
  cases i with
  | lw | sw => cases hm
  | add | and | sll | srl | addi | bne | csrrw | csrrwi | xcelrd | xcelwr => rfl

/-- Which instructions have a data request depends on no state (R190). -/
theorem State.exists_dataRequest {s : State} {i : Instr} {r : MemRequest} (hm : s.dataRequest i = some r) (u : State) :
    ∃ r', u.dataRequest i = some r' := by
  cases i with
  | lw | sw => exact ⟨_, rfl⟩
  | add | and | sll | srl | addi | bne | csrrw | csrrwi | xcelrd | xcelwr => cases hm

section
variable {s t : State} {draw : Nat → Draws} {i : Instr} {sf : Nat} (ht : step s = .next t) (hpc : s.pc ≠ s.haltPc)
  (hd : ∀ c, (draw c).admitted s.cfg = true)
include ht hpc hd

/-- The fetch: `1 + sf` cycles of FETCH_ISSUE and `L` of FETCH_WAIT, then EXECUTE. -/
theorem State.During.fetch (h : s.During s 0) (hp : s.phase = .fetchIssue) (hsd : s.stallDrawn = false)
    (hsf : sf = if (draw s.cyc).stall then 1 else 0) {e : Nat} (he : e = 1 + sf + s.cfg.memoryLatency) :
    s.OnTime draw sf e ∧ s.During (State.ticks draw e s) e ∧ (State.ticks draw e s).phase = .execute ∧
      (State.ticks draw e s).stallDrawn = false := by
  obtain ⟨l, hl⟩ := Nat.exists_eq_add_of_le' h.inv.one_le_memoryLatency
  obtain ⟨hs1, h1, hp1, q, hq, hc⟩ := State.During.spends_request (draw := draw) (a := 0) ht hpc hd h
    (fun _ _ hu => hu.presents_fetch ht hpc) (w := .fetchWait) nofun hp hsd hsf
  rw [Nat.zero_add] at hs1 h1 hp1 hq hc
  obtain ⟨hs2, hq2⟩ := h1.spends_response ht hpc hd (.inl rfl) hp1 hq (l := l) (by omega)
  obtain ⟨h2, hp2⟩ := hs2 (1 + sf + l) (by omega) (by omega)
  obtain ⟨h3, hp3, hsd3⟩ := h2.tick_fetched ht hpc (hd _) hp2 hq2 (by rw [h2.cyc]; omega)
  rw [← State.ticks_succ_last] at h3 hp3 hsd3
  obtain rfl : e = 1 + sf + l + 1 := by omega
  have h0 : s.OnTime draw sf 0 := fun k hk => absurd hk (Nat.not_lt_zero k)
  exact ⟨(h0.append hs1 (.inr (by omega))).append hs2 (.inl nofun), h3, hp3, hsd3⟩

variable {e : Nat} (h : s.During (State.ticks draw e s) e) (hi : decode (s.memRead s.pc) = some i)
  (hp : (State.ticks draw e s).phase = .execute) (hon : s.OnTime draw sf e)
include h hi hp hon

/-- EXECUTE without a data request takes one cycle (R248, R249). -/
theorem State.During.execute_noData (hm : (State.ticks draw e s).dataRequest i = none) :
    s.OnTime draw sf (e + 1) ∧ (State.ticks draw (e + 1) s).phase = .fetchIssue ∧
      (State.ticks draw (e + 1) s).committed.SameArch t := by
  refine ⟨hon.append (h.spends_one hp) (.inl nofun), ?_⟩
  rw [State.ticks_succ_last]
  exact h.retire ht hpc (hd _) (by simp [hp]) (h.coreAction_noData (h.acting hi hp) hm _)

/-- EXECUTE with a data request takes `1 + sd` cycles, and MEM_WAIT `L` (R250, R251). -/
theorem State.During.execute_data {r : MemRequest} (hm : (State.ticks draw e s).dataRequest i = some r)
    (hsd : (State.ticks draw e s).stallDrawn = false) {sd : Nat} (hsd' : sd = if (draw (s.cyc + e)).stall then 1 else 0)
    {n : Nat} (hn : n = e + (1 + sd) + s.cfg.memoryLatency) :
    s.OnTime draw sf n ∧ (State.ticks draw n s).phase = .fetchIssue ∧ (State.ticks draw n s).committed.SameArch t := by
  obtain ⟨l, hl⟩ := Nat.exists_eq_add_of_le' (h.cfg ▸ h.inv.one_le_memoryLatency)
  have hw : ∀ u n, s.During u n → u.phase = .execute → u.Presents .memWait := fun u n hu hpu =>
    (State.exists_dataRequest hm u).elim fun r' hr' => hu.presents_data ht (hu.acting hi hpu) hr'
  obtain ⟨hs1, h1, hp1, q, hq, hc⟩ := h.spends_request ht hpc hd hw nofun hp hsd hsd'
  obtain ⟨hs2, hq2⟩ := h1.spends_response ht hpc hd (.inr rfl) hp1 hq (l := l) (by omega)
  obtain ⟨h2, hp2⟩ := hs2 (e + (1 + sd) + l) (by omega) (by omega)
  obtain rfl : n = e + (1 + sd) + l + 1 := by omega
  refine ⟨(hon.append hs1 (.inl nofun)).append hs2 (.inl nofun), ?_⟩
  rw [State.ticks_succ_last]
  exact h2.retire ht hpc (hd _) (by simp [hp2]) (State.coreAction_delivered hp2 hq2 (by rw [h2.cyc]; omega) _)

end

end Sys2Proof.Machine

open Sys2Proof Sys2Proof.Machine

/-- Settles O58: the fetch, then EXECUTE with or without a data request, each in the cycles of its rule. -/
theorem instructionTakesItsCycles : Obligations.InstructionTakesItsCycles := by
  intro s t i draw hs hd hp hh hsd hx hpc hi ht sf sd n hsf hsd' hn
  have hc : s.committed = s := State.committed_of_drained hx
  have h0 : s.During s 0 :=
    ⟨hs, by simp [State.stopped, hp], ⟨by rw [hc]; exact State.SameArch.refl s, rfl, rfl⟩, hx, hh, rfl, rfl⟩
  obtain ⟨hon, h1, hp1, hsd1⟩ := h0.fetch ht hpc hd hp hsd hsf rfl
  cases hm : (State.ticks draw (1 + sf + s.cfg.memoryLatency) s).dataRequest i with
  | none =>
    rw [instrCycles_of_noData hm] at hn
    subst hn
    exact h1.execute_noData ht hpc hd hi hp1 hon hm
  | some r =>
    rw [instrCycles_of_data hm] at hn
    exact h1.execute_data ht hpc hd hi hp1 hon hm hsd1 hsd' hn
end
